-- ==== Sys2Proof/Word.lean ====
section
/-! DEFINITION. The bit-vector types of the block: the byte of a frame and the words of the register map (R8, R16). -/

namespace Sys2Proof

/-- A byte: 8 bits, an unsigned number 0 to 255 (R8). -/
abbrev Byte := BitVec 8

/-- A length register: 16 bits, unsigned (R16). -/
abbrev Half := BitVec 16

/-- A word register of the register map or a handle: 32 bits (R16, R41). -/
abbrev Word := BitVec 32

end Sys2Proof
end

