-- ==== Sys2Proof/Config.lean ====
section
/-! DEFINITION. The parameters of the block (R6) and the free values of the model. -/

namespace Sys2Proof

namespace Config

/-! ## Parameters whose value the spec fixes (R6) -/

/-- `STX`, the start marker byte (R6). -/
def stx : Byte := 0x02#8

/-- `ETX`, the end marker byte (R6). -/
def etx : Byte := 0x03#8

/-- `MAX_FRAME`, the maximum total frame length in bytes (R6). -/
def maxFrame : Nat := 1024

/-- `MAX_PAYLOAD`, the maximum payload length (R6). -/
def maxPayload : Nat := maxFrame - 3

/-- `ACC_CAP`, the capacity of the accumulation buffer (R6). -/
def accCap : Nat := maxFrame

/-- `DIN_CAP`, the capacity of the input buffer (R6). -/
def dinCap : Nat := maxFrame

/-- `DOUT_CAP`, the capacity of the output buffer (R6). -/
def doutCap : Nat := maxFrame

/-- `TIMER_W`, the width in bits of the millisecond clock `NOW` (R6). -/
abbrev timerW : Nat := 32

/-- `NAME_MAX`, the longest device name in bytes (R6). -/
def nameMax : Nat := 255

/-! ## Free values

A value the spec calls unspecified or "any value" (U6, U14) is one of these, applied to the number of the
draw (a counter held in State) and to the item drawn. Nothing can be proved of the value (log 5). -/

/-- An arbitrary word: `freeWord draw item`. -/
opaque freeWord : Nat → Nat → Word

/-- An arbitrary number, used for what a Transport that reset closes does with its queues (R112, R192). -/
opaque freeNat : Nat → Nat → Nat

end Config

/-- A value of the clock `NOW`: `TIMER_W` bits (R6, R31, R116). -/
abbrev Time := BitVec Config.timerW

/-- The parameters of the block, one field for each row of the table of R6, in its order.  A field whose value R6 fixes has
that value as its default; the others are `OPEN`, and `CHUNK_LEN`, whose value 1 the spec lets a model vary (D8, U7). -/
structure ParamTable where
  stx : Byte := Config.stx
  etx : Byte := Config.etx
  maxFrame : Nat := Config.maxFrame
  maxPayload : Nat := Config.maxPayload
  accCap : Nat := Config.accCap
  dinCap : Nat := Config.dinCap
  doutCap : Nat := Config.doutCap
  /-- `CHUNK_LEN`: the largest number of bytes asked of the Transport in one read. -/
  chunkLen : Nat := 1
  /-- `CHUNK_TIMEOUT_MS`: the timeout of each Transport read, in milliseconds. -/
  chunkTimeoutMs : Nat
  timerW : Nat := Config.timerW
  nameMax : Nat := Config.nameMax
  /-- `HAS_REGISTRY`. -/
  hasRegistry : Bool
  /-- `NSLOTS_MAX`; `none` is the infinite registry of the source. -/
  nslotsMax : Option Nat
deriving DecidableEq, Repr

end Sys2Proof
end

