-- ==== Sys2Proof/Syntax.lean ====
section
/-! DEFINITION. The instructions of the block: the fourteen commands of `OBSC-CMD-1` (R72). -/

namespace Sys2Proof

/-- One constructor per row of the opcode table (R72).  A command word has no operand fields (R71): operands are
in the operand registers, the `CFG_*` registers and the buffers (R73). -/
inductive Instr where
  | encode
  | decode
  | connect
  | sendcmd
  | readrsp
  | disconnect
  | flush
  | rcreate
  | ropen
  | rclose
  | rwrite
  | rread
  | rflush
  | rdeinit
deriving DecidableEq, Repr

/-- The three families of R72: the high nibble of the opcode. -/
inductive Family where
  | codec
  | session
  | registry
deriving DecidableEq, Repr

/-- The family of a command (R72). -/
def Instr.family : Instr → Family
  | .encode | .decode => .codec
  | .connect | .sendcmd | .readrsp | .disconnect | .flush => .session
  | .rcreate | .ropen | .rclose | .rwrite | .rread | .rflush | .rdeinit => .registry

end Sys2Proof
end

