-- ==== Sys2Proof/WellFormed.lean ====
section
/-! DEFINITION. Well-formedness: of the command word the host writes (R71) and of the parameters (R6). -/

namespace Sys2Proof

/-- A command word as the host must write it: the reserved bits [31:8] are 0 (R71).  The block itself ignores
them, so the decoder does not ask for this. -/
def cmdWordWf (w : Word) : Bool := w.extractLsb' 8 24 == 0#24

/-- Well-formedness of an instruction.  A command carries no operand field (R71), so every constructor of Instr is
well formed; what a host can write wrongly is the word (`cmdWordWf`). -/
def Instr.wf : Instr → Bool
  | .encode | .decode => true
  | .connect | .sendcmd | .readrsp | .disconnect | .flush => true
  | .rcreate | .ropen | .rclose | .rwrite | .rread | .rflush | .rdeinit => true

/-- The parameters whose value R6 fixes have that value; the other definitions use the constants of Config for them. -/
def ParamTable.fixed (p : ParamTable) : Bool :=
  p.stx == Config.stx && p.etx == Config.etx && p.maxFrame == Config.maxFrame && p.maxPayload == Config.maxPayload &&
    p.accCap == Config.accCap && p.dinCap == Config.dinCap && p.doutCap == Config.doutCap &&
    p.timerW == Config.timerW && p.nameMax == Config.nameMax

/-- The constraints R6 puts on the parameters it leaves to the run: each is at least 1. -/
def ParamTable.legal (p : ParamTable) : Bool :=
  decide (1 ≤ p.chunkLen) && decide (1 ≤ p.chunkTimeoutMs) && p.nslotsMax.all (fun n => decide (1 ≤ n))

/-- The parameters of a run: the one configuration record of R6, under its constraints.  It stands in State so that every
statement holds for every value of the parameters that R6 leaves open; no step changes it (log 2). -/
structure Params extends ParamTable where
  isFixed : toParamTable.fixed = true := by decide
  isLegal : toParamTable.legal = true := by decide
deriving DecidableEq, Repr

/-- The parameters of `State.reset`: the values R6 fixes, the OPEN ones chosen (DESIGN CHOICE, log 2). -/
def Params.atReset : Params :=
  { chunkTimeoutMs := 10, hasRegistry := true, nslotsMax := none }

end Sys2Proof
end

