-- ==== Sys2Proof/Decode.lean ====
section
/-! DEFINITION. The command decoder, format C8 (R71, R72, R74), and the encoder beside it. -/

namespace Sys2Proof

/-- What the decoder reads from a command word: a command, or an illegal opcode, by its value (R74). -/
inductive Decoded where
  | command (i : Instr)
  | illegalOpcode (op : Byte)
deriving DecidableEq, Repr

/-- The opcode map (R72). -/
def opcodeMap : List (Byte × Instr) :=
  [ (0x10#8, .encode), (0x11#8, .decode),
    (0x20#8, .connect), (0x21#8, .sendcmd), (0x22#8, .readrsp), (0x23#8, .disconnect), (0x24#8, .flush),
    (0x30#8, .rcreate), (0x31#8, .ropen), (0x32#8, .rclose), (0x33#8, .rwrite), (0x34#8, .rread),
    (0x35#8, .rflush), (0x36#8, .rdeinit) ]

/-- Decoding of an opcode byte: every value outside the map is illegal (R74). -/
def decodeOpcode (op : Byte) : Decoded :=
  match opcodeMap.find? (fun row => row.1 == op) with
  | some row => .command row.2
  | none => .illegalOpcode op

/-- Bits [7:0] of a command word. -/
def opcodeOf (w : Word) : Byte := w.extractLsb' 0 8

/-- Decoding of a command word: bits [7:0] are the opcode, bits [31:8] are ignored (R71). -/
def decode (w : Word) : Decoded := decodeOpcode (opcodeOf w)

/-- The opcode of a command (R72). -/
def Instr.opcode : Instr → Byte
  | .encode => 0x10#8
  | .decode => 0x11#8
  | .connect => 0x20#8
  | .sendcmd => 0x21#8
  | .readrsp => 0x22#8
  | .disconnect => 0x23#8
  | .flush => 0x24#8
  | .rcreate => 0x30#8
  | .ropen => 0x31#8
  | .rclose => 0x32#8
  | .rwrite => 0x33#8
  | .rread => 0x34#8
  | .rflush => 0x35#8
  | .rdeinit => 0x36#8

/-- The command word of a command, as the host must write it: reserved bits 0 (R71). -/
def encode (i : Instr) : Word := 0#24 ++ i.opcode

/-- The instruction the decoder reads from a word of the opcode table, bits at and above `nbits` being 0. -/
def decodeTableWord (nbits w : Nat) : Option Instr :=
  match decode (BitVec.ofNat 32 (w % 2 ^ nbits)) with
  | .command i => some i
  | .illegalOpcode _ => none

end Sys2Proof
end

