-- ==== Sys2Proof/Machine/State.lean ====
section
/-! DEFINITION. The state of the block (R14), of the Transports and the clock it calls (R33, R110 to R116), and of
the host's pending accesses; the reasons a step can stop; the state after reset (R35). -/

namespace Sys2Proof.Machine

/-- The outcome codes of a command, the values of `STATUS.FAIL` (R160). -/
inductive Failure where
  | none
  | frameTooLarge
  | noStartMarker
  | noEndMarker
  | checksumMismatch
  | empty
  | portUnavailable
  | configRejected
  | notConnected
  | payloadTooLarge
  | writeIncomplete
  | timeout
  | malformed
  | invalidHandle
  | registryFull
  | illegalCommand
deriving DecidableEq, Repr

/-- The caller-facing error codes, the values of `STATUS.ERR` (R163). -/
inductive ErrCode where
  | none
  | invalidFormat
  | notFound
  | openFailed
  | configFailed
  | sendFailed
  | noData
  | timeout
  | checksumMismatch
  | invalidHandle
deriving DecidableEq, Repr

/-- `STATE` of a Session (R23); `opened` is the spec's `Open`. -/
inductive SessState where
  | unconfigured
  | configured
  | opened
  | closed
deriving DecidableEq, Repr

/-- A configuration tuple (R25): the values of `CFG_BAUD`, `CFG_LINE`, `CFG_NAMELEN` and the bytes of the name. -/
structure Tuple where
  baud    : Word
  line    : Word
  nameLen : Byte
  name    : List Byte
deriving DecidableEq, Repr

/-- The answer of `T.open` (R111). -/
inductive OpenAnswer where
  | ok
  | unavailable
  | rejected
deriving DecidableEq, Repr

/-- A Transport as far as the contract describes it (R33, R40, R51, R110 to R115). -/
structure Transport where
  /-- It is open: acquired by `T.open` and not yet released by `T.close` (R111, R112). -/
  held   : Bool
  /-- Bytes `T.write` has accepted and that have not yet left, oldest first (R33 b). -/
  unsent : List Byte
  /-- Bytes that have left onto the line, oldest first. -/
  wire   : List Byte
  /-- Bytes received and not yet taken by a `T.read`, oldest first (R33 a, R51). -/
  unread : List Byte
deriving DecidableEq, Repr

/-- A Session: its `STATE` (R23), its latched tuple `ACFG` (R26) and the Transport it owns (R110). -/
structure Session where
  state     : SessState
  acfg      : Tuple
  transport : Transport
deriving DecidableEq, Repr

/-- A slot of the Instance Registry: `OCC[h]` and the slot's Session (R27). -/
structure Slot where
  occ     : Bool
  session : Session
deriving DecidableEq, Repr

/-- Which Session a command acts on: the direct one, or that of a slot (R12, R13). -/
inductive SessId where
  | direct
  | slot (h : Nat)
deriving DecidableEq, Repr

/-- A Transport call that has returned, with what it returned (R110 to R115). -/
inductive Call where
  | openPort (cfg : Tuple) (answer : OpenAnswer)
  | closePort
  | write (bytes : List Byte) (w : Int)
  | read (max ms : Nat) (got : List Byte) (lasted : Nat)
  | flush
deriving DecidableEq, Repr

/-- What the environment does at one Transport call: the Transport, the device and the clock are inputs of the step
(R13, R34), held here as data so that a statement about every state is about every environment.  One turn serves
any call, which reads the fields it needs. -/
structure Turn where
  /-- The call returns now; `false`: it has not returned yet, and the host may act first (R48, U18). -/
  ready   : Bool := true
  /-- Milliseconds the call lasts from here on; a read lasts at most its timeout in all (R114). -/
  lasts   : Nat := 0
  /-- How many unsent bytes leave onto the line (R33 b, R51). -/
  depart  : Nat := 0
  /-- Which unread bytes the Transport keeps (U5); a byte past the end of the list is kept. -/
  keep    : List Bool := []
  /-- The bytes that arrive from the device (R51, R167). -/
  arrive  : List Byte := []
  /-- The answer, if the call is `T.open` (R111). -/
  answer  : OpenAnswer := .ok
  /-- The value `T.write` returns (R113). -/
  count   : Int := 0
  /-- How many bytes reach the transmit stream when `count` is outside 0 to L (U4). -/
  sent    : Nat := 0
  /-- The most bytes a `T.read` returns (R114). -/
  take    : Nat := 0
  /-- How many of the newest unsent bytes a flush or close discards (U3, R112). -/
  dropTx  : Nat := 0
  /-- How many of the oldest unread bytes a flush or close discards (U3, R112). -/
  dropRx  : Nat := 0
deriving DecidableEq, Repr

/-- What the host or the platform does next. -/
inductive HostAct where
  /-- `R32 off`: an aligned 32-bit read (R46). -/
  | read32 (off : Nat)
  /-- `R8 off`: an 8-bit read (R46). -/
  | read8 (off : Nat)
  /-- `W32 off <- v`: a 32-bit write; at offset 0x000 it issues a command (R47). -/
  | write32 (off : Nat) (v : Word)
  /-- `W8 off <- v`: an 8-bit write (R46). -/
  | write8 (off : Nat) (v : Byte)
  /-- Read `STATUS` until bit 31 is 0 (the "poll" of the spec's programs). -/
  | poll
  /-- The host's own branch on `STATUS.FAIL`: unless it is one of `codes`, leave out the next `n` acts (R79). -/
  | skipUnless (codes : List Failure) (n : Nat)
  /-- The platform asserts reset (R190). -/
  | reset
  /-- Time passes with no access (R116, R167); a pending `T.read` counts it towards its timeout (R114). -/
  | elapse (ms : Nat)
deriving DecidableEq, Repr

/-- A byte memory: addresses strictly rising, no entry equal to what an unlisted address reads as. -/
abbrev Memory := List Host.Cell

/-- The operand registers: written by the host only (R14, R15, R25). -/
structure OperandRegs where
  argLen     : Half
  argCap     : Half
  argTimeout : Word
  argHandle  : Word
  cfgBaud    : Word
  cfgLine    : Word
  cfgNameLen : Byte
deriving DecidableEq, Repr

/-- The scratch state of the sequencer (R29, R30, R31). -/
structure Scratch where
  txbuf  : Memory
  txLen  : Nat
  acc    : Memory
  accLen : Nat
  t0     : Time
deriving DecidableEq, Repr

/-- The environment: the clock `NOW` (R116), what the environment will do at the coming Transport calls, and the
Transport calls that have returned, newest first.  The block's own work takes no time (R207), so `NOW` moves in Transport
calls and in elapse acts only, but that the millisecond counter may step between the samples of steps 3 and 5 of a
ReadResponse (R123, log 10). -/
structure World where
  now    : Time
  turns  : List Turn
  /-- For each coming ReadResponse, whether `NOW` steps between its steps 3 and 5; past the end it does not. -/
  starts : List Bool
  /-- Milliseconds the pending `T.read` has lasted so far, in elapse acts (R114, log 12). -/
  waited : Nat
  log    : List (SessId × Call)
deriving DecidableEq, Repr

/-- The host's side of the command port: its coming acts, whether the running command has let the host act, the `STATE` of
the direct session at the issue of the last command, which is what `SESS_STATE` shows until that command completes (R48,
log 6), the value the host's last read returned, and the number of the next free value. -/
structure HostSide where
  queue   : List HostAct
  yielded : Bool
  shown   : SessState
  rdata   : Word
  fresh   : Nat
deriving DecidableEq, Repr

/-- The whole state.  `mem` holds the byte buffers of the register map at their offsets: `CFG_NAME` at 0x100,
`DIN` at 0x400, `DOUT` at 0x800 (R41). -/
structure State where
  params    : Params
  cmd       : Byte
  busy      : Bool
  fail      : Failure
  err       : ErrCode
  ops       : OperandRegs
  resLen    : Half
  resHandle : Word
  mem       : Memory
  scratch   : Scratch
  direct    : Session
  regSize   : Nat
  slots     : List Slot
  world     : World
  host      : HostSide
deriving DecidableEq, Repr

/-- The reasons the machine stops with a fault. -/
inductive Fault where
  /-- Raised by a host access at an offset outside the register map (R40: 0x000 to 0xBFF exist).  Safe: the spec
  gives such an access no effect. -/
  | outsideMap (off : Nat)
deriving DecidableEq, Repr

/-- The reasons the machine refuses a step. -/
inductive Refusal where
  /-- Raised by an arm of `exec` whose instruction has no meaning yet; no arm is.  Safe. -/
  | notModelled (mnemonic : String)
  /-- Raised by a host write to `CMD` while `STATUS.BUSY = 1` (R194, U1: undefined, a model refuses).  Safe. -/
  | cmdWhileBusy
  /-- Raised by a host write to an operand register, `CFG_*`, `CFG_NAME` or DIN while `STATUS.BUSY = 1`
  (R205, U14: undefined, a model refuses).  Safe. -/
  | operandWriteWhileBusy (off : Nat)
  /-- Raised by a host access of the wrong width or alignment (R46, U13: not defined, a model refuses).  Safe. -/
  | undefinedAccess (off : Nat)
deriving DecidableEq, Repr

/-- A tuple of zeros: `ACFG` after power-on, and of a slot past the end of `State.slots` always, which the spec leaves
unspecified (DESIGN CHOICE, log 4). -/
def Tuple.zero : Tuple := { baud := 0, line := 0, nameLen := 0, name := [] }

/-- A Transport that is not open and has moved no byte (R35). -/
def Transport.idle : Transport := { held := false, unsent := [], wire := [], unread := [] }

/-- A Session as after reset (R35). -/
def Session.atReset : Session :=
  { state := .unconfigured, acfg := .zero, transport := .idle }

/-- A slot that holds no Session (R27); every slot past the end of `State.slots` is one, so its `ACFG` is the tuple of zeros,
after the reset of a running machine too (DESIGN CHOICE, log 4). -/
def Slot.empty : Slot := { occ := false, session := .atReset }

/-- The operand registers after reset (R35). -/
def OperandRegs.atReset : OperandRegs :=
  { argLen := 0, argCap := 0, argTimeout := 0, argHandle := 0, cfgBaud := 0, cfgLine := 0, cfgNameLen := 0 }

/-- The machine right after reset (R35).  What R35 leaves unspecified (the buffers, `T0`, `ACFG`) holds zeros here
(DESIGN CHOICE, log 4); no host act and no environment turn is pending, so the block waits (R191, log 1). -/
def State.reset : State :=
  { params := .atReset
    cmd := 0x00#8
    busy := false
    fail := .none
    err := .none
    ops := .atReset
    resLen := 0
    resHandle := 0xFFFFFFFF#32
    mem := []
    scratch := { txbuf := [], txLen := 0, acc := [], accLen := 0, t0 := 0 }
    direct := .atReset
    regSize := 0
    slots := []
    world := { now := 0, turns := [], starts := [], waited := 0, log := [] }
    host := { queue := [], yielded := false, shown := .unconfigured, rdata := 0, fresh := 0 } }

end Sys2Proof.Machine
end

