-- ==== Sys2Proof/Machine/Flags.lean ====
section
/-! DEFINITION. The status codes and the layout of `STATUS` (R21, R41, R160, R163, R164), the code of `STATE` (R23). -/

namespace Sys2Proof.Machine

/-- The numeric value of `STATUS.FAIL` (R160). -/
def Failure.code : Failure → BitVec 5
  | .none => 0#5
  | .frameTooLarge => 1#5
  | .noStartMarker => 2#5
  | .noEndMarker => 3#5
  | .checksumMismatch => 4#5
  | .empty => 5#5
  | .portUnavailable => 6#5
  | .configRejected => 7#5
  | .notConnected => 8#5
  | .payloadTooLarge => 9#5
  | .writeIncomplete => 10#5
  | .timeout => 11#5
  | .malformed => 12#5
  | .invalidHandle => 13#5
  | .registryFull => 14#5
  | .illegalCommand => 15#5

/-- The numeric value of `STATUS.ERR` (R163). -/
def ErrCode.code : ErrCode → BitVec 4
  | .none => 0#4
  | .invalidFormat => 1#4
  | .notFound => 2#4
  | .openFailed => 3#4
  | .configFailed => 4#4
  | .sendFailed => 5#4
  | .noData => 6#4
  | .timeout => 7#4
  | .checksumMismatch => 8#4
  | .invalidHandle => 9#4

/-- `Translate(FAIL)` (R164). -/
def Failure.translate : Failure → ErrCode
  | .none => .none
  | .frameTooLarge => .invalidFormat
  | .noStartMarker => .invalidFormat
  | .noEndMarker => .invalidFormat
  | .checksumMismatch => .checksumMismatch
  | .empty => .noData
  | .portUnavailable => .openFailed
  | .configRejected => .configFailed
  | .notConnected => .openFailed
  | .payloadTooLarge => .invalidFormat
  | .writeIncomplete => .sendFailed
  | .timeout => .timeout
  | .malformed => .invalidFormat
  | .invalidHandle => .invalidHandle
  | .registryFull => .openFailed
  | .illegalCommand => .invalidFormat

/-- The value of a `STATE` (R23). -/
def SessState.code : SessState → BitVec 2
  | .unconfigured => 0#2
  | .configured => 1#2
  | .opened => 2#2
  | .closed => 3#2

/-- The `STATUS` word: `BUSY` in bit 31, `ERR` in [11:8], `FAIL` in [4:0], the other bits 0 (R41, R42). -/
def statusWord (busy : Bool) (err : ErrCode) (fail : Failure) : Word :=
  BitVec.ofBool busy ++ 0#19 ++ err.code ++ 0#3 ++ fail.code

end Sys2Proof.Machine
end

