-- ==== Sys2Proof/Machine/Memory.lean ====
section
/-! DEFINITION. The operations over a byte memory in canonical form: one access is one byte at one index (R46). -/

namespace Sys2Proof.Machine

/-- What a byte that nothing has written reads as: R18 and R35 leave it unspecified (DESIGN CHOICE, log 3). -/
def unwritten : Byte := 0x00#8

/-- Addresses rise strictly from above `lo`. -/
def Memory.risesFrom : Nat → Memory → Bool
  | _, [] => true
  | lo, c :: m => decide (lo ≤ c.1) && Memory.risesFrom (c.1 + 1) m

/-- The canonical form: addresses strictly rising, no listed byte equal to what an unlisted address reads as. -/
def Memory.wf (m : Memory) : Bool :=
  Memory.risesFrom 0 m && m.all (fun c => c.2 != unwritten)

/-- Read one byte. -/
def Memory.read : Memory → Nat → Byte
  | [], _ => unwritten
  | c :: m, a => if c.1 = a then c.2 else Memory.read m a

/-- Put a byte in front of the rest, unless it is what an unlisted address reads as. -/
def Memory.put (a : Nat) (v : Byte) (m : Memory) : Memory :=
  if v = unwritten then m else (a, v) :: m

/-- Put a byte at its place in the order. -/
def Memory.insert (a : Nat) (v : Byte) : Memory → Memory
  | [] => Memory.put a v []
  | c :: m => if a < c.1 then Memory.put a v (c :: m) else c :: Memory.insert a v m

/-- Take every entry of an address out. -/
def Memory.erase (m : Memory) (a : Nat) : Memory := m.filter (fun c => c.1 != a)

/-- Write one byte, keeping the canonical form. -/
def Memory.write (m : Memory) (a : Nat) (v : Byte) : Memory := Memory.insert a v (m.erase a)

/-- Write a byte sequence at `base`, `base + 1`, and so on (R57: buffer base plus byte index). -/
def Memory.writeBytes : Memory → Nat → List Byte → Memory
  | m, _, [] => m
  | m, base, b :: bs => Memory.writeBytes (Memory.write m base b) (base + 1) bs

/-- Read `n` bytes from `base` on. -/
def Memory.readBytes (m : Memory) (base : Nat) : Nat → List Byte
  | 0 => []
  | n + 1 => Memory.read m base :: Memory.readBytes m (base + 1) n

/-- A memory whose bytes at `lo, lo + 1, ..., lo + n - 1` are free values (U6), the others unlisted. -/
def Memory.freed (draw item : Nat) (lo : Nat) : Nat → Memory
  | 0 => []
  | n + 1 =>
    Memory.put lo ((Config.freeWord draw (item + lo)).setWidth 8) (Memory.freed draw item (lo + 1) n)

end Sys2Proof.Machine
end

