-- ==== Sys2Proof/Machine/Operands.lean ====
section
/-! DEFINITION. The operands of the commands (R15, R25, R73, R75): registers, buffers, the configuration tuple and
the check of it (R117).  A running command reads them where the host wrote them, since the host may not write them
while the command runs (R54, R205). -/

namespace Sys2Proof.Machine

/-- Offset of `CFG_NAME[0]` in the register map (R41). -/
def nameBase : Nat := 0x100

/-- Offset of `DIN[0]` in the register map (R41). -/
def dinBase : Nat := 0x400

/-- Offset of `DOUT[0]` in the register map (R41). -/
def doutBase : Nat := 0x800

/-- `DIN[i]`. -/
def State.din (s : State) (i : Nat) : Byte := s.mem.read (dinBase + i)

/-- `DOUT[i]`. -/
def State.dout (s : State) (i : Nat) : Byte := s.mem.read (doutBase + i)

/-- `CFG_NAME[i]`. -/
def State.cfgName (s : State) (i : Nat) : Byte := s.mem.read (nameBase + i)

/-- `DIN[0 .. n-1]`. -/
def State.dinBytes (s : State) (n : Nat) : List Byte := s.mem.readBytes dinBase n

/-- `DOUT[0 .. n-1]`. -/
def State.doutBytes (s : State) (n : Nat) : List Byte := s.mem.readBytes doutBase n

/-- `ARG_LEN` as a length. -/
def State.len (s : State) : Nat := s.ops.argLen.toNat

/-- `ARG_CAP` as a capacity. -/
def State.cap (s : State) : Nat := s.ops.argCap.toNat

/-- `ARG_TIMEOUT` in milliseconds. -/
def State.timeoutMs (s : State) : Nat := s.ops.argTimeout.toNat

/-- The tuple the `CFG_*` registers hold: the operand of CONNECT, RCREATE and ROPEN (R119). -/
def State.tuple (s : State) : Tuple :=
  { baud := s.ops.cfgBaud
    line := s.ops.cfgLine
    nameLen := s.ops.cfgNameLen
    name := s.mem.readBytes nameBase s.ops.cfgNameLen.toNat }

/-- `DATA_BITS`, bits [3:0] of the line word (R75). -/
def Tuple.dataBits (c : Tuple) : BitVec 4 := c.line.extractLsb' 0 4

/-- `STOP_BITS`, bits [5:4] of the line word (R75). -/
def Tuple.stopBits (c : Tuple) : BitVec 2 := c.line.extractLsb' 4 2

/-- `RTS`, bit [8] of the line word (R75). -/
def Tuple.rts (c : Tuple) : Bool := c.line.getLsbD 8

/-- `DTR`, bit [9] of the line word (R75). -/
def Tuple.dtr (c : Tuple) : Bool := c.line.getLsbD 9

/-- `PARITY`, bits [23:16] of the line word (R75). -/
def Tuple.parity (c : Tuple) : Byte := c.line.extractLsb' 16 8

/-- `ValidCfg(cfg)` (R117): 5 to 8 data bits, 1 or 2 stop bits, parity `N`, `E` or `O`, a name that fits. -/
def Tuple.valid (c : Tuple) : Bool :=
  (decide (5 ≤ c.dataBits.toNat) && decide (c.dataBits.toNat ≤ 8)) &&
    (c.stopBits == 1#2 || c.stopBits == 2#2) &&
    (c.parity == 0x4E#8 || c.parity == 0x45#8 || c.parity == 0x4F#8) &&
    decide (c.nameLen.toNat ≤ Config.nameMax)

end Sys2Proof.Machine
end

