-- ==== Sys2Proof/Machine/Ops.lean ====
section
/-! DEFINITION. The shared operations: completion with failure and with success (R171, R172), issue (R47), the
Sessions, the Transport calls (R110 to R115), the clock (R116), the registry table (R140 to R142), reset (R190 to
R192). -/

namespace Sys2Proof.Machine

/-! ## Completion (the block's exceptions) -/

/-- `raise F`, completion with failure (R171): the code and its translation, no result bytes, not busy.  Nothing is
saved anywhere and control goes nowhere, so there is no return from it (R173). -/
def State.raise (f : Failure) (s : State) : State :=
  { s with fail := f, err := Failure.translate f, resLen := 0, busy := false }

/-- `done`, completion with success (R172): `n` is the value the command's rule gives `RES_LEN`. -/
def State.done (n : Nat) (s : State) : State :=
  { s with fail := .none, err := .none, resLen := BitVec.ofNat 16 n, busy := false }

/-- The issue of a command (R47): `CMD` holds the opcode byte of the word (R22, R42), `BUSY` is 1, and what the host sees of
the direct session until completion is its `STATE` now (R48). -/
def State.issue (w : Word) (s : State) : State :=
  { s with cmd := opcodeOf w, busy := true, host := { s.host with yielded := false, shown := s.direct.state } }

/-- The command stays in progress at a Transport call that has not returned: `BUSY` is 1 and the host may act once
before the sequencer is asked again (R48, U18, log 1). -/
def State.suspend (s : State) : State :=
  { s with busy := true, host := { s.host with yielded := true } }

/-- Write the result bytes `DOUT[0 .. len-1]` (R28). -/
def State.writeDout (p : List Byte) (s : State) : State :=
  { s with mem := s.mem.writeBytes doutBase p }

/-! ## How a function of a Session ends -/

/-- A function of a Session ends with a value, with a failure, or is still waiting at a Transport call (then the
state is already the suspended one). -/
inductive Run (α : Type) where
  | ok (a : α) (s : State)
  | fail (f : Failure) (s : State)
  | waits (s : State)

/-- Go on after a function that ended with a value. -/
def Run.bind {α β : Type} (r : Run α) (k : α → State → Run β) : Run β :=
  match r with
  | .ok a s => k a s
  | .fail f s => .fail f s
  | .waits s => .waits s

/-- The end of a command: `done` or `raise`, or the suspended state. -/
def Run.complete {α : Type} (r : Run α) (onOk : α → State → State) : State :=
  match r with
  | .ok a s => onOk a s
  | .fail f s => s.raise f
  | .waits s => s

/-- The end of a command that returns no bytes (R172). -/
def Run.finish (r : Run Unit) : State := r.complete (fun _ s => s.done 0)

/-- The end of a command that returns a payload (R123, R147). -/
def Run.finishPayload (r : Run (List Byte)) : State :=
  r.complete (fun p s => (s.writeDout p).done p.length)

/-! ## Sessions and slots -/

/-- Slot `h`; every slot past the end of the list is empty (R27). -/
def slotAt : List Slot → Nat → Slot
  | [], _ => Slot.empty
  | x :: _, 0 => x
  | _ :: xs, h + 1 => slotAt xs h

/-- Replace slot `h`. -/
def putSlot : List Slot → Nat → Slot → List Slot
  | [], 0, v => [v]
  | [], h + 1, v => Slot.empty :: putSlot [] h v
  | _ :: xs, 0, v => v :: xs
  | x :: xs, h + 1, v => x :: putSlot xs h v

/-- The Session a command acts on. -/
def State.session (s : State) : SessId → Session
  | .direct => s.direct
  | .slot h => (slotAt s.slots h).session

/-- Replace a Session. -/
def State.putSession (k : SessId) (v : Session) (s : State) : State :=
  match k with
  | .direct => { s with direct := v }
  | .slot h => { s with slots := putSlot s.slots h { slotAt s.slots h with session := v } }

/-- `S.STATE <- v`. -/
def State.setSess (k : SessId) (v : SessState) (s : State) : State :=
  s.putSession k { s.session k with state := v }

/-- Connect step 3: `S.ACFG <- cfg; S.STATE <- Configured` (R118). -/
def State.latch (k : SessId) (cfg : Tuple) (s : State) : State :=
  s.putSession k { s.session k with acfg := cfg, state := .configured }

/-! ## The clock -/

/-- Milliseconds pass: `NOW` counts them and wraps (R116). -/
def State.elapse (ms : Nat) (s : State) : State :=
  { s with world := { s.world with now := s.world.now + BitVec.ofNat Config.timerW ms } }

/-- `Elapsed(t0, t) = (t - t0) mod 2^TIMER_W` (R116). -/
def elapsed (t0 t : Time) : Nat := (t - t0).toNat

/-! ## The Transport -/

/-- The unread bytes the Transport keeps (U5). -/
def keepBy : List Bool → List Byte → List Byte
  | _, [] => []
  | [], b :: bs => b :: bs
  | k :: ks, b :: bs => if k then b :: keepBy ks bs else keepBy ks bs

/-- What happens at the Transport by itself during a turn: unsent bytes leave, unread bytes may be lost, bytes arrive
from the device (R33, R51, R167). -/
def Transport.world (t : Turn) (x : Transport) : Transport :=
  { x with
    wire := x.wire ++ x.unsent.take t.depart
    unsent := x.unsent.drop t.depart
    unread := keepBy t.keep x.unread ++ t.arrive }

/-- What a flush or a close discards (U3, R112): some newest unsent bytes, some oldest unread bytes, or nothing. -/
def Transport.discard (dropTx dropRx : Nat) (x : Transport) : Transport :=
  { x with unsent := x.unsent.take (x.unsent.length - dropTx), unread := x.unread.drop dropRx }

/-- The turns of the environment that are to come. -/
def State.setTurns (r : List Turn) (s : State) : State :=
  { s with world := { s.world with turns := r } }

/-- The beginning of turn `t`, after which `rest` are to come: the own events of the Transport of Session `k` happen. -/
def State.beginTurn (k : SessId) (t : Turn) (rest : List Turn) (s : State) : State :=
  let s := s.setTurns rest
  s.putSession k { s.session k with transport := (s.session k).transport.world t }

/-- Wait for the next turn of the environment at the Transport of `k`.  With no turn to come, or a turn that is not
ready, the call has not returned (log 1). -/
def await (k : SessId) (s : State) : Run Turn :=
  match s.world.turns with
  | [] => .waits s.suspend
  | t :: rest =>
    if t.ready then .ok t (s.beginTurn k t rest)
    else .waits (s.setTurns rest).suspend

/-- Record a call that has returned and put the Transport it leaves; no call is pending then. -/
def State.endCall (k : SessId) (c : Call) (x : Transport) (s : State) : State :=
  let s := s.putSession k { s.session k with transport := x }
  { s with world := { s.world with log := (k, c) :: s.world.log, waited := 0 } }

/-- `T.open(cfg)` (R111). -/
def callOpen (k : SessId) (cfg : Tuple) (s : State) : Run OpenAnswer :=
  (await k s).bind fun t s =>
    .ok t.answer ((s.elapse t.lasts).endCall k (.openPort cfg t.answer)
      { (s.session k).transport with held := t.answer == .ok })

/-- `T.close()` (R112). -/
def callClose (k : SessId) (s : State) : Run Unit :=
  (await k s).bind fun t s =>
    .ok () ((s.elapse t.lasts).endCall k .closePort
      { (s.session k).transport.discard t.dropTx t.dropRx with held := false })

/-- How many of `len` bytes enter the transmit stream when `T.write` returns `t.count`: that many when it is in
0 to `len` (R113), any number otherwise (U4). -/
def accepted (t : Turn) (len : Nat) : Nat :=
  if 0 ≤ t.count ∧ t.count ≤ (len : Int) then t.count.toNat else min t.sent len

/-- `T.write(bytes)` (R113). -/
def callWrite (k : SessId) (bytes : List Byte) (s : State) : Run Int :=
  (await k s).bind fun t s =>
    let x := (s.session k).transport
    .ok t.count ((s.elapse t.lasts).endCall k (.write bytes t.count)
      { x with unsent := x.unsent ++ bytes.take (accepted t bytes.length) })

/-- `T.flush()` (R115, U3). -/
def callFlush (k : SessId) (s : State) : Run Unit :=
  (await k s).bind fun t s =>
    .ok () ((s.elapse t.lasts).endCall k .flush ((s.session k).transport.discard t.dropTx t.dropRx))

/-- The bytes a `T.read` of at most `max` bytes returns in turn `t`: the next bytes of the receive stream (R114). -/
def readBytesOf (t : Turn) (max : Nat) (x : Transport) : List Byte := x.unread.take (min t.take max)

/-- `T.read(max, ms)` in the turn `t`, already begun (R114): it lasts at most `ms` milliseconds, what it has already waited
included, and the bytes it returns are taken from the receive stream. -/
def readIn (k : SessId) (t : Turn) (max ms : Nat) (s : State) : List Byte × State :=
  let x := (s.session k).transport
  let got := readBytesOf t max x
  let lasts := min t.lasts (ms - s.world.waited)
  (got, (s.elapse lasts).endCall k (.read max ms got (s.world.waited + lasts))
    { x with unread := x.unread.drop got.length })

/-! ## The registry table -/

/-- Whether `n` slots fit under `NSLOTS_MAX` (R6). -/
def fits (n : Nat) : Option Nat → Bool
  | none => true
  | some m => decide (n ≤ m)

/-- `ValidHandle(h)` (R141), for the 32-bit signed `h`. -/
def State.validHandle (s : State) (h : Word) : Bool :=
  decide (0 ≤ h.toInt) && decide (h.toInt < (s.regSize : Int)) && (slotAt s.slots h.toNat).occ

/-- `FreeSlot()` (R142): the least empty slot, else a new one if the table may grow. -/
def State.freeSlot (s : State) : Option Nat :=
  match (List.range s.regSize).find? (fun h => !(slotAt s.slots h).occ) with
  | some h => some h
  | none => if fits (s.regSize + 1) s.params.nslotsMax then some s.regSize else none

/-- `OCC[h] <- v`. -/
def State.setOcc (h : Nat) (v : Bool) (s : State) : State :=
  { s with slots := putSlot s.slots h { slotAt s.slots h with occ := v } }

/-- `RES_HANDLE <- -1` (R143). -/
def State.noHandle (s : State) : State := { s with resHandle := 0xFFFFFFFF#32 }

/-- `RES_HANDLE <- h`.  A slot number the signed register cannot hold leaves a free value in it (log 8). -/
def State.giveHandle (h : Nat) (s : State) : State :=
  if h < 2 ^ 31 then { s with resHandle := BitVec.ofNat 32 h }
  else
    { s with
      resHandle := Config.freeWord s.host.fresh 0
      host := { s.host with fresh := s.host.fresh + 1 } }

/-! ## Reset -/

/-- An unspecified tuple (R35): the `ACFG` of a Session after reset. -/
def freeTuple (draw item : Nat) : Tuple :=
  let n := (Config.freeWord draw (item + 2)).setWidth 8
  { baud := Config.freeWord draw item
    line := Config.freeWord draw (item + 1)
    nameLen := n
    name := (List.range n.toNat).map fun i => (Config.freeWord draw (item + 3 + i)).setWidth 8 }

/-- The frame a SENDCMD or RWRITE in progress has handed to the `T.write` of Session `k`, which has not returned: when
reset abandons the command, a part of it may be on the wire (R192). -/
def State.abandonedFrame (s : State) (k : SessId) : List Byte :=
  if s.busy then
    match decodeOpcode s.cmd with
    | .command .sendcmd => if k = .direct then s.scratch.txbuf.readBytes 0 s.scratch.txLen else []
    | .command .rwrite =>
      if k = .slot s.ops.argHandle.toNat then s.scratch.txbuf.readBytes 0 s.scratch.txLen else []
    | _ => []
  else []

/-- The Transport of an open Session after the `T.close()` of reset (R112, R192): how much of an abandoned frame it took,
how many bytes leave, and how many it discards are free numbers. -/
def Transport.afterReset (draw item : Nat) (frame : List Byte) (x : Transport) : Transport :=
  let unsent := x.unsent ++ frame.take (Config.freeNat draw item)
  let leave := Config.freeNat draw (item + 1)
  let x := { x with wire := x.wire ++ unsent.take leave, unsent := unsent.drop leave }
  { x.discard (Config.freeNat draw (item + 2)) (Config.freeNat draw (item + 3)) with held := false }

/-- A Session after reset: `Unconfigured`, its Transport released if it was held, `ACFG` unspecified (R35, R192). -/
def Session.afterReset (draw item : Nat) (frame : List Byte) (x : Session) : Session :=
  { state := .unconfigured
    acfg := freeTuple draw item
    transport := if x.state = .opened then x.transport.afterReset draw item frame else x.transport }

/-- The slots after reset, `h` being the number of the first: none holds a Session.  A slot past the end of the list stays
`Slot.empty`, so its `ACFG`, which R35 leaves unspecified, is the tuple of zeros there (DESIGN CHOICE, log 4). -/
def slotsAfterReset (draw : Nat) (frame : Nat → List Byte) : Nat → List Slot → List Slot
  | _, [] => []
  | h, x :: xs =>
    { occ := false, session := x.session.afterReset draw (0x5000 + 0x1000 * h) (frame h) } ::
      slotsAfterReset draw frame (h + 1) xs

/-- The `T.close()` calls of reset on the slots, `h` being the number of the first: one for each open Session. -/
def slotCloses : Nat → List Slot → List (SessId × Call)
  | _, [] => []
  | h, x :: xs =>
    if x.session.state = .opened then slotCloses (h + 1) xs ++ [(.slot h, .closePort)]
    else slotCloses (h + 1) xs

/-- The `T.close()` calls of reset, newest first (R192; the order among Sessions is a DESIGN CHOICE, log 9). -/
def State.resetCloses (s : State) : List (SessId × Call) :=
  slotCloses 0 s.slots ++ if s.direct.state = .opened then [(.direct, .closePort)] else []

/-- The block's one reset (R190 to R192): every scalar at its value of R35, the registry empty, every open Transport
released, a running command abandoned; what R35 leaves unspecified is free.  The parameters, the environment and the
host are not the block's and stay. -/
def State.afterReset (s : State) : State :=
  let n := s.host.fresh
  { params := s.params
    cmd := 0x00#8
    busy := false
    fail := .none
    err := .none
    ops := .atReset
    resLen := 0
    resHandle := 0xFFFFFFFF#32
    mem := Memory.freed n 0 nameBase 0xB00
    scratch :=
      { txbuf := Memory.freed n 0x1000 0 Config.maxFrame
        txLen := 0
        acc := Memory.freed n 0x2000 0 Config.accCap
        accLen := 0
        t0 := (Config.freeWord n 0x3000).setWidth Config.timerW }
    direct := s.direct.afterReset n 0x4000 (s.abandonedFrame .direct)
    regSize := 0
    slots := slotsAfterReset n (fun h => s.abandonedFrame (.slot h)) 0 s.slots
    world := { s.world with log := s.resetCloses ++ s.world.log, waited := 0 }
    host := { s.host with yielded := false, fresh := n + 1 } }

end Sys2Proof.Machine
end

