-- ==== Sys2Proof/Machine/Codec.lean ====
section
/-! DEFINITION. The Frame Codec: its functions (R90 to R95) and the commands ENCODE and DECODE (R96, R97). -/

namespace Sys2Proof.Machine

/-- `XOR(s)`: the exclusive or of all bytes, 0x00 for the empty sequence (R9). -/
def xorAll : List Byte → Byte
  | [] => 0x00#8
  | b :: bs => b ^^^ xorAll bs

/-- `s[a..b]`, both ends included, empty when `b < a` (R9). -/
def slice (s : List Byte) (a b : Nat) : List Byte := (s.drop a).take (b + 1 - a)

/-- `Bcc(p)`: payload plus ETX (R90). -/
def bcc (p : List Byte) : Byte := xorAll p ^^^ Config.etx

/-- The frame of a payload, whatever its length (R65). -/
def frameOf (p : List Byte) : List Byte := [Config.stx] ++ p ++ [Config.etx] ++ [bcc p]

/-- `EncodeFrame(p)` (R91). -/
def encodeFrame (p : List Byte) : Except Failure (List Byte) :=
  if p.length + 3 > Config.maxFrame then .error .frameTooLarge else .ok (frameOf p)

/-- The index of the first byte equal to `b`. -/
def findByte (b : Byte) : List Byte → Option Nat
  | [] => none
  | x :: xs => if x = b then some 0 else (findByte b xs).map (· + 1)

/-- `FindStx(raw)` (R92). -/
def findStx (raw : List Byte) : Option Nat := findByte Config.stx raw

/-- `FindEtx(raw, i)`: the search starts at `i + 1` (R92). -/
def findEtx (raw : List Byte) (i : Nat) : Option Nat :=
  (findByte Config.etx (raw.drop (i + 1))).map (· + (i + 1))

/-- `Scan(raw)` (R93): `some (i, j)` is `Complete(i, j)`, `none` is `NeedMore`. -/
def scan (raw : List Byte) : Option (Nat × Nat) :=
  match findStx raw with
  | none => none
  | some i =>
    match findEtx raw i with
    | none => none
    | some j => if j + 1 ≥ raw.length then none else some (i, j)

/-- `DecodeFrame(raw)` (R94, steps 1 to 4b). -/
def decodeFrame (raw : List Byte) : Except Failure (List Byte) :=
  match findStx raw with
  | none => .error .noStartMarker
  | some i =>
    match findEtx raw i with
    | none => .error .noEndMarker
    | some j =>
      match raw[j + 1]? with
      | none => .error .checksumMismatch
      | some r =>
        if xorAll (slice raw (i + 1) j) ≠ r then .error .checksumMismatch
        else if j = i + 1 then .error .empty
        else .ok (slice raw (i + 1) (j - 1))

/-- `Truncate(p, cap)`: the first bytes (R95). -/
def truncate (p : List Byte) (cap : Nat) : List Byte := p.take cap

/-- `ENCODE` (R96). -/
def execEncode (s : State) : Host.Outcome State Fault Refusal :=
  if s.len + 3 > Config.maxFrame then .next (s.raise .frameTooLarge)
  else
    match encodeFrame (s.dinBytes s.len) with
    | .error f => .next (s.raise f)
    | .ok f => .next ((s.writeDout f).done (s.len + 3))

/-- `DECODE` (R97). -/
def execDecode (s : State) : Host.Outcome State Fault Refusal :=
  if s.len > Config.dinCap then .next (s.raise .illegalCommand)
  else
    match decodeFrame (s.dinBytes s.len) with
    | .error f => .next (s.raise f)
    | .ok r =>
      let p := truncate r (min s.cap Config.doutCap)
      .next ((s.writeDout p).done p.length)

end Sys2Proof.Machine
end

