-- ==== Sys2Proof/Machine/Session.lean ====
section
/-! DEFINITION. The functions of a Session (R117 to R128) and the commands that apply them to the direct session:
CONNECT, SENDCMD, READRSP, DISCONNECT, FLUSH (R119, R121, R123, R127, R129). -/

namespace Sys2Proof.Machine

/-! ## Connect -/

/-- Connect steps 2 to 5 (R118): validate, latch, open, answer. -/
def connectTuple (k : SessId) (cfg : Tuple) (s : State) : Run Unit :=
  if cfg.valid then
    let s := s.latch k cfg
    (callOpen k (s.session k).acfg s).bind fun a s =>
      match a with
      | .ok => .ok () (s.setSess k .opened)
      | .unavailable => .fail .portUnavailable (s.setSess k .unconfigured)
      | .rejected => .fail .configRejected (s.setSess k .unconfigured)
  else .fail .configRejected (s.setSess k .unconfigured)

/-- `Connect(S, cfg)` (R118): an open Transport is released first.  Resumed in the middle, it does the same: before
the close has returned the Session is still `Open`, after it the tuple is validated and latched again, unchanged. -/
def connect (k : SessId) (cfg : Tuple) (s : State) : Run Unit :=
  if (s.session k).state = .opened then
    (callClose k s).bind fun _ s => connectTuple k cfg (s.setSess k .closed)
  else connectTuple k cfg s

/-! ## SendCommand -/

/-- SendCommand step 3 (R120): the frame into `TXBUF`, its length into `TXLEN`. -/
def State.loadTx (f : List Byte) (s : State) : State :=
  { s with scratch := { s.scratch with txbuf := s.scratch.txbuf.writeBytes 0 f, txLen := f.length } }

/-- `TXBUF[0 .. TXLEN-1]`. -/
def State.txBytes (s : State) : List Byte := s.scratch.txbuf.readBytes 0 s.scratch.txLen

/-- `SendCommand(S, p)` for the payload `p = DIN[0 .. n-1]` (R120, R121). -/
def sendCommand (k : SessId) (n : Nat) (s : State) : Run Unit :=
  if (s.session k).state ≠ .opened then .fail .notConnected s
  else if n + 3 > Config.maxFrame then .fail .payloadTooLarge s
  else
    let s := s.loadTx (frameOf (s.dinBytes n))
    (callWrite k s.txBytes s).bind fun w s =>
      if w ≠ (s.scratch.txLen : Int) then .fail .writeIncomplete s else .ok () s

/-! ## ReadResponse -/

/-- ReadResponse steps 2 and 3 (R122): `ACCLEN <- 0; T0 <- Now()`. -/
def State.startRead (s : State) : State :=
  { s with scratch := { s.scratch with accLen := 0, t0 := s.world.now } }

/-- Milliseconds between the samples of steps 3 and 5 of the coming ReadResponse: no work takes time there (R207), so 0, or 1
where the counter steps in between (R123, log 10). -/
def State.lead (s : State) : Nat := if s.world.starts.headD false then 1 else 0

/-- ReadResponse steps 2 to 5 (R122). -/
def State.beginRead (s : State) : State :=
  let u := s.startRead.elapse s.lead
  { u with world := { u.world with starts := u.world.starts.tail, waited := 0 } }

/-- ReadResponse line 8 (R122): append a chunk to `ACC`. -/
def State.appendAcc (c : List Byte) (s : State) : State :=
  { s with
    scratch := { s.scratch with
      acc := s.scratch.acc.writeBytes s.scratch.accLen c
      accLen := s.scratch.accLen + c.length } }

/-- `ACC[0 .. ACCLEN-1]`. -/
def State.accBytes (s : State) : List Byte := s.scratch.acc.readBytes 0 s.scratch.accLen

/-- What line 10 to 14 of R122 do with the bytes accumulated: `none` when the frame is not complete. -/
def received (a : List Byte) (cap : Nat) : Option (Except Failure (List Byte)) :=
  match scan a with
  | none => none
  | some _ =>
    match decodeFrame a with
    | .ok r => some (.ok (truncate r (min cap Config.doutCap)))
    | .error .checksumMismatch => some (.error .checksumMismatch)
    | .error _ => some (.error .malformed)

/-- The largest number of bytes the next read asks for (R122 line 7). -/
def State.chunkMax (s : State) : Nat := min s.params.chunkLen (Config.accCap - s.scratch.accLen)

/-- The pending read returns, in turn `t`, and its chunk is appended to `ACC` (R122 lines 7 and 8). -/
def State.readOnce (k : SessId) (t : Turn) (rest : List Turn) (s : State) : State :=
  let u := s.beginTurn k t rest
  let r := readIn k t u.chunkMax u.params.chunkTimeoutMs u
  r.2.appendAcc r.1

/-- What follows a read, up to the next one (R122 lines 9 to 15, then 5 and 6): the end of ReadResponse, if it ends. -/
def readEnd (cap timeout : Nat) (s : State) : Option (Except Failure (List Byte)) :=
  match received s.accBytes cap with
  | some r => some r
  | none =>
    if s.scratch.accLen = Config.accCap then some (.error .malformed)
    else if elapsed s.scratch.t0 s.world.now > timeout then some (.error .timeout)
    else none

/-- ReadResponse ends in `s` as `e` says; with `none` it goes on. -/
def endRead (e : Option (Except Failure (List Byte))) (s : State) (goOn : Run (List Byte)) : Run (List Byte) :=
  match e with
  | some (.ok p) => .ok p s
  | some (.error f) => .fail f s
  | none => goOn

/-- The pending read is not answered.  It waits (log 1), but one that has lasted its whole timeout returns the empty sequence
(R114, log 12), and if ReadResponse goes on the next read is pending. -/
def readPends (k : SessId) (cap timeout : Nat) (rest : List Turn) (s : State) : Run (List Byte) :=
  if s.params.chunkTimeoutMs ≤ s.world.waited then
    let u := s.readOnce k {} rest
    endRead (readEnd cap timeout u) u (.waits u.suspend)
  else .waits (s.setTurns rest).suspend

/-- The loop of ReadResponse from line 7 on (R122), its read being pending: one iteration for each turn of the environment
that is ready.  With no turn to come, or a turn that is not ready, the read has not returned (log 1). -/
def readLoop (k : SessId) (cap timeout : Nat) : List Turn → State → Run (List Byte)
  | [], s => readPends k cap timeout [] s
  | t :: rest, s =>
    if t.ready then
      let u := s.readOnce k t rest
      endRead (readEnd cap timeout u) u (readLoop k cap timeout rest u)
    else readPends k cap timeout rest s

/-- `ReadResponse(S, cap, timeout)` (R122). -/
def readResponse (k : SessId) (cap timeout : Nat) (s : State) : Run (List Byte) :=
  if (s.session k).state ≠ .opened then .fail .notConnected s
  else
    let u := s.beginRead
    if elapsed u.scratch.t0 u.world.now > timeout then .fail .timeout u
    else readLoop k cap timeout u.world.turns u

/-- ReadResponse gone on with where it waits, in its pending read: the position in the loop is `ACCLEN`, `T0` and the clock
(R20). -/
def resumeRead (k : SessId) (cap timeout : Nat) (s : State) : Run (List Byte) :=
  readLoop k cap timeout s.world.turns s

/-! ## Disconnect and Flush -/

/-- `Disconnect(S)` (R126). -/
def disconnect (k : SessId) (s : State) : Run Unit :=
  if (s.session k).state = .opened then
    (callClose k s).bind fun _ s => .ok () (s.setSess k .closed)
  else .ok () s

/-- `Flush(S)` (R128). -/
def flushSession (k : SessId) (s : State) : Run Unit :=
  if (s.session k).state ≠ .opened then .fail .notConnected s
  else callFlush k s

/-! ## The commands -/

/-- `CONNECT` (R119). -/
def execConnect (s : State) : Host.Outcome State Fault Refusal :=
  .next (connect .direct s.tuple s).finish

/-- `SENDCMD` (R121). -/
def execSendcmd (s : State) : Host.Outcome State Fault Refusal :=
  .next (sendCommand .direct s.len s).finish

/-- `READRSP` (R123). -/
def execReadrsp (s : State) : Host.Outcome State Fault Refusal :=
  .next (readResponse .direct s.cap s.timeoutMs s).finishPayload

/-- `READRSP` gone on with. -/
def resumeReadrsp (s : State) : Host.Outcome State Fault Refusal :=
  .next (resumeRead .direct s.cap s.timeoutMs s).finishPayload

/-- `DISCONNECT` (R127). -/
def execDisconnect (s : State) : Host.Outcome State Fault Refusal :=
  .next (disconnect .direct s).finish

/-- `FLUSH` (R129). -/
def execFlush (s : State) : Host.Outcome State Fault Refusal :=
  .next (flushSession .direct s).finish

end Sys2Proof.Machine
end

