-- ==== Sys2Proof/Machine/Registry.lean ====
section
/-! DEFINITION. The Instance Registry: RCREATE, ROPEN, RCLOSE, RWRITE, RREAD, RFLUSH, RDEINIT (R140 to R149). -/

namespace Sys2Proof.Machine

/-- A registry command where `HAS_REGISTRY` is false is illegal (R74). -/
def withRegistry (s : State) (meaning : State → State) : State :=
  if s.params.hasRegistry then meaning s else s.raise .illegalCommand

/-- A command on the slot that `ARG_HANDLE` names: the handle is validated first (R141, R168). -/
def withHandle (s : State) (meaning : Nat → State → State) : State :=
  withRegistry s fun s =>
    if s.validHandle s.ops.argHandle then meaning s.ops.argHandle.toNat s else s.raise .invalidHandle

/-- The end of RCREATE after Connect succeeded on slot `h` (R143): the slot is occupied, the table grows by one slot
when `h` is the first past its end, and `RES_HANDLE` gets `h`. -/
def State.occupy (h : Nat) (s : State) : State :=
  let s := s.setOcc h true
  let s := if h = s.regSize then { s with regSize := s.regSize + 1 } else s
  s.giveHandle h

/-- The end of RCREATE (R143). -/
def finishCreate (h : Nat) (r : Run Unit) : State :=
  match r with
  | .ok _ s => (s.occupy h).done 0
  | .fail f s => s.noHandle.raise f
  | .waits s => s

/-- The end of RDEINIT after Disconnect (R149): the slot is empty and its Session `Unconfigured`. -/
def State.vacate (h : Nat) (s : State) : State :=
  (s.setSess (.slot h) .unconfigured).setOcc h false

/-- `RCREATE` (R143). -/
def execRcreate (s : State) : Host.Outcome State Fault Refusal :=
  .next <| withRegistry s fun s =>
    match s.freeSlot with
    | none => s.noHandle.raise .registryFull
    | some h => finishCreate h (connect (.slot h) s.tuple s)

/-- `ROPEN` (R144). -/
def execRopen (s : State) : Host.Outcome State Fault Refusal :=
  .next <| withHandle s fun h s => (connect (.slot h) s.tuple s).finish

/-- `RCLOSE` (R145). -/
def execRclose (s : State) : Host.Outcome State Fault Refusal :=
  .next <| withHandle s fun h s => (disconnect (.slot h) s).finish

/-- `RWRITE` (R146). -/
def execRwrite (s : State) : Host.Outcome State Fault Refusal :=
  .next <| withHandle s fun h s => (sendCommand (.slot h) s.len s).finish

/-- `RREAD` (R147). -/
def execRread (s : State) : Host.Outcome State Fault Refusal :=
  .next <| withHandle s fun h s => (readResponse (.slot h) s.cap s.timeoutMs s).finishPayload

/-- `RREAD` gone on with. -/
def resumeRread (s : State) : Host.Outcome State Fault Refusal :=
  .next <| withHandle s fun h s => (resumeRead (.slot h) s.cap s.timeoutMs s).finishPayload

/-- `RFLUSH` (R148). -/
def execRflush (s : State) : Host.Outcome State Fault Refusal :=
  .next <| withHandle s fun h s => (flushSession (.slot h) s).finish

/-- `RDEINIT` (R149). -/
def execRdeinit (s : State) : Host.Outcome State Fault Refusal :=
  .next <| withHandle s fun h s => (disconnect (.slot h) s).complete fun _ s => (s.vacate h).done 0

end Sys2Proof.Machine
end

