-- ==== Sys2Proof/Machine/Dispatch.lean ====
section
/-! DEFINITION. The dispatch: one arm per command, each one direct call of its meaning. -/

namespace Sys2Proof.Machine

def exec (i : Instr) (s : State) : Host.Outcome State Fault Refusal :=
  match i with
  | .encode => Sys2Proof.Machine.execEncode s
  | .decode => Sys2Proof.Machine.execDecode s
  | .connect => Sys2Proof.Machine.execConnect s
  | .sendcmd => Sys2Proof.Machine.execSendcmd s
  | .readrsp => Sys2Proof.Machine.execReadrsp s
  | .disconnect => Sys2Proof.Machine.execDisconnect s
  | .flush => Sys2Proof.Machine.execFlush s
  | .rcreate => Sys2Proof.Machine.execRcreate s
  | .ropen => Sys2Proof.Machine.execRopen s
  | .rclose => Sys2Proof.Machine.execRclose s
  | .rwrite => Sys2Proof.Machine.execRwrite s
  | .rread => Sys2Proof.Machine.execRread s
  | .rflush => Sys2Proof.Machine.execRflush s
  | .rdeinit => Sys2Proof.Machine.execRdeinit s

end Sys2Proof.Machine
end

