-- ==== Sys2Proof/Machine/HostPort.lean ====
section
/-! DEFINITION. The host's accesses to the register map (R41, R42, R44, R46, R47), but for the write to `CMD` that
issues a command, which is the step's. -/

namespace Sys2Proof.Machine

/-- The word registers of the register map, in the order of their offsets (R41). -/
inductive WordReg where
  | cmd
  | status
  | argLen
  | argCap
  | argTimeout
  | argHandle
  | resLen
  | resHandle
  | sessState
  | regSize
  | cfgBaud
  | cfgLine
  | cfgNameLen
deriving DecidableEq, Repr

/-- The byte buffers of the register map (R41). -/
inductive Buffer where
  | cfgName
  | din
  | dout
deriving DecidableEq, Repr

/-- What stands at an offset of the register map. -/
inductive Place where
  | word (r : WordReg)
  | insideWord
  | byte (b : Buffer) (i : Nat)
  | reserved
  | outside
deriving DecidableEq, Repr

/-- The word registers at offsets 0x000, 0x004, ..., 0x030 (R41). -/
def wordRegs : List WordReg :=
  [ .cmd, .status, .argLen, .argCap, .argTimeout, .argHandle, .resLen, .resHandle, .sessState, .regSize,
    .cfgBaud, .cfgLine, .cfgNameLen ]

/-- The register map (R41). -/
def place (off : Nat) : Place :=
  if off < 0x034 then
    if off % 4 = 0 then
      match wordRegs[off / 4]? with
      | some r => .word r
      | none => .insideWord
    else .insideWord
  else if off < 0x100 then .reserved
  else if off < 0x1FF then .byte .cfgName (off - 0x100)
  else if off < 0x400 then .reserved
  else if off < 0x800 then .byte .din (off - 0x400)
  else if off < 0xC00 then .byte .dout (off - 0x800)
  else .outside

/-- The value of a word register, the unused bits 0 (R41, R42).  While a command runs the host sees `SESS_STATE` and
`REG_SIZE` as they were before its issue and nothing in between (R48, log 6): `REG_SIZE` is written at completion only.
`free` stands for the value where the spec fixes none: a result register while a command runs (U14), a `REG_SIZE` past 32
bits (log 8). -/
def State.wordReg (s : State) (free : Word) : WordReg → Word
  | .cmd => s.cmd.setWidth 32
  | .status => statusWord s.busy s.err s.fail
  | .argLen => s.ops.argLen.setWidth 32
  | .argCap => s.ops.argCap.setWidth 32
  | .argTimeout => s.ops.argTimeout
  | .argHandle => s.ops.argHandle
  | .resLen => if s.busy then (free.extractLsb' 0 16).setWidth 32 else s.resLen.setWidth 32
  | .resHandle => if s.busy then free else s.resHandle
  | .sessState => (if s.busy then s.host.shown else s.direct.state).code.setWidth 32
  | .regSize =>
    if s.params.hasRegistry = false then 0
    else if s.regSize < 2 ^ 32 then BitVec.ofNat 32 s.regSize else free
  | .cfgBaud => s.ops.cfgBaud
  | .cfgLine => s.ops.cfgLine
  | .cfgNameLen => s.ops.cfgNameLen.setWidth 32

/-- The value of a buffer byte; `DOUT` at and above `RES_LEN`, and all of it while a command runs, is not fixed by the
spec (R28, U6, U14). -/
def State.bufferByte (s : State) (free : Word) : Buffer → Nat → Byte
  | .cfgName, i => s.cfgName i
  | .din, i => s.din i
  | .dout, i => if s.busy = false ∧ i < s.resLen.toNat then s.dout i else free.setWidth 8

/-- The value a host read returns, and one free value is used up. -/
def State.returnRead (v : Word) (s : State) : State :=
  { s with host := { s.host with rdata := v, fresh := s.host.fresh + 1 } }

/-- The free value of the next host read. -/
def State.freeNow (s : State) : Word := Config.freeWord s.host.fresh 0

/-- `R32 off` (R42, R46, R47). -/
def hostRead32 (off : Nat) (s : State) : Host.Outcome State Fault Refusal :=
  match place off with
  | .word r => .next (s.returnRead (s.wordReg s.freeNow r))
  | .reserved => if off % 4 = 0 then .next (s.returnRead 0) else .refused (.undefinedAccess off)
  | .insideWord => .refused (.undefinedAccess off)
  | .byte _ _ => .refused (.undefinedAccess off)
  | .outside => .fault (.outsideMap off)

/-- `R8 off` (R42, R46, R47). -/
def hostRead8 (off : Nat) (s : State) : Host.Outcome State Fault Refusal :=
  match place off with
  | .byte b i => .next (s.returnRead ((s.bufferByte s.freeNow b i).setWidth 32))
  | .reserved => .next (s.returnRead 0)
  | .word _ => .refused (.undefinedAccess off)
  | .insideWord => .refused (.undefinedAccess off)
  | .outside => .fault (.outsideMap off)

/-- Whether the host may write a word register (R41); a write to the others is ignored (R42). -/
def WordReg.writable : WordReg → Bool
  | .cmd | .argLen | .argCap | .argTimeout | .argHandle | .cfgBaud | .cfgLine | .cfgNameLen => true
  | .status | .resLen | .resHandle | .sessState | .regSize => false

/-- Store a word in an operand register: only the bits the register has (R42). -/
def OperandRegs.put (v : Word) (o : OperandRegs) : WordReg → OperandRegs
  | .argLen => { o with argLen := v.extractLsb' 0 16 }
  | .argCap => { o with argCap := v.extractLsb' 0 16 }
  | .argTimeout => { o with argTimeout := v }
  | .argHandle => { o with argHandle := v }
  | .cfgBaud => { o with cfgBaud := v }
  | .cfgLine => { o with cfgLine := v }
  | .cfgNameLen => { o with cfgNameLen := v.extractLsb' 0 8 }
  | .cmd | .status | .resLen | .resHandle | .sessState | .regSize => o

/-- `W32 off <- v` for every offset but that of `CMD` (R42, R46, R47; R205, U14 while a command runs). -/
def hostWrite32 (off : Nat) (v : Word) (s : State) : Host.Outcome State Fault Refusal :=
  match place off with
  | .word r =>
    if r.writable then
      if s.busy then .refused (.operandWriteWhileBusy off)
      else .next { s with ops := s.ops.put v r }
    else .next s
  | .reserved => if off % 4 = 0 then .next s else .refused (.undefinedAccess off)
  | .insideWord => .refused (.undefinedAccess off)
  | .byte _ _ => .refused (.undefinedAccess off)
  | .outside => .fault (.outsideMap off)

/-- `W8 off <- v` (R42, R46, R47; R205, U14 while a command runs). -/
def hostWrite8 (off : Nat) (v : Byte) (s : State) : Host.Outcome State Fault Refusal :=
  match place off with
  | .byte .dout _ => .next s
  | .byte .cfgName _ =>
    if s.busy then .refused (.operandWriteWhileBusy off) else .next { s with mem := s.mem.write off v }
  | .byte .din _ =>
    if s.busy then .refused (.operandWriteWhileBusy off) else .next { s with mem := s.mem.write off v }
  | .reserved => .next s
  | .word _ => .refused (.undefinedAccess off)
  | .insideWord => .refused (.undefinedAccess off)
  | .outside => .fault (.outsideMap off)

/-- One byte of a word register seen as four bytes: the lowest offset holds bits [7:0] (R44). -/
def wordByte (v : Word) (i : Nat) : Byte := v.extractLsb' (8 * i) 8

/-- "poll": read `STATUS`; while `BUSY` is 1 the host will read it again. -/
def hostPoll (s : State) : State :=
  let s' := s.returnRead (statusWord s.busy s.err s.fail)
  if s.busy then { s' with host := { s'.host with queue := .poll :: s'.host.queue } } else s'

/-- A READRSP or RREAD runs: wherever the host may act, its `T.read` is pending (R48, R122). -/
def State.reading (s : State) : Bool :=
  s.busy && (decodeOpcode s.cmd == .command .readrsp || decodeOpcode s.cmd == .command .rread)

/-- Milliseconds pass (R116).  A pending `T.read` counts them, and only until its timeout is used up: then it returns (R114)
and the block acts, in no time (R207), before the rest of them pass. -/
def hostElapse (ms : Nat) (s : State) : State :=
  if s.reading then
    let m := min ms (s.params.chunkTimeoutMs - s.world.waited)
    let s := s.elapse m
    let s := { s with world := { s.world with waited := s.world.waited + m } }
    if m < ms then { s with host := { s.host with queue := .elapse (ms - m) :: s.host.queue } } else s
  else s.elapse ms

/-- The host's branch on `STATUS.FAIL` (R79). -/
def hostSkip (codes : List Failure) (n : Nat) (s : State) : State :=
  if s.fail ∈ codes then s else { s with host := { s.host with queue := s.host.queue.drop n } }

end Sys2Proof.Machine
end

