-- ==== Sys2Proof/Machine/Step.lean ====
section
/-! DEFINITION. One step of the machine: the host's next act, or the running command going on. -/

namespace Sys2Proof.Machine

/-- The write to `CMD` while idle (R47): issue, decode, and run the command; an unknown opcode is an illegal command
(R74). -/
def runWord (w : Word) (s : State) : Host.Outcome State Fault Refusal :=
  match decode w with
  | .command i => exec i (s.issue w)
  | .illegalOpcode _ => .next ((s.issue w).raise .illegalCommand)

/-- A running command goes on from where it waited.  Only the loop of ReadResponse has a position of its own (R20);
every other command waits before its Transport call has any effect and is run again from its operands, which the host
may not have changed (R54, log 1). -/
def resume (s : State) : Host.Outcome State Fault Refusal :=
  match decodeOpcode s.cmd with
  | .command .readrsp => resumeReadrsp s
  | .command .rread => resumeRread s
  | .command i => exec i s
  | .illegalOpcode _ => .next (s.raise .illegalCommand)

/-- One act of the host or the platform, already taken from the queue. -/
def hostAct (a : HostAct) (s : State) : Host.Outcome State Fault Refusal :=
  match a with
  | .read32 off => hostRead32 off s
  | .read8 off => hostRead8 off s
  | .write32 off v =>
    if off = 0 then
      if s.busy then .refused .cmdWhileBusy else runWord v s
    else hostWrite32 off v s
  | .write8 off v => hostWrite8 off v s
  | .poll => .next (hostPoll s)
  | .skipUnless codes n => .next (hostSkip codes n s)
  | .reset => .next s.afterReset
  | .elapse ms => .next (hostElapse ms s)

/-- The host's next act; with none the host does nothing. -/
def hostTurn (otherwise : State → Host.Outcome State Fault Refusal) (s : State) :
    Host.Outcome State Fault Refusal :=
  match s.host.queue with
  | [] => otherwise s
  | a :: rest => hostAct a { s with host := { s.host with queue := rest, yielded := false } }

/-- One step.  Idle, the block waits for the host (R191).  While a command runs the sequencer goes on with it, but
where a Transport call has not returned yet the host acts once first (R48, log 1). -/
def step (s : State) : Host.Outcome State Fault Refusal :=
  if s.busy then
    if s.host.yielded then hostTurn resume s else resume s
  else hostTurn .next s

/-- The state in which the very next step is the host's write of `w` to `CMD` (log 1). -/
def State.withFetchWord (s : State) (nbits w : Nat) : State :=
  { s with
    busy := false
    host := { s.host with
      queue := .write32 0x000 (BitVec.ofNat 32 (w % 2 ^ nbits)) :: s.host.queue
      yielded := false } }

end Sys2Proof.Machine
end

