-- ==== Sys2Proof/Machine/HostProgram.lean ====
section
/-! DEFINITION. The written form of commands (R78) as the host accesses it stands for, and the pseudo-commands
EXCHANGE and EXCHANGE_RETRY (R79), which are host software. -/

namespace Sys2Proof.Machine

/-- The operands of a written command that names a configuration (R78). -/
structure WrittenCfg where
  name   : List Byte
  baud   : Word
  data   : BitVec 4
  stop   : BitVec 2
  parity : Byte
  rts    : Bool
  dtr    : Bool
deriving DecidableEq, Repr

/-- The layout of `CFG_LINE` (R75), the reserved bits 0. -/
def WrittenCfg.line (c : WrittenCfg) : Word :=
  0#8 ++ c.parity ++ 0#6 ++ BitVec.ofBool c.dtr ++ BitVec.ofBool c.rts ++ 0#2 ++ c.stop ++ c.data

/-- A written command (R78). -/
inductive Written where
  | encode (din : List Byte)
  | decode (din : List Byte) (cap : Half)
  | connect (cfg : WrittenCfg)
  | sendcmd (din : List Byte)
  | readrsp (cap : Half) (timeout : Word)
  | disconnect
  | flush
  | rcreate (cfg : WrittenCfg)
  | ropen (h : Word) (cfg : WrittenCfg)
  | rclose (h : Word)
  | rwrite (h : Word) (din : List Byte)
  | rread (h : Word) (cap : Half) (timeout : Word)
  | rflush (h : Word)
  | rdeinit (h : Word)
deriving DecidableEq, Repr

/-- Byte writes to consecutive offsets. -/
def writesFrom : Nat → List Byte → List HostAct
  | _, [] => []
  | off, b :: bs => .write8 off b :: writesFrom (off + 1) bs

/-- `din=<bytes>`: `DIN[0..]` and `ARG_LEN` (R78). -/
def dinWrites (bs : List Byte) : List HostAct :=
  writesFrom dinBase bs ++ [.write32 0x008 (BitVec.ofNat 32 bs.length)]

/-- The configuration registers (R75, R78). -/
def cfgWrites (c : WrittenCfg) : List HostAct :=
  [ .write32 0x028 c.baud, .write32 0x02C c.line, .write32 0x030 (BitVec.ofNat 32 c.name.length) ] ++
    writesFrom nameBase c.name

/-- `h=<handle>`. -/
def handleWrite (h : Word) : List HostAct := [.write32 0x014 h]

/-- `cap=<n>`. -/
def capWrite (n : Half) : List HostAct := [.write32 0x00C (n.setWidth 32)]

/-- `timeout=<ms>`. -/
def timeoutWrite (ms : Word) : List HostAct := [.write32 0x010 ms]

/-- Issue a command and poll for its completion. -/
def issueAndPoll (i : Instr) : List HostAct := [.write32 0x000 (encode i), .poll]

/-- The accesses a written command stands for: the register writes that precede the write to `CMD`, that write, and the
poll (R78). -/
def Written.accesses : Written → List HostAct
  | .encode d => dinWrites d ++ issueAndPoll .encode
  | .decode d n => dinWrites d ++ capWrite n ++ issueAndPoll .decode
  | .connect c => cfgWrites c ++ issueAndPoll .connect
  | .sendcmd d => dinWrites d ++ issueAndPoll .sendcmd
  | .readrsp n ms => capWrite n ++ timeoutWrite ms ++ issueAndPoll .readrsp
  | .disconnect => issueAndPoll .disconnect
  | .flush => issueAndPoll .flush
  | .rcreate c => cfgWrites c ++ issueAndPoll .rcreate
  | .ropen h c => handleWrite h ++ cfgWrites c ++ issueAndPoll .ropen
  | .rclose h => handleWrite h ++ issueAndPoll .rclose
  | .rwrite h d => handleWrite h ++ dinWrites d ++ issueAndPoll .rwrite
  | .rread h n ms => handleWrite h ++ capWrite n ++ timeoutWrite ms ++ issueAndPoll .rread
  | .rflush h => handleWrite h ++ issueAndPoll .rflush
  | .rdeinit h => handleWrite h ++ issueAndPoll .rdeinit

/-- `EXCHANGE din=<bytes> cap=<n> timeout=<ms>`: SENDCMD, and READRSP only if it completed with `None` (R79). -/
def exchange (din : List Byte) (cap : Half) (timeout : Word) : List HostAct :=
  let receive := (Written.readrsp cap timeout).accesses
  (Written.sendcmd din).accesses ++ [.skipUnless [.none] receive.length] ++ receive

/-- `EXCHANGE_RETRY k ...`: up to `k` repetitions, stopping at the first whose result is not `Timeout` (R79). -/
def exchangeRetry (din : List Byte) (cap : Half) (timeout : Word) : Nat → List HostAct
  | 0 => []
  | k + 1 =>
    let again := exchangeRetry din cap timeout k
    exchange din cap timeout ++ [.skipUnless [.timeout] again.length] ++ again

end Sys2Proof.Machine
end

