-- ==== Sys2Proof/Safety.lean ====
section
/-! DEFINITION. The terms claims are stated in: the invariant of the block (R24, R27, R36), which Session a command
addresses, what a command leaves alone, which failures it may report (R161), the table of Connect (R130). -/

namespace Sys2Proof.Machine

/-! ## The invariant -/

/-- A Session holds an open Transport exactly when its `STATE` is `Open` (R24). -/
def Session.sound (x : Session) : Prop := x.transport.held = true ↔ x.state = .opened

/-- The Session in which the running command may have left `Configured` in the middle of Connect (R23, R118): that of a
CONNECT, RCREATE or ROPEN in progress. -/
def State.connecting (s : State) : Option SessId :=
  if s.busy then
    match decodeOpcode s.cmd with
    | .command .connect => some .direct
    | .command .rcreate => if s.params.hasRegistry then s.freeSlot.map .slot else none
    | .command .ropen =>
      if s.params.hasRegistry && s.validHandle s.ops.argHandle then some (.slot s.ops.argHandle.toNat) else none
    | _ => none
  else none

/-- The invariant of the block (R36), with what it is between the issue and the completion of a command. -/
structure State.Inv (s : State) : Prop where
  /-- The memories are in canonical form. -/
  memWf : s.mem.wf = true
  txbufWf : s.scratch.txbuf.wf = true
  accWf : s.scratch.acc.wf = true
  /-- `STATUS.ERR = Translate(STATUS.FAIL)`. -/
  errTranslates : s.err = Failure.translate s.fail
  /-- `STATUS.FAIL != None` implies `RES_LEN = 0`. -/
  failNoBytes : s.fail ≠ .none → s.resLen = 0
  /-- `RES_LEN <= DOUT_CAP`. -/
  resFits : s.resLen.toNat ≤ Config.doutCap
  /-- `TXLEN <= MAX_FRAME` and `ACCLEN <= ACC_CAP`. -/
  txFits : s.scratch.txLen ≤ Config.maxFrame
  accFits : s.scratch.accLen ≤ Config.accCap
  /-- `REG_SIZE <= NSLOTS_MAX`. -/
  tableFits : fits s.regSize s.params.nslotsMax = true
  /-- `OCC[h] = 0` for all `h >= REG_SIZE`. -/
  occBelow : ∀ h, s.regSize ≤ h → (slotAt s.slots h).occ = false
  /-- R24 for every Session. -/
  sound : ∀ k, (s.session k).sound
  /-- No Session is `Configured`, but the one a running command is connecting. -/
  settled : ∀ k, (s.session k).state = .configured → s.connecting = some k
  /-- `OCC[h] = 0` implies that slot `h` is `Unconfigured`, or `Configured` while RCREATE connects it. -/
  emptySlots : ∀ h, (slotAt s.slots h).occ = false →
    (s.session (.slot h)).state = .unconfigured ∨ (s.session (.slot h)).state = .configured
  /-- What the host sees of the direct session while a command runs (R48): its `STATE`, but for a CONNECT in progress. -/
  shownDirect : s.busy = true → s.connecting ≠ some .direct → s.host.shown = s.direct.state
  /-- The host never sees `Configured` (R23, R118). -/
  shownSettled : s.busy = true → s.host.shown ≠ .configured

/-! ## What a command addresses and leaves alone -/

/-- Command `i` in state `s` acts on the Session `k`: the direct one, or that of a valid handle (R119 to R129, R144 to
R149). -/
def Addresses (i : Instr) (s : State) (k : SessId) : Prop :=
  match i with
  | .connect | .sendcmd | .readrsp | .disconnect | .flush => k = .direct
  | .ropen | .rclose | .rwrite | .rread | .rflush | .rdeinit =>
    s.params.hasRegistry = true ∧ s.validHandle s.ops.argHandle = true ∧ k = .slot s.ops.argHandle.toNat
  | .encode | .decode | .rcreate => False

/-- What every command on the Session `k` leaves unchanged: the parameters, `CMD`, the operand registers, `RES_HANDLE`,
the size and occupation of the registry, every other Session, and the host's side. -/
structure LeavesAlone (k : SessId) (s u : State) : Prop where
  params : u.params = s.params
  cmd : u.cmd = s.cmd
  ops : u.ops = s.ops
  resHandle : u.resHandle = s.resHandle
  regSize : u.regSize = s.regSize
  occ : ∀ h, (slotAt u.slots h).occ = (slotAt s.slots h).occ
  others : ∀ j, j ≠ k → u.session j = s.session j
  host : u.host = s.host

/-- No Transport call returns now: no turn of the environment is to come, or the next one is not ready (log 1). -/
def Blocked (turns : List Turn) : Prop := turns = [] ∨ ∃ t rest, turns = t :: rest ∧ t.ready = false

/-- The command that runs in `s` is still in progress in `u`: nothing is reported, DOUT and the table are as before, and the
host may act (R48, R53). -/
structure StillRunning (s u : State) : Prop where
  busy : u.busy = true
  fail : u.fail = s.fail
  err : u.err = s.err
  resLen : u.resLen = s.resLen
  resHandle : u.resHandle = s.resHandle
  mem : u.mem = s.mem
  regSize : u.regSize = s.regSize
  occ : ∀ h, (slotAt u.slots h).occ = (slotAt s.slots h).occ
  params : u.params = s.params
  cmd : u.cmd = s.cmd
  ops : u.ops = s.ops
  host : u.host = { s.host with yielded := true }

/-- The host's 32-bit read at `off` completes and returns `v`. -/
def ReadsWord (off : Nat) (s : State) (v : Word) : Prop :=
  ∃ u, hostAct (.read32 off) s = .next u ∧ u.host.rdata = v

/-- The command is complete with outcome `f` and `n` result bytes (R171, R172). -/
structure Completed (u : State) (f : Failure) (n : Nat) : Prop where
  notBusy : u.busy = false
  fail : u.fail = f
  err : u.err = Failure.translate f
  resLen : u.resLen.toNat = n

/-- The Transport calls made between `s` and `u`, all on the Session `k`, oldest first. -/
def Calls (k : SessId) (s u : State) (calls : List Call) : Prop :=
  u.world.log = (calls.map (fun c => (k, c))).reverse ++ s.world.log

/-! ## The failures of each command -/

/-- The failures a command may report (R161), `IllegalCommand` for an absent registry included (R74). -/
def failuresOf : Instr → List Failure
  | .encode => [.frameTooLarge]
  | .decode => [.illegalCommand, .noStartMarker, .noEndMarker, .checksumMismatch, .empty]
  | .connect => [.configRejected, .portUnavailable]
  | .sendcmd => [.notConnected, .payloadTooLarge, .writeIncomplete]
  | .readrsp => [.notConnected, .timeout, .checksumMismatch, .malformed]
  | .disconnect => []
  | .flush => [.notConnected]
  | .rcreate => [.illegalCommand, .registryFull, .configRejected, .portUnavailable]
  | .ropen => [.illegalCommand, .invalidHandle, .configRejected, .portUnavailable]
  | .rclose => [.illegalCommand, .invalidHandle]
  | .rwrite => [.illegalCommand, .invalidHandle, .notConnected, .payloadTooLarge, .writeIncomplete]
  | .rread => [.illegalCommand, .invalidHandle, .notConnected, .timeout, .checksumMismatch, .malformed]
  | .rflush => [.illegalCommand, .invalidHandle, .notConnected]
  | .rdeinit => [.illegalCommand, .invalidHandle]

/-! ## The rows of Connect -/

/-- A row of the table of R130: the Transport calls in order, the state after, the result, and the turns of the
environment that are left. -/
structure ConnectRow where
  calls : List Call
  after : SessState
  result : Failure
  turns : List Turn

/-- The rows of R130 for Connect in a Session that is not open. -/
def openRow (cfg : Tuple) (turns : List Turn) : Option ConnectRow :=
  if cfg.valid then
    match turns with
    | [] => none
    | t :: rest =>
      if t.ready then
        match t.answer with
        | .ok => some ⟨[.openPort cfg .ok], .opened, .none, rest⟩
        | .unavailable => some ⟨[.openPort cfg .unavailable], .unconfigured, .portUnavailable, rest⟩
        | .rejected => some ⟨[.openPort cfg .rejected], .unconfigured, .configRejected, rest⟩
      else none
  else some ⟨[], .unconfigured, .configRejected, turns⟩

/-- The rows of R130 for Connect: an open Session is closed first. `none`: a Transport call does not return yet. -/
def connectRow (before : SessState) (cfg : Tuple) (turns : List Turn) : Option ConnectRow :=
  if before = .opened then
    match turns with
    | [] => none
    | t :: rest =>
      if t.ready then
        (openRow cfg rest).map fun r => { r with calls := .closePort :: r.calls }
      else none
  else openRow cfg turns

/-! ## Reads of a ReadResponse -/

/-- The bytes the reads among some calls returned, the calls being newest first. -/
def gotBytes : List (SessId × Call) → List Byte
  | [] => []
  | (_, .read _ _ got _) :: rest => gotBytes rest ++ got
  | _ :: rest => gotBytes rest

/-- A read that returned nothing lasted its whole timeout (R125). -/
def Call.lastsIfEmpty : Call → Prop
  | .read _ ms got lasted => got = [] → lasted = ms
  | _ => True

/-- The milliseconds the `T.read` of timeout `ms` lasts that turn `t` answers (R114). -/
def Turn.time (ms : Nat) (t : Turn) : Nat := min t.lasts ms

/-- The milliseconds the reads last that these turns answer. -/
def State.readTime (s : State) (ts : List Turn) : Nat := (ts.map (Turn.time s.params.chunkTimeoutMs)).sum

/-- The receive stream of a Session while a ReadResponse reads it, one read of at most `chunk` bytes in each turn: the bytes
taken so far, and those not yet taken (R33 a, R114, R122 line 7).  Before each read the Transport may lose bytes (U5) and
bytes may arrive. -/
def streamAfter (chunk : Nat) : List Turn → List Byte × List Byte → List Byte × List Byte
  | [], x => x
  | t :: ts, x =>
    let coming := keepBy t.keep x.2 ++ t.arrive
    let n := min t.take (min chunk (Config.accCap - x.1.length))
    streamAfter chunk ts (x.1 ++ coming.take n, coming.drop n)

/-- What a ReadResponse on the Session `k` has taken from its receive stream, and what it has left in it, after the reads
that these turns answer. -/
def State.receives (s : State) (k : SessId) (ts : List Turn) : List Byte × List Byte :=
  streamAfter s.params.chunkLen ts ([], (s.session k).transport.unread)

/-- A ReadResponse in progress is in time (R122 line 6, R124 c): its pending `T.read` has not waited longer than its timeout,
and that read began when no more than `ARG_TIMEOUT` had elapsed. -/
structure State.InTime (s : State) : Prop where
  waited : s.world.waited ≤ s.params.chunkTimeoutMs
  begun : elapsed s.scratch.t0 s.world.now ≤ s.timeoutMs + s.world.waited

end Sys2Proof.Machine
end

