-- ==== Sys2Proof/Certificates/Slice0/Obligations.lean ====
section
/-! DEFINITION. The statements about the block, from the numbered rules of the spec, for the provers. -/

open Sys2Proof Sys2Proof.Machine

/-! ## Reset and the invariant -/

/-- R35: the values the spec gives after reset. -/
def Obligations.ResetHoldsTheValuesOfTheSpec : Prop :=
  State.reset.busy = false ∧ State.reset.fail = .none ∧ State.reset.err = .none ∧ State.reset.cmd = 0x00#8 ∧
  State.reset.ops.argLen = 0 ∧ State.reset.ops.argCap = 0 ∧ State.reset.ops.argTimeout = 0 ∧
  State.reset.ops.argHandle = 0 ∧ State.reset.resLen = 0 ∧ State.reset.resHandle.toInt = -1 ∧
  State.reset.ops.cfgBaud = 0 ∧ State.reset.ops.cfgLine = 0 ∧ State.reset.ops.cfgNameLen = 0 ∧
  State.reset.scratch.txLen = 0 ∧ State.reset.scratch.accLen = 0 ∧ State.reset.regSize = 0 ∧
  (∀ h, (slotAt State.reset.slots h).occ = false) ∧
  (∀ k, (State.reset.session k).state = .unconfigured) ∧
  (∀ k, (State.reset.session k).transport.held = false)

/-- R36, R24, R27: the state after reset meets the invariant. -/
def Obligations.ResetMeetsTheInvariant : Prop := State.reset.Inv

/-- R36, R24, R27: every step from a state that meets the invariant, reachable or not, gives one that meets it. -/
def Obligations.StepKeepsTheInvariant : Prop :=
  ∀ s t : State, s.Inv → step s = .next t → t.Inv

/-- R35, R191, R192: a reset asserted in any state leaves the values of R35, releases every open Transport with one
`T.close` each, and leaves the parameters and the clock alone (the last is the model's choice, log 19). -/
def Obligations.ResetReleasesEveryTransport : Prop :=
  ∀ s : State, ∃ t, hostAct .reset s = .next t ∧
    Completed t .none 0 ∧ t.cmd = 0x00#8 ∧ t.ops = .atReset ∧ t.resHandle.toInt = -1 ∧
    t.scratch.txLen = 0 ∧ t.scratch.accLen = 0 ∧ t.regSize = 0 ∧
    (∀ h, (slotAt t.slots h).occ = false) ∧
    (∀ k, (t.session k).state = .unconfigured) ∧
    (∀ k, (s.session k).sound → (t.session k).transport.held = false) ∧
    (∃ closes, t.world.log = closes ++ s.world.log ∧ closes.Nodup ∧
      ∀ k c, (k, c) ∈ closes ↔ c = .closePort ∧ (s.session k).state = .opened) ∧
    t.world.now = s.world.now ∧ t.params = s.params

/-! ## Decoding and the step -/

/-- R72, R71: the fourteen opcodes, whatever bits [31:8] are; the high nibble of an opcode is the family of its command,
1 codec, 2 session, 3 registry. -/
def Obligations.OpcodeMapDecodes : Prop :=
  (∀ i : Instr,
    (i.family = .codec ↔ i.opcode.extractLsb' 4 4 = 1#4) ∧ (i.family = .session ↔ i.opcode.extractLsb' 4 4 = 2#4) ∧
    (i.family = .registry ↔ i.opcode.extractLsb' 4 4 = 3#4)) ∧
  ∀ hi : BitVec 24,
    decode (hi ++ 0x10#8) = .command .encode ∧ decode (hi ++ 0x11#8) = .command .decode ∧
    decode (hi ++ 0x20#8) = .command .connect ∧ decode (hi ++ 0x21#8) = .command .sendcmd ∧
    decode (hi ++ 0x22#8) = .command .readrsp ∧ decode (hi ++ 0x23#8) = .command .disconnect ∧
    decode (hi ++ 0x24#8) = .command .flush ∧ decode (hi ++ 0x30#8) = .command .rcreate ∧
    decode (hi ++ 0x31#8) = .command .ropen ∧ decode (hi ++ 0x32#8) = .command .rclose ∧
    decode (hi ++ 0x33#8) = .command .rwrite ∧ decode (hi ++ 0x34#8) = .command .rread ∧
    decode (hi ++ 0x35#8) = .command .rflush ∧ decode (hi ++ 0x36#8) = .command .rdeinit

/-- The encoder and the decoder agree on every command, and no word with another opcode byte decodes to it. -/
def Obligations.DecodeReadsWhatEncodeWrites : Prop :=
  (∀ i, decode (encode i) = .command i ∧ cmdWordWf (encode i) = true) ∧
  (∀ w i, decode w = .command i → opcodeOf w = i.opcode)

/-- The host's write of a command word while the block is idle runs the command, in one step (the model's choice, log 1):
`CMD` holds the opcode, `BUSY` is 1, what the host sees of the direct session is latched (log 6), and then the command's
meaning is applied. -/
def Obligations.StepRunsTheDecodedCommand : Prop :=
  ∀ (s : State) (w : Word) (i : Instr) (rest : List HostAct),
    s.busy = false → s.host.queue = .write32 0x000 w :: rest → decode w = .command i →
    step s = exec i { s with
      cmd := w.extractLsb' 0 8, busy := true
      host := { s.host with queue := rest, yielded := false, shown := s.direct.state } }

/-- R74: an opcode outside the map, a registry opcode without the registry, and a DECODE that names bytes DIN does not
have complete with `IllegalCommand`, no Transport call and no other change. -/
def Obligations.IllegalCommandsChangeNothing : Prop :=
  (∀ (s : State) (w : Word) (rest : List HostAct),
    s.busy = false → s.host.queue = .write32 0x000 w :: rest → (∀ i : Instr, w.extractLsb' 0 8 ≠ i.opcode) →
    step s = .next { s with
      cmd := w.extractLsb' 0 8, busy := false, fail := .illegalCommand, err := .invalidFormat, resLen := 0
      host := { s.host with queue := rest, yielded := false, shown := s.direct.state } }) ∧
  (∀ (s : State) (i : Instr), i.family = .registry → s.params.hasRegistry = false →
    exec i s = .next { s with busy := false, fail := .illegalCommand, err := .invalidFormat, resLen := 0 }) ∧
  (∀ s : State, s.len > Config.dinCap →
    exec .decode s = .next { s with busy := false, fail := .illegalCommand, err := .invalidFormat, resLen := 0 })

/-- R36, R48, U18: while a Transport call of a command has not returned, whichever of its calls it is and however often the
command is gone on with, it stays in progress: nothing is reported, no call is recorded, and the host may act (that a wait is
a step of its own is the model's choice, log 1).  The clauses after the first say when a command waits and where: at its
first call on an open Session; at the open of Connect, in a Session that was not open or after the close has returned; and
in a read of ReadResponse after some reads have returned.  That every Session, its Transport's streams included, is as the
calls that have returned left it while the next has not returned is the model's choice too: log 7 (a call has its effect on
the Transport when it returns) and log 12 (a turn that is not ready moves nothing). -/
def Obligations.WaitingCommandStaysInProgress : Prop :=
  (∀ (s u : State) (i : Instr), (exec i s = .next u ∨ s.busy = true ∧ resume s = .next u) → u.busy = true →
    StillRunning s u) ∧
  (∀ (s : State) (k : SessId) (i : Instr), Addresses i s k → (s.session k).state = .opened → Blocked s.world.turns →
    ((i = .sendcmd ∨ i = .rwrite) → s.len + 3 ≤ Config.maxFrame) →
    ((i = .readrsp ∨ i = .rread) → s.lead ≤ s.timeoutMs) →
    ∃ u, exec i s = .next u ∧ u.busy = true ∧ (∀ j, u.session j = s.session j) ∧ u.world.log = s.world.log) ∧
  (∀ (s : State) (k : SessId) (i : Instr), (s.session k).state ≠ .opened → s.tuple.valid = true →
    (Addresses i s k ∧ (i = .connect ∨ i = .ropen) ∨
      i = .rcreate ∧ s.params.hasRegistry = true ∧ s.freeSlot.map .slot = some k) →
    Blocked s.world.turns →
    ∃ u, exec i s = .next u ∧ u.busy = true ∧
      u.session k = { s.session k with acfg := s.tuple, state := .configured } ∧
      (∀ j, j ≠ k → u.session j = s.session j) ∧ u.world.log = s.world.log) ∧
  (∀ (s : State) (k : SessId) (i : Instr) (t : Turn) (rest : List Turn), Addresses i s k → (i = .connect ∨ i = .ropen) →
    (s.session k).state = .opened → s.tuple.valid = true →
    s.world.turns = t :: rest → t.ready = true → Blocked rest →
    ∃ u, exec i s = .next u ∧ u.busy = true ∧ (u.session k).state = .configured ∧ (u.session k).acfg = s.tuple ∧
      (u.session k).transport.held = false ∧ (∀ j, j ≠ k → u.session j = s.session j) ∧ Calls k s u [.closePort]) ∧
  (∀ (s : State) (k : SessId) (i : Instr) (ts more : List Turn),
    Addresses i s k → (i = .readrsp ∨ i = .rread) → (s.session k).state = .opened →
    s.world.turns = ts ++ more → (∀ t ∈ ts, t.ready = true) → Blocked more →
    scan (s.receives k ts).1 = none → (s.receives k ts).1.length < Config.accCap →
    s.lead + s.readTime ts ≤ s.timeoutMs →
    ∃ u calls, exec i s = .next u ∧ u.busy = true ∧ u.accBytes = (s.receives k ts).1 ∧ u.scratch.t0 = s.world.now ∧
      u.world.log = calls ++ s.world.log ∧ calls.length = ts.length ∧ gotBytes calls = (s.receives k ts).1 ∧
      (u.session k).transport.unread = (s.receives k ts).2 ∧ (u.session k).state = .opened ∧
      ∀ j, j ≠ k → u.session j = s.session j)

/-- A command that waits and goes on when its Transport calls have returned ends as it would have ended without the wait:
that the host may act meanwhile (log 1) changes nothing of what the command does. -/
def Obligations.WaitingCommandGoesOn : Prop :=
  ∀ (s u v : State) (i : Instr) (ts more : List Turn), s.scratch.txbuf.wf = true → s.cmd = i.opcode →
    s.world.turns = ts ++ more → (∀ t ∈ ts, t.ready = true) →
    exec i { s with world := { s.world with turns := ts } } = .next u → u.busy = true →
    exec i s = .next v →
    ∃ w, resume { u with world := { u.world with turns := more } } = .next w ∧ v = { w with host := v.host }

/-! ## The Frame Codec -/

/-- R90: the block check character covers payload plus ETX; on reception it is the XOR from after STX through ETX. -/
def Obligations.BccCoversPayloadAndEtx : Prop :=
  (∀ p, bcc p = xorAll p ^^^ 0x03#8) ∧ bcc [] = 0x03#8 ∧ bcc [0x56#8] = 0x55#8 ∧
  (∀ (raw : List Byte) (i j : Nat), raw[i]? = some 0x02#8 → i < j → raw[j]? = some 0x03#8 →
    xorAll (slice raw (i + 1) j) = bcc (slice raw (i + 1) (j - 1)))

/-- The BCC does not depend on the order of the payload bytes, and one changed payload byte changes it. -/
def Obligations.BccIgnoresOrderAndSeesOneByte : Prop :=
  (∀ p q : List Byte, p.Perm q → bcc p = bcc q) ∧
  (∀ (p q : List Byte) (a b : Byte), a ≠ b → bcc (p ++ a :: q) ≠ bcc (p ++ b :: q))

/-- R92: `FindStx` is the least index of a 0x02, `FindEtx` the least index above it of a 0x03, or none. -/
def Obligations.MarkersAreTheLeastIndices : Prop :=
  (∀ raw i, findStx raw = some i ↔
    raw[i]? = some 0x02#8 ∧ ∀ k, k < i → raw[k]? ≠ some 0x02#8) ∧
  (∀ raw, findStx raw = none ↔ 0x02#8 ∉ raw) ∧
  (∀ raw i j, findEtx raw i = some j ↔
    i < j ∧ raw[j]? = some 0x03#8 ∧ ∀ k, i < k → k < j → raw[k]? ≠ some 0x03#8) ∧
  (∀ raw i, findEtx raw i = none ↔ ∀ k, i < k → raw[k]? ≠ some 0x03#8)

/-- R100: the marker laws. -/
def Obligations.MissingMarkersFail : Prop :=
  (∀ raw : List Byte, 0x02#8 ∉ raw → decodeFrame raw = .error .noStartMarker) ∧
  (∀ (raw : List Byte) (i : Nat), raw[i]? = some 0x02#8 → (∀ k, k < i → raw[k]? ≠ some 0x02#8) →
    (∀ k, i < k → raw[k]? ≠ some 0x03#8) → decodeFrame raw = .error .noEndMarker)

/-- The laws of R93: appending never changes a complete scan, and a buffer that needs more fails for lack of data. -/
def Obligations.ScanIsStable : Prop :=
  (∀ raw tail i j, scan raw = some (i, j) → scan (raw ++ tail) = some (i, j)) ∧
  (∀ raw, scan raw = none →
    decodeFrame raw = .error .noStartMarker ∨ decodeFrame raw = .error .noEndMarker ∨
      decodeFrame raw = .error .checksumMismatch)

/-- R98: the round trip, and what happens outside it. -/
def Obligations.FrameRoundTrip : Prop :=
  (∀ p : List Byte, 1 ≤ p.length → p.length + 3 ≤ Config.maxFrame → 0x03#8 ∉ p →
    ∃ f, encodeFrame p = .ok f ∧ decodeFrame f = .ok p) ∧
  (∀ (p : List Byte) (k : Nat) (f : List Byte), encodeFrame p = .ok f →
    p[k]? = some 0x03#8 → (∀ m, m < k → p[m]? ≠ some 0x03#8) →
    decodeFrame f =
      if xorAll (p.take k) ^^^ 0x03#8 ≠ (p[k + 1]?).getD 0x03#8 then .error .checksumMismatch
      else if k = 0 then .error .empty
      else .ok (p.take k)) ∧
  (∃ f, encodeFrame [] = .ok f ∧ decodeFrame f = .error .empty)

/-- R99: one flipped bit of the byte at index `k` of a valid frame, row by row. -/
def Obligations.FlippedBitIsNeverTheSamePayload : Prop :=
  ∀ (p f : List Byte) (k b : Nat) (x : Byte), 1 ≤ p.length → 0x03#8 ∉ p → encodeFrame p = .ok f →
    f[k]? = some x → b < 8 →
    let y := x ^^^ BitVec.twoPow 8 b
    let f' := f.set k y
    decodeFrame f' ≠ .ok p ∧
    (1 ≤ k → k ≤ p.length → y ≠ 0x03#8 → decodeFrame f' = .error .checksumMismatch) ∧
    (1 ≤ k → k ≤ p.length → y = 0x03#8 →
      decodeFrame f' =
        if xorAll (p.take (k - 1)) ^^^ 0x03#8 ≠ (f[k + 1]?).getD 0 then .error .checksumMismatch
        else if k = 1 then .error .empty
        else .ok (p.take (k - 1))) ∧
    (k = p.length + 1 → bcc p ≠ 0x03#8 → decodeFrame f' = .error .noEndMarker) ∧
    (k = p.length + 1 → bcc p = 0x03#8 → decodeFrame f' = .error .checksumMismatch) ∧
    (k = p.length + 2 → decodeFrame f' = .error .checksumMismatch) ∧
    (k = 0 → 0x02#8 ∉ p → bcc p ≠ 0x02#8 → decodeFrame f' = .error .noStartMarker)

/-- R101: leading noise without 0x02 is skipped, and what follows a complete frame is ignored. -/
def Obligations.NoiseAndTailAreIgnored : Prop :=
  (∀ noise f tail : List Byte, 0x02#8 ∉ noise →
    decodeFrame (noise ++ f ++ tail) = decodeFrame (f ++ tail)) ∧
  (∀ f tail i j, scan f = some (i, j) → decodeFrame (f ++ tail) = decodeFrame f)

/-- R96: ENCODE writes the frame to DOUT, or fails and writes nothing. -/
def Obligations.EncodeBuildsTheFrame : Prop :=
  ∀ s : State,
    (s.len + 3 ≤ Config.maxFrame → ∃ u, exec .encode s = .next u ∧
      Completed u .none (s.len + 3) ∧
      u.doutBytes (s.len + 3) =
        [0x02#8] ++ s.dinBytes s.len ++ [0x03#8] ++ [xorAll (s.dinBytes s.len) ^^^ 0x03#8] ∧
      (∀ a, (a < doutBase ∨ doutBase + (s.len + 3) ≤ a) → u.mem.read a = s.mem.read a) ∧
      u = { s with mem := u.mem, resLen := u.resLen, fail := .none, err := .none, busy := false }) ∧
    (Config.maxFrame < s.len + 3 → exec .encode s =
      .next { s with fail := .frameTooLarge, err := .invalidFormat, resLen := 0, busy := false })

/-- R97: DECODE writes the payload, cut to `min(ARG_CAP, DOUT_CAP)` bytes, to DOUT, or fails and writes nothing. -/
def Obligations.DecodeReturnsThePayload : Prop :=
  ∀ s : State,
    (∀ r, s.len ≤ Config.dinCap → decodeFrame (s.dinBytes s.len) = .ok r → ∃ u, exec .decode s = .next u ∧
      Completed u .none (min r.length (min s.cap Config.doutCap)) ∧
      u.doutBytes (min r.length (min s.cap Config.doutCap)) = r.take (min s.cap Config.doutCap) ∧
      (∀ a, (a < doutBase ∨ doutBase + min r.length (min s.cap Config.doutCap) ≤ a) →
        u.mem.read a = s.mem.read a) ∧
      u = { s with mem := u.mem, resLen := u.resLen, fail := .none, err := .none, busy := false }) ∧
    (∀ c, s.len ≤ Config.dinCap → decodeFrame (s.dinBytes s.len) = .error c →
      exec .decode s = .next { s with fail := c, err := Failure.translate c, resLen := 0, busy := false }) ∧
    (Config.dinCap < s.len → exec .decode s =
      .next { s with fail := .illegalCommand, err := .invalidFormat, resLen := 0, busy := false })

/-- ENCODE, then the host copies DOUT into DIN, then DECODE: the payload comes back, whatever the state. -/
def Obligations.LoopbackReturnsThePayload : Prop :=
  ∀ (s u v : State), 1 ≤ s.len → s.len ≤ Config.maxPayload → 0x03#8 ∉ s.dinBytes s.len →
    exec .encode s = .next u →
    v.len = s.len + 3 → s.len ≤ v.cap → v.dinBytes (s.len + 3) = u.doutBytes (s.len + 3) →
    ∃ w, exec .decode v = .next w ∧ Completed w .none s.len ∧ w.doutBytes s.len = s.dinBytes s.len ∧
      w.world = v.world

/-! ## The Session -/

/-- R117: which tuples are valid. -/
def Obligations.TupleCheckedByItsMembers : Prop :=
  ∀ c : Tuple, c.valid = true ↔
    (c.line.extractLsb' 0 4 = 5#4 ∨ c.line.extractLsb' 0 4 = 6#4 ∨ c.line.extractLsb' 0 4 = 7#4 ∨
      c.line.extractLsb' 0 4 = 8#4) ∧
    (c.line.extractLsb' 4 2 = 1#2 ∨ c.line.extractLsb' 4 2 = 2#2) ∧
    (c.line.extractLsb' 16 8 = 0x4E#8 ∨ c.line.extractLsb' 16 8 = 0x45#8 ∨ c.line.extractLsb' 16 8 = 0x4F#8) ∧
    c.nameLen.toNat ≤ 255

/-- CONNECT and ROPEN follow the rows of the table of R130: the calls, the state, the result, the latched tuple, and
nothing else. -/
def Obligations.ConnectFollowsTheTable : Prop :=
  ∀ (s : State) (k : SessId) (i : Instr) (r : ConnectRow), Addresses i s k → (i = .connect ∨ i = .ropen) →
    connectRow (s.session k).state s.tuple s.world.turns = some r →
    ∃ u, exec i s = .next u ∧ Completed u r.result 0 ∧ Calls k s u r.calls ∧ u.world.turns = r.turns ∧
      (u.session k).state = r.after ∧
      (u.session k).acfg = (if s.tuple.valid then s.tuple else (s.session k).acfg) ∧
      ((s.session k).sound → (u.session k).sound) ∧
      LeavesAlone k s u ∧ u.mem = s.mem ∧ u.scratch = s.scratch

/-- R120 for SENDCMD and RWRITE: one `T.write` of the whole frame, and the outcome by the count it returns. -/
def Obligations.SendWritesTheFrameOnce : Prop :=
  ∀ (s : State) (k : SessId) (i : Instr) (t : Turn) (rest : List Turn),
    Addresses i s k → (i = .sendcmd ∨ i = .rwrite) → (s.session k).state = .opened →
    s.len + 3 ≤ Config.maxFrame → s.world.turns = t :: rest → t.ready = true →
    ∃ u, exec i s = .next u ∧
      Completed u (if t.count = ((s.len + 3 : Nat) : Int) then .none else .writeIncomplete) 0 ∧
      Calls k s u [.write ([0x02#8] ++ s.dinBytes s.len ++ [0x03#8] ++ [bcc (s.dinBytes s.len)]) t.count] ∧
      u.world.turns = rest ∧ (u.session k).state = .opened ∧ (u.session k).acfg = (s.session k).acfg ∧
      LeavesAlone k s u ∧ u.mem = s.mem ∧ u.scratch.acc = s.scratch.acc ∧ u.scratch.accLen = s.scratch.accLen ∧
      u.scratch.t0 = s.scratch.t0

/-- R113 for SENDCMD and RWRITE: when the count is in 0 to the frame length, exactly that many bytes of the frame have
been appended, in order, to the transmit stream. -/
def Obligations.WriteAppendsTheCountedBytes : Prop :=
  ∀ (s : State) (k : SessId) (i : Instr) (t : Turn) (rest : List Turn) (n : Nat) (u : State),
    Addresses i s k → (i = .sendcmd ∨ i = .rwrite) → (s.session k).state = .opened →
    s.len + 3 ≤ Config.maxFrame → s.world.turns = t :: rest → t.ready = true →
    t.count = (n : Int) → n ≤ s.len + 3 → exec i s = .next u →
    (u.session k).transport.wire ++ (u.session k).transport.unsent =
      (s.session k).transport.wire ++ (s.session k).transport.unsent ++
        (([0x02#8] ++ s.dinBytes s.len ++ [0x03#8] ++ [bcc (s.dinBytes s.len)]).take n)

/-- A payload that does not fit is refused before any Transport call (SENDCMD, RWRITE). -/
def Obligations.OversizedPayloadIsNotSent : Prop :=
  ∀ (s : State) (k : SessId) (i : Instr), Addresses i s k → (i = .sendcmd ∨ i = .rwrite) →
    (s.session k).state = .opened → Config.maxFrame < s.len + 3 →
    exec i s = .next { s with fail := .payloadTooLarge, err := .invalidFormat, resLen := 0, busy := false }

/-- SENDCMD, READRSP, FLUSH and the registry's RWRITE, RREAD, RFLUSH on a Session that is not open fail
`NotConnected`, make no Transport call and change nothing else. -/
def Obligations.ExchangeNeedsAnOpenSession : Prop :=
  ∀ (s : State) (k : SessId) (i : Instr), Addresses i s k → (s.session k).state ≠ .opened →
    (i = .sendcmd ∨ i = .readrsp ∨ i = .flush ∨ i = .rwrite ∨ i = .rread ∨ i = .rflush) →
    exec i s = .next { s with fail := .notConnected, err := .openFailed, resLen := 0, busy := false }

/-- READRSP and RREAD where the frame of a payload comes in behind noise, however its bytes arrive and are read, with empty
reads between them, several bytes in a read, or bytes after it in the same read: the payload is received, cut to the
capacity.  The read that completes the frame must begin in time; it may return after the time has run out. -/
def Obligations.ReadResponseReceivesAFrame : Prop :=
  ∀ (s : State) (k : SessId) (i : Instr) (noise p after : List Byte) (ts rest : List Turn) (last : Turn),
    Addresses i s k → (i = .readrsp ∨ i = .rread) → (s.session k).state = .opened →
    s.timeoutMs + s.params.chunkTimeoutMs < 2 ^ Config.timerW →
    1 ≤ p.length → 0x03#8 ∉ p → 0x02#8 ∉ noise →
    s.world.turns = ts ++ last :: rest → (∀ t ∈ ts ++ [last], t.ready = true) →
    (s.receives k (ts ++ [last])).1 = noise ++ ([0x02#8] ++ p ++ [0x03#8] ++ [bcc p]) ++ after →
    (s.receives k ts).1.length < noise.length + p.length + 3 →
    s.lead + s.readTime ts ≤ s.timeoutMs →
    ∃ u calls, exec i s = .next u ∧
      Completed u .none (min p.length (min s.cap Config.doutCap)) ∧
      u.doutBytes (min p.length (min s.cap Config.doutCap)) = p.take (min s.cap Config.doutCap) ∧
      (∀ a, (a < doutBase ∨ doutBase + min p.length (min s.cap Config.doutCap) ≤ a) →
        u.mem.read a = s.mem.read a) ∧
      u.world.log = calls ++ s.world.log ∧ calls.length = ts.length + 1 ∧
      gotBytes calls = (s.receives k (ts ++ [last])).1 ∧
      (u.session k).transport.unread = (s.receives k (ts ++ [last])).2 ∧ u.world.turns = rest ∧
      u.world.now = s.world.now + BitVec.ofNat 32 (s.lead + s.readTime (ts ++ [last])) ∧
      (u.session k).state = .opened ∧ (u.session k).acfg = (s.session k).acfg ∧ LeavesAlone k s u ∧
      u.scratch.txbuf = s.scratch.txbuf ∧ u.scratch.txLen = s.scratch.txLen

/-- When READRSP and RREAD return `Timeout` (R122 lines 5 and 6, R123, R124 b, c).  At the first test, when the clock has
moved past the timeout between steps 3 and 5 (how far it can is the model's reading, log 10): with no read.  After a read, whatever the bytes so far, when they hold no
complete frame, ACC is not full and the time has run out: with no further call.  On a Transport that never produces data:
after `timeout / chunk + 1` reads of the whole chunk timeout each.  And where a pending read that is not answered has waited
its whole timeout (that the wait counts towards it is the model's choice, log 12): it returns nothing, and the command
returns `Timeout` if the time has run out and goes on otherwise. -/
def Obligations.SilentTransportTimesOut : Prop :=
  (∀ (s : State) (k : SessId) (i : Instr),
    Addresses i s k → (i = .readrsp ∨ i = .rread) → (s.session k).state = .opened → s.timeoutMs < s.lead →
    ∃ u, exec i s = .next u ∧ Completed u .timeout 0 ∧ u.mem = s.mem ∧ u.world.turns = s.world.turns ∧
      u.world.log = s.world.log ∧ (∀ j, u.session j = s.session j) ∧ LeavesAlone k s u) ∧
  (∀ (s : State) (k : SessId) (i : Instr) (ts rest : List Turn) (last : Turn),
    Addresses i s k → (i = .readrsp ∨ i = .rread) → (s.session k).state = .opened →
    s.timeoutMs + s.params.chunkTimeoutMs < 2 ^ Config.timerW →
    s.world.turns = ts ++ last :: rest → (∀ t ∈ ts ++ [last], t.ready = true) →
    scan (s.receives k (ts ++ [last])).1 = none → (s.receives k (ts ++ [last])).1.length < Config.accCap →
    s.lead + s.readTime ts ≤ s.timeoutMs → s.timeoutMs < s.lead + s.readTime (ts ++ [last]) →
    ∃ u calls, exec i s = .next u ∧ Completed u .timeout 0 ∧ u.mem = s.mem ∧ u.world.turns = rest ∧
      u.world.log = calls ++ s.world.log ∧ calls.length = ts.length + 1 ∧
      gotBytes calls = (s.receives k (ts ++ [last])).1 ∧
      (u.session k).transport.unread = (s.receives k (ts ++ [last])).2 ∧
      u.world.now = s.world.now + BitVec.ofNat 32 (s.lead + s.readTime (ts ++ [last])) ∧
      (u.session k).state = .opened ∧ (u.session k).acfg = (s.session k).acfg ∧ LeavesAlone k s u ∧
      u.scratch.txbuf = s.scratch.txbuf ∧ u.scratch.txLen = s.scratch.txLen) ∧
  (∀ (s : State) (k : SessId) (i : Instr) (ts more : List Turn),
    Addresses i s k → (i = .readrsp ∨ i = .rread) → (s.session k).state = .opened →
    (s.session k).transport.unread = [] →
    s.timeoutMs + s.params.chunkTimeoutMs < 2 ^ Config.timerW → s.lead ≤ s.timeoutMs →
    s.world.turns = ts ++ more → ts.length = (s.timeoutMs - s.lead) / s.params.chunkTimeoutMs + 1 →
    (∀ t ∈ ts, t.ready = true ∧ t.arrive = [] ∧ s.params.chunkTimeoutMs ≤ t.lasts) →
    ∃ u, exec i s = .next u ∧ Completed u .timeout 0 ∧ u.mem = s.mem ∧ u.world.turns = more ∧
      Calls k s u (List.replicate ((s.timeoutMs - s.lead) / s.params.chunkTimeoutMs + 1)
        (.read (min s.params.chunkLen Config.accCap) s.params.chunkTimeoutMs [] s.params.chunkTimeoutMs)) ∧
      s.timeoutMs < elapsed s.world.now u.world.now ∧
      elapsed s.world.now u.world.now ≤ s.timeoutMs + s.params.chunkTimeoutMs ∧
      (u.session k).state = .opened ∧ LeavesAlone k s u) ∧
  (∀ (s : State) (k : SessId) (i : Instr),
    s.busy = true → s.cmd = i.opcode → Addresses i s k → (i = .readrsp ∨ i = .rread) → Blocked s.world.turns →
    s.world.waited = s.params.chunkTimeoutMs → scan s.accBytes = none → s.scratch.accLen < Config.accCap →
    ∃ u, resume s = .next u ∧ Calls k s u [.read s.chunkMax s.params.chunkTimeoutMs [] s.params.chunkTimeoutMs] ∧
      u.world.now = s.world.now ∧ u.world.waited = 0 ∧ u.accBytes = s.accBytes ∧
      (∀ j, u.session j = s.session j) ∧
      (s.timeoutMs < elapsed s.scratch.t0 s.world.now → Completed u .timeout 0 ∧ u.mem = s.mem) ∧
      (elapsed s.scratch.t0 s.world.now ≤ s.timeoutMs → StillRunning s u))

/-- R124 c, d for READRSP and RREAD, whatever the Transport does: the elapsed time since `T0` is at most
`timeout + CHUNK_TIMEOUT_MS` wherever the command stands or ends, and it never returns `Timeout` before the elapsed time
exceeds `timeout`; the same each time the command is gone on with; and while its read is pending no act of the host or of
the clock changes that (where a command waits, and what the time then counts towards, is the model's choice, log 12). -/
def Obligations.ReadResponseKeepsItsTime : Prop :=
  (∀ (s u : State) (k : SessId) (i : Instr), Addresses i s k → (i = .readrsp ∨ i = .rread) →
    (s.session k).state = .opened → s.timeoutMs + s.params.chunkTimeoutMs < 2 ^ Config.timerW → exec i s = .next u →
    elapsed s.world.now u.world.now ≤ s.timeoutMs + s.params.chunkTimeoutMs ∧
    (u.busy = true → u.InTime ∧ u.scratch.t0 = s.world.now) ∧
    (u.busy = false → u.fail = .timeout → s.timeoutMs < elapsed s.world.now u.world.now)) ∧
  (∀ s u : State, s.busy = true → (s.cmd = Instr.readrsp.opcode ∨ s.cmd = Instr.rread.opcode) →
    s.timeoutMs + s.params.chunkTimeoutMs < 2 ^ Config.timerW → s.InTime → resume s = .next u →
    elapsed s.scratch.t0 u.world.now ≤ s.timeoutMs + s.params.chunkTimeoutMs ∧
    (u.busy = true → u.InTime ∧ u.scratch.t0 = s.scratch.t0) ∧
    (u.busy = false → u.fail = .timeout → s.timeoutMs < elapsed s.scratch.t0 u.world.now)) ∧
  (∀ (s u : State) (a : HostAct), s.busy = true → (s.cmd = Instr.readrsp.opcode ∨ s.cmd = Instr.rread.opcode) →
    s.timeoutMs + s.params.chunkTimeoutMs < 2 ^ Config.timerW → s.InTime → hostAct a s = .next u → u.busy = true →
    u.InTime ∧ u.scratch.t0 = s.scratch.t0)

/-- R124 a, b for READRSP and RREAD, under the assumption of R125: at most `ACC_CAP` bytes are taken, at most
`ACC_CAP + timeout / CHUNK_TIMEOUT_MS + 1` reads are made, and when the Transport answers that many the command ends. -/
def Obligations.ReadResponseTerminates : Prop :=
  ∀ (s u : State) (k : SessId) (i : Instr) (calls : List (SessId × Call)),
    Addresses i s k → (i = .readrsp ∨ i = .rread) → (s.session k).state = .opened →
    s.timeoutMs + s.params.chunkTimeoutMs < 2 ^ Config.timerW → exec i s = .next u →
    u.world.log = calls ++ s.world.log → (∀ c ∈ calls, c.2.lastsIfEmpty) →
    (gotBytes calls).length ≤ Config.accCap ∧
    calls.length ≤ Config.accCap + s.timeoutMs / s.params.chunkTimeoutMs + 1 ∧
    ((∀ t ∈ s.world.turns, t.ready = true) →
      Config.accCap + s.timeoutMs / s.params.chunkTimeoutMs + 1 ≤ s.world.turns.length → u.busy = false)

/-- R133 for READRSP and RREAD: a command that succeeds returns bytes of the payload of a complete frame with a matching
checksum, made of exactly the bytes its reads returned; one that fails writes no byte of DOUT and reports none. -/
def Obligations.NoPartialResponse : Prop :=
  ∀ (s u : State) (k : SessId) (i : Instr), Addresses i s k → (i = .readrsp ∨ i = .rread) →
    exec i s = .next u → u.busy = false →
    (u.fail = .none → ∃ (calls : List (SessId × Call)) (m j : Nat) (p : List Byte),
      u.world.log = calls ++ s.world.log ∧ scan (gotBytes calls) = some (m, j) ∧
      decodeFrame (gotBytes calls) = .ok p ∧
      u.resLen.toNat = min p.length (min s.cap Config.doutCap) ∧
      u.doutBytes u.resLen.toNat = p.take (min s.cap Config.doutCap)) ∧
    (u.fail ≠ .none → u.resLen = 0 ∧ u.mem = s.mem)

/-- What READRSP and RREAD report for a complete frame that is wrong, and for a full ACC that holds no complete frame, however
the bytes arrive and are read: a wrong checksum is `ChecksumMismatch`; a frame with no payload byte and `ACC_CAP` bytes without
a complete frame are `Malformed`; at once after the read that shows it, which must begin in time and may return after the
time has run out.  Of the block only STATUS, `RES_LEN`, ACC, `ACCLEN` and `T0` change (R170). -/
def Obligations.GarbageIsNotATimeout : Prop :=
  ∀ (s : State) (k : SessId) (i : Instr) (c : Failure) (ts rest : List Turn) (last : Turn),
    Addresses i s k → (i = .readrsp ∨ i = .rread) → (s.session k).state = .opened →
    s.timeoutMs + s.params.chunkTimeoutMs < 2 ^ Config.timerW →
    s.world.turns = ts ++ last :: rest → (∀ t ∈ ts ++ [last], t.ready = true) →
    scan (s.receives k ts).1 = none → (s.receives k ts).1.length < Config.accCap →
    ((∃ a b, scan (s.receives k (ts ++ [last])).1 = some (a, b) ∧
        decodeFrame (s.receives k (ts ++ [last])).1 = .error c) ∨
      ((s.receives k (ts ++ [last])).1.length = Config.accCap ∧ scan (s.receives k (ts ++ [last])).1 = none ∧
        c = .malformed)) →
    s.lead + s.readTime ts ≤ s.timeoutMs →
    ∃ u calls, exec i s = .next u ∧
      Completed u (if c = .checksumMismatch then .checksumMismatch else .malformed) 0 ∧ u.mem = s.mem ∧
      u.world.log = calls ++ s.world.log ∧ calls.length = ts.length + 1 ∧
      gotBytes calls = (s.receives k (ts ++ [last])).1 ∧
      (u.session k).transport.unread = (s.receives k (ts ++ [last])).2 ∧ u.world.turns = rest ∧
      u.world.now = s.world.now + BitVec.ofNat 32 (s.lead + s.readTime (ts ++ [last])) ∧
      (u.session k).state = .opened ∧ (u.session k).acfg = (s.session k).acfg ∧ LeavesAlone k s u ∧
      u.scratch.txbuf = s.scratch.txbuf ∧ u.scratch.txLen = s.scratch.txLen

/-- R126 for DISCONNECT and RCLOSE: one `T.close` on an open Session, which is then `Closed`; otherwise nothing. -/
def Obligations.DisconnectReleasesOnce : Prop :=
  ∀ (s : State) (k : SessId) (i : Instr), Addresses i s k → (i = .disconnect ∨ i = .rclose) →
    ((s.session k).state ≠ .opened →
      exec i s = .next { s with fail := .none, err := .none, resLen := 0, busy := false }) ∧
    (∀ (t : Turn) (rest : List Turn), (s.session k).state = .opened → s.world.turns = t :: rest → t.ready = true →
      ∃ u, exec i s = .next u ∧ Completed u .none 0 ∧ Calls k s u [.closePort] ∧ u.world.turns = rest ∧
        (u.session k).state = .closed ∧ (u.session k).transport.held = false ∧
        (u.session k).acfg = (s.session k).acfg ∧ LeavesAlone k s u ∧ u.mem = s.mem ∧ u.scratch = s.scratch)

/-- R128 for FLUSH and RFLUSH on an open Session: one `T.flush`, and no state of the block but STATUS changes. -/
def Obligations.FlushCallsTheTransportOnce : Prop :=
  ∀ (s : State) (k : SessId) (i : Instr) (t : Turn) (rest : List Turn), Addresses i s k →
    (i = .flush ∨ i = .rflush) → (s.session k).state = .opened → s.world.turns = t :: rest → t.ready = true →
    ∃ u, exec i s = .next u ∧ Completed u .none 0 ∧ Calls k s u [.flush] ∧ u.world.turns = rest ∧
      (u.session k).state = .opened ∧ (u.session k).acfg = (s.session k).acfg ∧
      (u.session k).transport.held = (s.session k).transport.held ∧
      LeavesAlone k s u ∧ u.mem = s.mem ∧ u.scratch = s.scratch

/-! ## The Instance Registry -/

/-- R141: which handles are valid. -/
def Obligations.ValidHandleIsAnOccupiedSlot : Prop :=
  ∀ (s : State) (h : Word), s.validHandle h = true ↔
    0 ≤ h.toInt ∧ h.toInt < (s.regSize : Int) ∧ (slotAt s.slots h.toNat).occ = true

/-- R142: the least empty slot below `REG_SIZE`, else `REG_SIZE` when the table may grow, else none. -/
def Obligations.FreeSlotIsTheLeastEmpty : Prop :=
  ∀ s : State,
    (∀ h, s.freeSlot = some h ↔
      (h < s.regSize ∧ (slotAt s.slots h).occ = false ∧ ∀ j, j < h → (slotAt s.slots j).occ = true) ∨
      (h = s.regSize ∧ (∀ j, j < s.regSize → (slotAt s.slots j).occ = true) ∧
        ∀ m, s.params.nslotsMax = some m → s.regSize < m)) ∧
    (s.freeSlot = none ↔
      (∀ j, j < s.regSize → (slotAt s.slots j).occ = true) ∧ ∃ m, s.params.nslotsMax = some m ∧ m ≤ s.regSize)

/-- R143: RCREATE connects the Session of the free slot; on success the slot is occupied and its number is the handle,
on failure the table is unchanged and `RES_HANDLE` is -1 (a slot number of 2^31 or more is log 8). -/
def Obligations.RcreateStoresInTheFreeSlot : Prop :=
  ∀ (s : State) (h : Nat) (r : ConnectRow), s.params.hasRegistry = true → s.freeSlot = some h → h < 2 ^ 31 →
    connectRow (s.session (.slot h)).state s.tuple s.world.turns = some r →
    ∃ u, exec .rcreate s = .next u ∧ Completed u r.result 0 ∧ Calls (.slot h) s u r.calls ∧
      u.world.turns = r.turns ∧ (u.session (.slot h)).state = r.after ∧
      (s.tuple.valid = true → (u.session (.slot h)).acfg = s.tuple) ∧
      (r.result = .none → u.resHandle.toInt = h ∧ (slotAt u.slots h).occ = true ∧
        u.regSize = (if h = s.regSize then s.regSize + 1 else s.regSize)) ∧
      (r.result ≠ .none → u.resHandle.toInt = -1 ∧ u.regSize = s.regSize ∧
        (slotAt u.slots h).occ = (slotAt s.slots h).occ) ∧
      (∀ j, j ≠ h → slotAt u.slots j = slotAt s.slots j) ∧
      u = { s with
        fail := u.fail, err := u.err, busy := u.busy, resLen := u.resLen, resHandle := u.resHandle
        regSize := u.regSize, slots := u.slots, world := u.world }

/-- RCREATE with no free slot: `RegistryFull`, `RES_HANDLE` is -1, nothing else changes. -/
def Obligations.FullRegistryIsReported : Prop :=
  ∀ s : State, s.params.hasRegistry = true → s.freeSlot = none →
    exec .rcreate s = .next { s with
      resHandle := 0xFFFFFFFF#32, fail := .registryFull, err := .openFailed, resLen := 0, busy := false }

/-- The registry commands on an invalid handle: `InvalidHandle`, no Transport call, nothing else changes. -/
def Obligations.InvalidHandleChangesNothing : Prop :=
  ∀ (s : State) (i : Instr), s.params.hasRegistry = true → s.validHandle s.ops.argHandle = false →
    (i = .ropen ∨ i = .rclose ∨ i = .rwrite ∨ i = .rread ∨ i = .rflush ∨ i = .rdeinit) →
    exec i s = .next { s with fail := .invalidHandle, err := .invalidHandle, resLen := 0, busy := false }

/-- R149: RDEINIT closes an open Session and empties the slot; `REG_SIZE` stays; the handle is then invalid. -/
def Obligations.RdeinitEmptiesTheSlot : Prop :=
  ∀ (s : State) (h : Nat) (t : Turn) (rest : List Turn), Addresses .rdeinit s (.slot h) →
    ((s.session (.slot h)).state = .opened → s.world.turns = t :: rest ∧ t.ready = true) →
    ∃ u, exec .rdeinit s = .next u ∧ Completed u .none 0 ∧
      Calls (.slot h) s u (if (s.session (.slot h)).state = .opened then [.closePort] else []) ∧
      (u.session (.slot h)).state = .unconfigured ∧ (slotAt u.slots h).occ = false ∧
      u.validHandle u.ops.argHandle = false ∧
      (∀ j, j ≠ h → slotAt u.slots j = slotAt s.slots j) ∧
      u = { s with
        fail := .none, err := .none, busy := false, resLen := 0, slots := u.slots, world := u.world }

/-- R151: after RDEINIT of a slot below which none is empty, a RCREATE that succeeds returns that handle again. -/
def Obligations.FreedHandleIsReused : Prop :=
  ∀ (s u v : State) (h : Nat), Addresses .rdeinit s (.slot h) →
    (∀ j, j < h → (slotAt s.slots j).occ = true) →
    exec .rdeinit s = .next u → u.busy = false → exec .rcreate u = .next v → v.busy = false → v.fail = .none →
    v.resHandle = s.ops.argHandle ∧ v.regSize = s.regSize

/-! ## The host port -/

/-- R194: a write to `CMD` while a command runs is refused. -/
def Obligations.CommandWhileBusyIsRefused : Prop :=
  ∀ (s : State) (w : Word), s.busy = true → hostAct (.write32 0x000 w) s = .refused .cmdWhileBusy

/-- While a command runs, a host write to an operand register, to `CFG_NAME` or to DIN is refused. -/
def Obligations.OperandWriteWhileBusyIsRefused : Prop :=
  ∀ (s : State), s.busy = true →
    (∀ (off : Nat) (v : Word),
      off ∈ [0x008, 0x00C, 0x010, 0x014, 0x028, 0x02C, 0x030] →
      hostAct (.write32 off v) s = .refused (.operandWriteWhileBusy off)) ∧
    (∀ (off : Nat) (b : Byte), ((0x100 ≤ off ∧ off ≤ 0x1FE) ∨ (0x400 ≤ off ∧ off ≤ 0x7FF)) →
      hostAct (.write8 off b) s = .refused (.operandWriteWhileBusy off))

/-- R41: `STATUS` reads `BUSY` in bit 31, `ERR` in [11:8], `FAIL` in [4:0] and 0 elsewhere, also while a command
runs. -/
def Obligations.StatusReadsItsFields : Prop :=
  ∀ s : State, ∃ u, hostAct (.read32 0x004) s = .next u ∧
    u.host.rdata.getLsbD 31 = s.busy ∧ u.host.rdata.extractLsb' 8 4 = s.err.code ∧
    u.host.rdata.extractLsb' 0 5 = s.fail.code ∧
    u.host.rdata.extractLsb' 5 3 = 0#3 ∧ u.host.rdata.extractLsb' 12 19 = 0#19

/-- R160, R163, R164: the words STATUS reads for the sixteen outcomes. -/
def Obligations.StatusWordOfEachOutcome : Prop :=
  [Failure.none, .frameTooLarge, .noStartMarker, .noEndMarker, .checksumMismatch, .empty, .portUnavailable,
    .configRejected, .notConnected, .payloadTooLarge, .writeIncomplete, .timeout, .malformed, .invalidHandle,
    .registryFull, .illegalCommand].map (fun f => statusWord false (Failure.translate f) f) =
  [0x00000000#32, 0x00000101#32, 0x00000102#32, 0x00000103#32, 0x00000804#32, 0x00000605#32, 0x00000306#32,
    0x00000407#32, 0x00000308#32, 0x00000109#32, 0x0000050A#32, 0x0000070B#32, 0x0000010C#32, 0x0000090D#32,
    0x0000030E#32, 0x0000010F#32]

/-- A 32-bit write to an operand register stores the bits the register has and changes nothing else, and the register reads
them back; the reserved bits of `CFG_LINE` too. -/
def Obligations.OperandRegistersReadBack : Prop :=
  ∀ (s : State) (v : Word), s.busy = false →
    (hostAct (.write32 0x008 v) s = .next { s with ops := { s.ops with argLen := v.extractLsb' 0 16 } } ∧
      hostAct (.write32 0x00C v) s = .next { s with ops := { s.ops with argCap := v.extractLsb' 0 16 } } ∧
      hostAct (.write32 0x010 v) s = .next { s with ops := { s.ops with argTimeout := v } } ∧
      hostAct (.write32 0x014 v) s = .next { s with ops := { s.ops with argHandle := v } } ∧
      hostAct (.write32 0x028 v) s = .next { s with ops := { s.ops with cfgBaud := v } } ∧
      hostAct (.write32 0x02C v) s = .next { s with ops := { s.ops with cfgLine := v } } ∧
      hostAct (.write32 0x030 v) s = .next { s with ops := { s.ops with cfgNameLen := v.extractLsb' 0 8 } }) ∧
    (∀ off ∈ [0x010, 0x014, 0x028, 0x02C], ∃ u, hostAct (.write32 off v) s = .next u ∧ ReadsWord off u v) ∧
    (∀ off ∈ [0x008, 0x00C], ∃ u, hostAct (.write32 off v) s = .next u ∧ ReadsWord off u (v &&& 0xFFFF#32)) ∧
    (∃ u, hostAct (.write32 0x030 v) s = .next u ∧ ReadsWord 0x030 u (v &&& 0xFF#32))

/-- R75: the line word of a written configuration holds each member in its bits, the reserved bits 0. -/
def Obligations.LineWordHoldsItsMembers : Prop :=
  ∀ (c : WrittenCfg) (t : Tuple), t.line = c.line →
    t.dataBits = c.data ∧ t.stopBits = c.stop ∧ t.parity = c.parity ∧ t.rts = c.rts ∧ t.dtr = c.dtr ∧
    t.line.extractLsb' 6 2 = 0#2 ∧ t.line.extractLsb' 10 6 = 0#6 ∧ t.line.extractLsb' 24 8 = 0#8

/-- The read-only registers show the result registers, the state of the direct session by its code (R23) and the size of the
registry (a size of 2^32 or more is log 8).  While a command runs, the last two read as they were before its issue (R48,
log 6), and the host never sees `Configured`. -/
def Obligations.ResultRegistersAreReadable : Prop :=
  (∀ s : State, s.busy = false →
    ReadsWord 0x000 s (s.cmd.setWidth 32) ∧ ReadsWord 0x018 s (s.resLen.setWidth 32) ∧ ReadsWord 0x01C s s.resHandle ∧
    (s.direct.state = .unconfigured → ReadsWord 0x020 s 0) ∧ (s.direct.state = .configured → ReadsWord 0x020 s 1) ∧
    (s.direct.state = .opened → ReadsWord 0x020 s 2) ∧ (s.direct.state = .closed → ReadsWord 0x020 s 3) ∧
    (s.params.hasRegistry = false → ReadsWord 0x024 s 0) ∧
    (s.params.hasRegistry = true → s.regSize < 2 ^ 32 → ReadsWord 0x024 s (BitVec.ofNat 32 s.regSize))) ∧
  (∀ (s u : State) (w v : Word), s.busy = false → hostAct (.write32 0x000 w) s = .next u → u.busy = true →
    (ReadsWord 0x020 u v ↔ ReadsWord 0x020 s v) ∧
    (s.regSize < 2 ^ 32 → (ReadsWord 0x024 u v ↔ ReadsWord 0x024 s v))) ∧
  (∀ (s u : State) (v : Word), s.busy = true → resume s = .next u → u.busy = true →
    (ReadsWord 0x020 u v ↔ ReadsWord 0x020 s v) ∧
    (s.regSize < 2 ^ 32 → (ReadsWord 0x024 u v ↔ ReadsWord 0x024 s v))) ∧
  (∀ s : State, s.Inv → ¬ ReadsWord 0x020 s 1)

/-- A host write to a read-only register, to DOUT or to a reserved offset is ignored; a reserved offset reads 0 (that
reserved offsets take bytes and aligned words alike is the model's reading, log 13). -/
def Obligations.ReadOnlyAndReservedOffsetsIgnoreWrites : Prop :=
  ∀ (s : State) (v : Word) (b : Byte),
    (∀ off ∈ [0x004, 0x018, 0x01C, 0x020, 0x024], hostAct (.write32 off v) s = .next s) ∧
    (∀ off, 0x800 ≤ off → off ≤ 0xBFF → hostAct (.write8 off b) s = .next s) ∧
    (∀ off, ((0x034 ≤ off ∧ off ≤ 0x0FF) ∨ (0x1FF ≤ off ∧ off ≤ 0x3FF)) →
      hostAct (.write8 off b) s = .next s ∧
      (∃ u, hostAct (.read8 off) s = .next u ∧ u.host.rdata = 0) ∧
      (off % 4 = 0 → hostAct (.write32 off v) s = .next s ∧
        ∃ u, hostAct (.read32 off) s = .next u ∧ u.host.rdata = 0))

/-- A byte written to `CFG_NAME[i]` or `DIN[i]` reads back, and no other byte changes. -/
def Obligations.BufferBytesReadBack : Prop :=
  ∀ (s : State) (off : Nat) (b : Byte), s.busy = false →
    ((0x100 ≤ off ∧ off ≤ 0x1FE) ∨ (0x400 ≤ off ∧ off ≤ 0x7FF)) →
    ∃ u w, hostAct (.write8 off b) s = .next u ∧ hostAct (.read8 off) u = .next w ∧
      w.host.rdata = b.setWidth 32 ∧ (∀ a, a ≠ off → u.mem.read a = s.mem.read a) ∧
      (off < 0x400 → u.cfgName (off - 0x100) = b) ∧ (0x400 ≤ off → u.din (off - 0x400) = b) ∧
      u = { s with mem := u.mem }

/-- The host reads `DOUT[i]` for `i < RES_LEN` when no command runs. -/
def Obligations.ResultBytesAreReadable : Prop :=
  ∀ (s : State) (i : Nat), s.busy = false → i < s.resLen.toNat → i < Config.doutCap →
    ∃ u, hostAct (.read8 (0x800 + i)) s = .next u ∧ u.host.rdata = (s.dout i).setWidth 32

/-- R46: an access of the wrong width or alignment is refused; one outside the register map stops the machine (the model's
choice, log 14). -/
def Obligations.WrongAccessesAreRefused : Prop :=
  ∀ (s : State) (off : Nat) (v : Word) (b : Byte),
    (off < 0x034 → off % 4 ≠ 0 → hostAct (.read32 off) s = .refused (.undefinedAccess off) ∧
      hostAct (.write32 off v) s = .refused (.undefinedAccess off)) ∧
    (off < 0x034 → hostAct (.read8 off) s = .refused (.undefinedAccess off) ∧
      hostAct (.write8 off b) s = .refused (.undefinedAccess off)) ∧
    (((0x100 ≤ off ∧ off ≤ 0x1FE) ∨ (0x400 ≤ off ∧ off ≤ 0xBFF)) →
      hostAct (.read32 off) s = .refused (.undefinedAccess off) ∧
      hostAct (.write32 off v) s = .refused (.undefinedAccess off)) ∧
    (0xC00 ≤ off → hostAct (.read32 off) s = .fault (.outsideMap off) ∧
      hostAct (.write32 off v) s = .fault (.outsideMap off) ∧
      hostAct (.read8 off) s = .fault (.outsideMap off) ∧ hostAct (.write8 off b) s = .fault (.outsideMap off))

/-- Reads of the register map have no side effect: only the value read, on the host's side, changes. -/
def Obligations.ReadsHaveNoSideEffect : Prop :=
  ∀ (s u : State) (off : Nat), (hostAct (.read32 off) s = .next u ∨ hostAct (.read8 off) s = .next u) →
    u = { s with host := { s.host with rdata := u.host.rdata, fresh := u.host.fresh } }

/-! ## The whole machine -/

/-- R15: no command writes an operand register, DIN or `CFG_NAME`, the parameters, `CMD` or the host's pending acts; every
byte of the register map outside DOUT stays. -/
def Obligations.CommandsLeaveTheOperandsAlone : Prop :=
  ∀ (i : Instr) (s u : State), exec i s = .next u →
    u.ops = s.ops ∧ u.params = s.params ∧ u.cmd = s.cmd ∧
    u.host.queue = s.host.queue ∧ u.host.rdata = s.host.rdata ∧
    (∀ a, a < doutBase ∨ doutBase + Config.doutCap ≤ a → u.mem.read a = s.mem.read a)

/-- A command that fails writes no byte of DOUT and reports no result byte. -/
def Obligations.FailureWritesNoResult : Prop :=
  ∀ (i : Instr) (s u : State), exec i s = .next u → u.busy = false → u.fail ≠ .none →
    u.mem = s.mem ∧ u.resLen = 0 ∧ u.err = Failure.translate u.fail ∧
    u.resHandle = (if i = .rcreate ∧ s.params.hasRegistry = true then 0xFFFFFFFF#32 else s.resHandle)

/-- A command reports success or one of the failures listed for it. -/
def Obligations.OnlyTheListedFailuresAreReported : Prop :=
  ∀ (i : Instr) (s u : State), exec i s = .next u → u.busy = false → u.fail = .none ∨ u.fail ∈ failuresOf i

/-- The codec, send, read and flush commands change no `STATE` and no `ACFG` of any Session, whatever their outcome. -/
def Obligations.ExchangeKeepsEverySessionState : Prop :=
  ∀ (i : Instr) (s u : State), exec i s = .next u →
    i ∈ [Instr.encode, .decode, .sendcmd, .readrsp, .flush, .rwrite, .rread, .rflush] →
    ∀ k, (u.session k).state = (s.session k).state ∧ (u.session k).acfg = (s.session k).acfg

/-- A command changes no Session but the one it addresses, and calls no other Transport. -/
def Obligations.SessionsAreIndependent : Prop :=
  ∀ (i : Instr) (s u : State) (k j : SessId), exec i s = .next u →
    (Addresses i s k ∨ (i = .rcreate ∧ s.freeSlot.map .slot = some k)) → j ≠ k →
    u.session j = s.session j ∧
    ∃ calls, u.world.log = calls ++ s.world.log ∧ ∀ c ∈ calls, c.1 = k

/-- `REG_SIZE` never decreases by a command, and no command but RDEINIT empties a slot. -/
def Obligations.RegistryOnlyGrows : Prop :=
  ∀ (i : Instr) (s u : State), exec i s = .next u →
    s.regSize ≤ u.regSize ∧
    (i ≠ .rdeinit → ∀ h, (slotAt s.slots h).occ = true → (slotAt u.slots h).occ = true)
end

