-- ==== Sys2Proof/Laws/Codec.lean ====
section
/-! SUPPORT. The laws of the codec's functions: the XOR, the search for the markers, the scan, slices. -/

namespace Sys2Proof.Machine

/-! ## XOR -/

@[simp] theorem xorAll_nil : xorAll [] = 0x00#8 := rfl

@[simp] theorem xorAll_cons (b : Byte) (bs : List Byte) : xorAll (b :: bs) = b ^^^ xorAll bs := rfl

theorem xorAll_append (p q : List Byte) : xorAll (p ++ q) = xorAll p ^^^ xorAll q := by
  induction p with
  | nil => simp
  | cons b bs ih => simp [ih, BitVec.xor_assoc]

/-- The XOR from the first payload byte through ETX is the BCC (R90). -/
theorem xorAll_append_etx (p : List Byte) : xorAll (p ++ [Config.etx]) = bcc p := by
  simp [xorAll_append, bcc]

/-! ## The search for a byte -/

/-- What a search answers: the least index of the byte. -/
theorem findByte_eq_some_iff (b : Byte) (l : List Byte) (i : Nat) :
    findByte b l = some i ↔ l[i]? = some b ∧ ∀ k, k < i → l[k]? ≠ some b := by
  induction l generalizing i with
  | nil => simp [findByte]
  | cons x xs ih =>
    unfold findByte
    split
    · next h =>
      subst h
      constructor
      · intro e
        obtain rfl : 0 = i := by simpa using e
        exact ⟨rfl, fun k hk => absurd hk (by omega)⟩
      · rintro ⟨-, h2⟩
        cases i with
        | zero => rfl
        | succ i => exact absurd rfl (h2 0 (by omega))
    · next h =>
      cases i with
      | zero =>
        have : ¬ ∃ a, findByte b xs = some a ∧ a + 1 = 0 := by omega
        simp [Option.map_eq_some_iff, h]
      | succ i =>
        rw [Option.map_eq_some_iff]
        constructor
        · rintro ⟨a, ha, e⟩
          obtain rfl : a = i := by omega
          obtain ⟨h1, h2⟩ := (ih a).mp ha
          refine ⟨by simpa using h1, fun k hk => ?_⟩
          cases k with
          | zero => simpa using h
          | succ k => simpa using h2 k (by omega)
        · rintro ⟨h1, h2⟩
          refine ⟨i, (ih i).mpr ⟨by simpa using h1, fun k hk => ?_⟩, rfl⟩
          simpa using h2 (k + 1) (by omega)

/-- A search answers none exactly when the byte does not occur. -/
theorem findByte_eq_none_iff (b : Byte) (l : List Byte) : findByte b l = none ↔ b ∉ l := by
  induction l with
  | nil => simp [findByte]
  | cons x xs ih =>
    unfold findByte
    split
    · next h => simp [h]
    · next h => simp [ih, Ne.symm (a := x) (b := b) h]

theorem findByte_lt_length {b : Byte} {l : List Byte} {i : Nat} (h : findByte b l = some i) : i < l.length := by
  have := ((findByte_eq_some_iff b l i).mp h).1
  exact (List.getElem?_eq_some_iff.mp this).1

/-- Appending does not move the first occurrence. -/
theorem findByte_append_of_some {b : Byte} {l : List Byte} {i : Nat} (h : findByte b l = some i) (t : List Byte) :
    findByte b (l ++ t) = some i := by
  have hl := findByte_lt_length h
  obtain ⟨h1, h2⟩ := (findByte_eq_some_iff b l i).mp h
  refine (findByte_eq_some_iff b _ i).mpr ⟨by rwa [List.getElem?_append_left hl], fun k hk => ?_⟩
  rw [List.getElem?_append_left (by omega)]
  exact h2 k hk

/-- Behind a part that lacks the byte, the search goes on. -/
theorem findByte_append_of_notMem {b : Byte} {l : List Byte} (h : b ∉ l) (t : List Byte) :
    findByte b (l ++ t) = (findByte b t).map (· + l.length) := by
  induction l with
  | nil => simp
  | cons x xs ih =>
    rw [List.mem_cons, not_or] at h
    rw [List.cons_append, findByte, if_neg (Ne.symm h.1), ih h.2, Option.map_map]
    congr 1

/-! ## The markers -/

theorem findStx_eq_some_iff (raw : List Byte) (i : Nat) :
    findStx raw = some i ↔ raw[i]? = some Config.stx ∧ ∀ k, k < i → raw[k]? ≠ some Config.stx :=
  findByte_eq_some_iff _ raw i

theorem findStx_eq_none_iff (raw : List Byte) : findStx raw = none ↔ Config.stx ∉ raw :=
  findByte_eq_none_iff _ raw

theorem findEtx_eq_some_iff (raw : List Byte) (i j : Nat) :
    findEtx raw i = some j ↔
      i < j ∧ raw[j]? = some Config.etx ∧ ∀ k, i < k → k < j → raw[k]? ≠ some Config.etx := by
  rw [findEtx, Option.map_eq_some_iff]
  constructor
  · rintro ⟨a, ha, rfl⟩
    obtain ⟨h1, h2⟩ := (findByte_eq_some_iff _ _ _).mp ha
    rw [List.getElem?_drop] at h1
    refine ⟨by omega, by rwa [Nat.add_comm a], fun k hk1 hk2 => ?_⟩
    have := h2 (k - (i + 1)) (by omega)
    rwa [List.getElem?_drop, Nat.add_sub_cancel' (by omega)] at this
  · rintro ⟨h0, h1, h2⟩
    refine ⟨j - (i + 1), (findByte_eq_some_iff _ _ _).mpr ⟨?_, fun k hk => ?_⟩, by omega⟩
    · rwa [List.getElem?_drop, Nat.add_sub_cancel' (by omega)]
    · rw [List.getElem?_drop]
      exact h2 _ (by omega) (by omega)

theorem findEtx_eq_none_iff (raw : List Byte) (i : Nat) :
    findEtx raw i = none ↔ ∀ k, i < k → raw[k]? ≠ some Config.etx := by
  constructor
  · intro h k hk e
    rw [findEtx, Option.map_eq_none_iff, findByte_eq_none_iff] at h
    apply h
    rw [List.mem_iff_getElem?]
    exact ⟨k - (i + 1), by rwa [List.getElem?_drop, Nat.add_sub_cancel' (by omega)]⟩
  · intro h
    cases e : findEtx raw i with
    | none => rfl
    | some j =>
      obtain ⟨h1, h2, -⟩ := (findEtx_eq_some_iff raw i j).mp e
      exact absurd h2 (h j h1)

theorem findStx_append {raw : List Byte} {i : Nat} (h : findStx raw = some i) (t : List Byte) :
    findStx (raw ++ t) = some i := findByte_append_of_some h t

theorem findEtx_append {raw : List Byte} {i j : Nat} (h : findEtx raw i = some j) (t : List Byte) :
    findEtx (raw ++ t) i = some j := by
  obtain ⟨h1, h2, h3⟩ := (findEtx_eq_some_iff raw i j).mp h
  have hl := (List.getElem?_eq_some_iff.mp h2).1
  refine (findEtx_eq_some_iff _ i j).mpr ⟨h1, by rwa [List.getElem?_append_left hl], fun k k1 k2 => ?_⟩
  rw [List.getElem?_append_left (by omega)]
  exact h3 k k1 k2

/-! ## The scan -/

/-- What a complete scan says: the first STX, the first ETX after it, and a byte after that. -/
theorem scan_eq_some_iff (raw : List Byte) (i j : Nat) :
    scan raw = some (i, j) ↔ findStx raw = some i ∧ findEtx raw i = some j ∧ j + 1 < raw.length := by
  unfold scan
  constructor
  · intro h
    cases hi : findStx raw with
    | none => simp [hi] at h
    | some a =>
      cases hj : findEtx raw a with
      | none => simp [hi, hj] at h
      | some b =>
        simp only [hi, hj] at h
        split at h
        · simp at h
        · next hl =>
          simp only [Option.some.injEq, Prod.mk.injEq] at h
          obtain ⟨rfl, rfl⟩ := h
          exact ⟨rfl, hj, by omega⟩
  · rintro ⟨hi, hj, hl⟩
    simp only [hi, hj]
    rw [if_neg (by omega)]

/-- Appending never changes a complete scan (R93). -/
theorem scan_append {raw : List Byte} {i j : Nat} (h : scan raw = some (i, j)) (t : List Byte) :
    scan (raw ++ t) = some (i, j) := by
  obtain ⟨h1, h2, h3⟩ := (scan_eq_some_iff raw i j).mp h
  refine (scan_eq_some_iff _ i j).mpr ⟨findStx_append h1 t, findEtx_append h2 t, ?_⟩
  rw [List.length_append]
  omega

/-- A prefix of a frame that lacks its last byte needs more. -/
theorem scan_take_eq_none {raw : List Byte} {i j n : Nat} (h : scan raw = some (i, j)) (hn : n < j + 2) :
    scan (raw.take n) = none := by
  cases e : scan (raw.take n) with
  | none => rfl
  | some ij =>
    obtain ⟨a, b⟩ := ij
    have hl := ((scan_eq_some_iff _ a b).mp e).2.2
    have := scan_append e (raw.drop n)
    rw [List.take_append_drop, h] at this
    simp only [Option.some.injEq, Prod.mk.injEq] at this
    rw [List.length_take] at hl
    omega

/-! ## Decoding -/

/-- DecodeFrame on a buffer with both markers and a byte after ETX. -/
theorem decodeFrame_of_markers {raw : List Byte} {i j : Nat} {r : Byte} (hi : findStx raw = some i)
    (hj : findEtx raw i = some j) (hr : raw[j + 1]? = some r) :
    decodeFrame raw =
      if xorAll (slice raw (i + 1) j) ≠ r then .error .checksumMismatch
      else if j = i + 1 then .error .empty
      else .ok (slice raw (i + 1) (j - 1)) := by
  simp only [decodeFrame, hi, hj, hr]

/-- DecodeFrame fails with one of four codes, or gives a payload; on a complete buffer only with two of them. -/
theorem decodeFrame_error_cases {raw : List Byte} {c : Failure} (h : decodeFrame raw = .error c) :
    c = .noStartMarker ∨ c = .noEndMarker ∨ c = .checksumMismatch ∨ c = .empty := by
  unfold decodeFrame at h
  repeat' split at h
  all_goals simp at h
  all_goals simp [← h]

theorem decodeFrame_error_of_scan {raw : List Byte} {i j : Nat} {c : Failure} (hs : scan raw = some (i, j))
    (h : decodeFrame raw = .error c) : c = .checksumMismatch ∨ c = .empty := by
  obtain ⟨h1, h2, h3⟩ := (scan_eq_some_iff raw i j).mp hs
  rw [decodeFrame_of_markers h1 h2 (List.getElem?_eq_getElem h3)] at h
  split at h
  · left; simpa using h.symm
  · split at h
    · right; simpa using h.symm
    · simp at h

@[simp] theorem length_frameOf (p : List Byte) : (frameOf p).length = p.length + 3 := by
  simp [frameOf]

theorem length_slice_le (s : List Byte) (a b : Nat) : (slice s a b).length ≤ s.length := by
  simp [slice]

/-! ## A frame in its parts -/

/-- The frame of a payload, STX in front (R65). -/
theorem frameOf_eq (p : List Byte) : frameOf p = Config.stx :: (p ++ [Config.etx, bcc p]) := by simp [frameOf]

theorem slice_snoc {raw : List Byte} {i j : Nat} {b : Byte} (hij : i < j) (hj : raw[j]? = some b) :
    slice raw (i + 1) j = slice raw (i + 1) (j - 1) ++ [b] := by
  have e1 : j + 1 - (i + 1) = (j - 1 + 1 - (i + 1)) + 1 := by omega
  rw [slice, slice, e1, List.take_add_one, List.getElem?_drop]
  have e2 : i + 1 + (j - 1 + 1 - (i + 1)) = j := by omega
  rw [e2, hj]
  rfl

/-- Decoding of STX, bytes without ETX, ETX, a byte taken for the BCC, and anything after it (R94). -/
theorem decodeFrame_cut (p q : List Byte) (r : Byte) (h : Config.etx ∉ p) :
    decodeFrame (Config.stx :: (p ++ Config.etx :: r :: q)) =
      if bcc p ≠ r then .error .checksumMismatch else if p = [] then .error .empty else .ok p := by
  have hi : findStx (Config.stx :: (p ++ Config.etx :: r :: q)) = some 0 := by simp [findStx, findByte]
  have hj : findEtx (Config.stx :: (p ++ Config.etx :: r :: q)) 0 = some (p.length + 1) := by
    simp only [findEtx, Nat.zero_add, List.drop_succ_cons, List.drop_zero]
    rw [findByte_append_of_notMem h]
    simp [findByte]
  have hr : (Config.stx :: (p ++ Config.etx :: r :: q))[p.length + 1 + 1]? = some r := by
    rw [List.getElem?_cons_succ, List.getElem?_append_right (by omega)]
    simp
  rw [decodeFrame_of_markers hi hj hr]
  have e1 : slice (Config.stx :: (p ++ Config.etx :: r :: q)) (0 + 1) (p.length + 1) = p ++ [Config.etx] := by
    simp [slice, List.take_append]
  have e2 : slice (Config.stx :: (p ++ Config.etx :: r :: q)) (0 + 1) (p.length + 1 - 1) = p := by
    simp [slice]
  rw [e1, e2, xorAll_append_etx]
  simp

end Sys2Proof.Machine
end

