-- ==== Sys2Proof/Laws/Memory.lean ====
section
/-! SUPPORT. The laws of a byte memory: read after write, and that every operation keeps the canonical form. -/

namespace Sys2Proof.Machine

@[simp] theorem Memory.read_nil (a : Nat) : Memory.read [] a = unwritten := rfl

theorem Memory.read_cons (c : Host.Cell) (m : Memory) (a : Nat) :
    Memory.read (c :: m) a = if c.1 = a then c.2 else Memory.read m a := rfl

theorem Memory.risesFrom_mono {lo lo' : Nat} (h : lo' ≤ lo) {m : Memory}
    (hm : Memory.risesFrom lo m = true) : Memory.risesFrom lo' m = true := by
  cases m with
  | nil => rfl
  | cons c m =>
    simp only [Memory.risesFrom, Bool.and_eq_true, decide_eq_true_eq] at hm ⊢
    exact ⟨by omega, hm.2⟩

theorem Memory.risesFrom_put {lo a : Nat} {v : Byte} {m : Memory} (h : lo ≤ a)
    (hm : Memory.risesFrom (a + 1) m = true) : Memory.risesFrom lo (Memory.put a v m) = true := by
  unfold Memory.put
  split
  · exact Memory.risesFrom_mono (by omega) hm
  · simp [Memory.risesFrom, h, hm]

theorem Memory.risesFrom_erase {lo : Nat} {m : Memory} (a : Nat) (hm : Memory.risesFrom lo m = true) :
    Memory.risesFrom lo (m.erase a) = true := by
  induction m generalizing lo with
  | nil => rfl
  | cons c m ih =>
    simp only [Memory.risesFrom, Bool.and_eq_true, decide_eq_true_eq] at hm
    rw [Memory.erase, List.filter_cons]
    split
    · simp only [Memory.risesFrom, Bool.and_eq_true, decide_eq_true_eq]
      exact ⟨hm.1, ih hm.2⟩
    · exact Memory.risesFrom_mono (by omega) (ih hm.2)

theorem Memory.risesFrom_insert {lo a : Nat} {v : Byte} {m : Memory} (h : lo ≤ a)
    (ha : ∀ c ∈ m, c.1 ≠ a) (hm : Memory.risesFrom lo m = true) :
    Memory.risesFrom lo (Memory.insert a v m) = true := by
  induction m generalizing lo with
  | nil => exact Memory.risesFrom_put h rfl
  | cons c m ih =>
    simp only [Memory.risesFrom, Bool.and_eq_true, decide_eq_true_eq] at hm
    unfold Memory.insert
    split
    · refine Memory.risesFrom_put h ?_
      simp only [Memory.risesFrom, Bool.and_eq_true, decide_eq_true_eq]
      exact ⟨by omega, hm.2⟩
    · have hc := ha c List.mem_cons_self
      simp only [Memory.risesFrom, Bool.and_eq_true, decide_eq_true_eq]
      exact ⟨hm.1, ih (by omega) (fun d hd => ha d (List.mem_cons_of_mem c hd)) hm.2⟩

theorem Memory.ne_of_mem_erase {m : Memory} {a : Nat} {c : Host.Cell} (h : c ∈ m.erase a) : c.1 ≠ a := by
  simpa using (List.mem_filter.mp h).2

/-- The listed bytes of a memory differ from what an unlisted address reads as. -/
abbrev Memory.proper (m : Memory) : Bool := m.all (fun c => c.2 != unwritten)

theorem Memory.proper_put {a : Nat} {v : Byte} {m : Memory} (hm : m.proper = true) :
    (Memory.put a v m).proper = true := by
  unfold Memory.put
  split
  · exact hm
  · next h => simpa [h] using hm

theorem Memory.proper_insert {a : Nat} {v : Byte} {m : Memory} (hm : m.proper = true) :
    (Memory.insert a v m).proper = true := by
  induction m with
  | nil => exact Memory.proper_put rfl
  | cons c m ih =>
    have hm' := hm
    rw [Memory.proper, List.all_cons, Bool.and_eq_true] at hm
    unfold Memory.insert
    split
    · exact Memory.proper_put hm'
    · rw [Memory.proper, List.all_cons, Bool.and_eq_true]
      exact ⟨hm.1, ih hm.2⟩

theorem Memory.proper_erase {m : Memory} (a : Nat) (hm : m.proper = true) : (m.erase a).proper = true := by
  simp only [Memory.proper, List.all_eq_true] at hm ⊢
  exact fun c hc => hm c (List.mem_filter.mp hc).1

theorem Memory.wf_iff (m : Memory) :
    m.wf = true ↔ Memory.risesFrom 0 m = true ∧ m.proper = true := by
  simp [Memory.wf]

@[simp] theorem Memory.wf_nil : Memory.wf [] = true := rfl

/-- A write keeps the canonical form. -/
theorem Memory.wf_write {m : Memory} (h : m.wf = true) (a : Nat) (v : Byte) : (m.write a v).wf = true := by
  rw [Memory.wf_iff] at h ⊢
  exact ⟨Memory.risesFrom_insert (Nat.zero_le a) (fun _ hc => Memory.ne_of_mem_erase hc)
      (Memory.risesFrom_erase a h.1), Memory.proper_insert (Memory.proper_erase a h.2)⟩

/-- Writing a byte sequence keeps the canonical form. -/
theorem Memory.wf_writeBytes {m : Memory} (h : m.wf = true) (base : Nat) (bs : List Byte) :
    (m.writeBytes base bs).wf = true := by
  induction bs generalizing m base with
  | nil => exact h
  | cons b bs ih => exact ih (Memory.wf_write h base b) (base + 1)

theorem Memory.risesFrom_freed (draw item lo n : Nat) :
    Memory.risesFrom lo (Memory.freed draw item lo n) = true := by
  induction n generalizing lo with
  | zero => rfl
  | succ n ih => exact Memory.risesFrom_put (Nat.le_refl lo) (ih (lo + 1))

theorem Memory.proper_freed (draw item lo n : Nat) : (Memory.freed draw item lo n).proper = true := by
  induction n generalizing lo with
  | zero => rfl
  | succ n ih => exact Memory.proper_put (ih (lo + 1))

/-- A memory of free bytes is in canonical form. -/
theorem Memory.wf_freed (draw item lo n : Nat) : (Memory.freed draw item lo n).wf = true := by
  rw [Memory.wf_iff]
  exact ⟨Memory.risesFrom_mono (Nat.zero_le lo) (Memory.risesFrom_freed draw item lo n),
    Memory.proper_freed draw item lo n⟩

/-! ## Read after write -/

theorem Memory.read_put_ne {a b : Nat} (v : Byte) (m : Memory) (h : b ≠ a) :
    (Memory.put a v m).read b = m.read b := by
  unfold Memory.put
  split
  · rfl
  · rw [Memory.read_cons, if_neg (fun e => h e.symm)]

theorem Memory.read_insert_ne {a b : Nat} (m : Memory) (v : Byte) (h : b ≠ a) :
    (Memory.insert a v m).read b = m.read b := by
  induction m with
  | nil => exact Memory.read_put_ne v [] h
  | cons c m ih =>
    unfold Memory.insert
    split
    · exact Memory.read_put_ne v _ h
    · rw [Memory.read_cons, Memory.read_cons, ih]

theorem Memory.read_erase_ne {a b : Nat} (m : Memory) (h : b ≠ a) : (m.erase a).read b = m.read b := by
  induction m with
  | nil => rfl
  | cons c m ih =>
    rw [Memory.erase, List.filter_cons, Memory.read_cons, ← ih]
    split
    · rfl
    · next hc => rw [if_neg (by simp at hc; omega)]; rfl

/-- A write leaves every other address alone. -/
@[simp] theorem Memory.read_write_ne {a b : Nat} (m : Memory) (v : Byte) (h : b ≠ a) :
    (m.write a v).read b = m.read b := by
  rw [Memory.write, Memory.read_insert_ne _ _ h, Memory.read_erase_ne _ h]

theorem Memory.read_of_absent {a : Nat} {m : Memory} (h : ∀ c ∈ m, c.1 ≠ a) : m.read a = unwritten := by
  induction m with
  | nil => rfl
  | cons c m ih =>
    rw [Memory.read_cons, if_neg (h c List.mem_cons_self)]
    exact ih fun d hd => h d (List.mem_cons_of_mem c hd)

theorem Memory.read_insert_self {a : Nat} {m : Memory} (v : Byte) (h : ∀ c ∈ m, c.1 ≠ a) :
    (Memory.insert a v m).read a = v := by
  have put_self : ∀ m : Memory, (∀ c ∈ m, c.1 ≠ a) → (Memory.put a v m).read a = v := by
    intro m h
    unfold Memory.put
    split
    · next hv => rw [hv]; exact Memory.read_of_absent h
    · rw [Memory.read_cons, if_pos rfl]
  induction m with
  | nil => exact put_self [] h
  | cons c m ih =>
    unfold Memory.insert
    split
    · exact put_self _ h
    · rw [Memory.read_cons, if_neg (h c List.mem_cons_self)]
      exact ih fun d hd => h d (List.mem_cons_of_mem c hd)

/-- A read after a write to the same address gives the value written. -/
@[simp] theorem Memory.read_write_self (m : Memory) (a : Nat) (v : Byte) : (m.write a v).read a = v :=
  Memory.read_insert_self v fun _ hc => Memory.ne_of_mem_erase hc

/-- Outside the bytes written, memory is unchanged. -/
theorem Memory.read_writeBytes_of_outside {a : Nat} (m : Memory) (base : Nat) (bs : List Byte)
    (h : a < base ∨ base + bs.length ≤ a) : (m.writeBytes base bs).read a = m.read a := by
  induction bs generalizing m base with
  | nil => rfl
  | cons b bs ih =>
    rw [List.length_cons] at h
    rw [Memory.writeBytes, ih _ _ (by omega), Memory.read_write_ne _ _ (by omega)]

/-- The bytes written read back, in order. -/
theorem Memory.readBytes_writeBytes (m : Memory) (base : Nat) (bs : List Byte) :
    (m.writeBytes base bs).readBytes base bs.length = bs := by
  induction bs generalizing m base with
  | nil => rfl
  | cons b bs ih =>
    rw [Memory.writeBytes, List.length_cons, Memory.readBytes,
      Memory.read_writeBytes_of_outside _ _ _ (by omega), Memory.read_write_self, ih]

@[simp] theorem Memory.length_readBytes (m : Memory) (base n : Nat) : (m.readBytes base n).length = n := by
  induction n generalizing base with
  | zero => rfl
  | succ n ih => simp [Memory.readBytes, ih]

/-- Two memories that agree on the bytes read give the same sequence. -/
theorem Memory.readBytes_congr {m m' : Memory} {base n : Nat}
    (h : ∀ a, base ≤ a → a < base + n → m.read a = m'.read a) :
    m.readBytes base n = m'.readBytes base n := by
  induction n generalizing base with
  | zero => rfl
  | succ n ih =>
    rw [Memory.readBytes, Memory.readBytes, h base (Nat.le_refl _) (by omega),
      ih fun a h1 h2 => h a (by omega) (by omega)]

theorem Memory.readBytes_append (m : Memory) (base n k : Nat) :
    m.readBytes base (n + k) = m.readBytes base n ++ m.readBytes (base + n) k := by
  induction n generalizing base with
  | zero => simp [Memory.readBytes]
  | succ n ih =>
    rw [Nat.succ_add, Memory.readBytes, Memory.readBytes, ih, Nat.succ_add_eq_add_succ, List.cons_append]

/-- A prefix of the bytes read. -/
theorem Memory.take_readBytes (m : Memory) (base n k : Nat) (h : k ≤ n) :
    (m.readBytes base n).take k = m.readBytes base k := by
  obtain ⟨d, rfl⟩ := Nat.exists_eq_add_of_le h
  rw [Memory.readBytes_append, List.take_left' (by simp)]

/-- Appending bytes behind the first `n` reads as those followed by the new ones. -/
theorem Memory.readBytes_append_writeBytes (m : Memory) (base n : Nat) (bs : List Byte) :
    (m.writeBytes (base + n) bs).readBytes base (n + bs.length) = m.readBytes base n ++ bs := by
  rw [Memory.readBytes_append, Memory.readBytes_writeBytes]
  congr 1
  exact Memory.readBytes_congr fun a _ h2 => Memory.read_writeBytes_of_outside _ _ _ (Or.inl (by omega))

/-! ## Equal memories are equal data -/

theorem Memory.read_below {lo a : Nat} {m : Memory} (h : Memory.risesFrom lo m = true) (ha : a < lo) :
    m.read a = unwritten := by
  induction m generalizing lo with
  | nil => rfl
  | cons c m ih =>
    simp only [Memory.risesFrom, Bool.and_eq_true, decide_eq_true_eq] at h
    rw [Memory.read_cons, if_neg (by omega)]
    exact ih h.2 (by omega)

theorem Memory.eq_of_rises {lo : Nat} {m m' : Memory} (h : Memory.risesFrom lo m = true) (p : m.proper = true)
    (h' : Memory.risesFrom lo m' = true) (p' : m'.proper = true) (e : ∀ a, m.read a = m'.read a) : m = m' := by
  induction m generalizing lo m' with
  | nil =>
    cases m' with
    | nil => rfl
    | cons c m' =>
      have := e c.1
      simp_all [Memory.read_cons, Memory.proper]
  | cons c m ih =>
    cases m' with
    | nil =>
      have := e c.1
      simp_all [Memory.read_cons, Memory.proper]
    | cons d m' =>
      simp only [Memory.risesFrom, Bool.and_eq_true, decide_eq_true_eq] at h h'
      simp only [Memory.proper, List.all_cons, Bool.and_eq_true, bne_iff_ne, ne_eq] at p p'
      have hcd : c.1 = d.1 := by
        rcases Nat.lt_trichotomy c.1 d.1 with hlt | heq | hlt
        · have h1 := e c.1
          rw [Memory.read_cons, if_pos rfl, Memory.read_cons, if_neg (by omega),
            Memory.read_below h'.2 (by omega)] at h1
          exact absurd h1 p.1
        · exact heq
        · have h1 := e d.1
          rw [Memory.read_cons, if_neg (by omega), Memory.read_below h.2 (by omega), Memory.read_cons,
            if_pos rfl] at h1
          exact absurd h1.symm p'.1
      have h2 : c.2 = d.2 := by
        have h1 := e c.1
        rwa [Memory.read_cons, if_pos rfl, Memory.read_cons, if_pos hcd.symm] at h1
      have hc : c = d := Prod.ext hcd h2
      subst hc
      congr 1
      refine ih h.2 p.2 h'.2 p'.2 fun a => ?_
      by_cases ha : c.1 = a
      · rw [Memory.read_below h.2 (by omega), Memory.read_below h'.2 (by omega)]
      · have h1 := e a
        rwa [Memory.read_cons, if_neg ha, Memory.read_cons, if_neg ha] at h1

/-- Two memories in canonical form that read the same at every address are the same list. -/
theorem Memory.eq_of_wf {m m' : Memory} (h : m.wf = true) (h' : m'.wf = true) (e : ∀ a, m.read a = m'.read a) :
    m = m' := by
  rw [Memory.wf_iff] at h h'
  exact Memory.eq_of_rises h.1 h.2 h'.1 h'.2 e

end Sys2Proof.Machine
end

