-- ==== Sys2Proof/Laws/State.lean ====
section
/-! SUPPORT. For each update of the state, one lemma per field: what it leaves alone, and what it sets. -/

namespace Sys2Proof.Machine

variable (s : State)

/-! ### `State.raise` -/

@[simp] theorem State.raise_params (f : Failure) : (s.raise f).params = s.params := rfl
@[simp] theorem State.raise_cmd (f : Failure) : (s.raise f).cmd = s.cmd := rfl
@[simp] theorem State.raise_ops (f : Failure) : (s.raise f).ops = s.ops := rfl
@[simp] theorem State.raise_resHandle (f : Failure) : (s.raise f).resHandle = s.resHandle := rfl
@[simp] theorem State.raise_mem (f : Failure) : (s.raise f).mem = s.mem := rfl
@[simp] theorem State.raise_scratch (f : Failure) : (s.raise f).scratch = s.scratch := rfl
@[simp] theorem State.raise_direct (f : Failure) : (s.raise f).direct = s.direct := rfl
@[simp] theorem State.raise_regSize (f : Failure) : (s.raise f).regSize = s.regSize := rfl
@[simp] theorem State.raise_slots (f : Failure) : (s.raise f).slots = s.slots := rfl
@[simp] theorem State.raise_world (f : Failure) : (s.raise f).world = s.world := rfl
@[simp] theorem State.raise_host (f : Failure) : (s.raise f).host = s.host := rfl

/-! ### `State.done` -/

@[simp] theorem State.done_params (n : Nat) : (s.done n).params = s.params := rfl
@[simp] theorem State.done_cmd (n : Nat) : (s.done n).cmd = s.cmd := rfl
@[simp] theorem State.done_ops (n : Nat) : (s.done n).ops = s.ops := rfl
@[simp] theorem State.done_resHandle (n : Nat) : (s.done n).resHandle = s.resHandle := rfl
@[simp] theorem State.done_mem (n : Nat) : (s.done n).mem = s.mem := rfl
@[simp] theorem State.done_scratch (n : Nat) : (s.done n).scratch = s.scratch := rfl
@[simp] theorem State.done_direct (n : Nat) : (s.done n).direct = s.direct := rfl
@[simp] theorem State.done_regSize (n : Nat) : (s.done n).regSize = s.regSize := rfl
@[simp] theorem State.done_slots (n : Nat) : (s.done n).slots = s.slots := rfl
@[simp] theorem State.done_world (n : Nat) : (s.done n).world = s.world := rfl
@[simp] theorem State.done_host (n : Nat) : (s.done n).host = s.host := rfl

/-! ### `State.issue` -/

@[simp] theorem State.issue_params (w : Word) : (s.issue w).params = s.params := rfl
@[simp] theorem State.issue_fail (w : Word) : (s.issue w).fail = s.fail := rfl
@[simp] theorem State.issue_err (w : Word) : (s.issue w).err = s.err := rfl
@[simp] theorem State.issue_ops (w : Word) : (s.issue w).ops = s.ops := rfl
@[simp] theorem State.issue_resLen (w : Word) : (s.issue w).resLen = s.resLen := rfl
@[simp] theorem State.issue_resHandle (w : Word) : (s.issue w).resHandle = s.resHandle := rfl
@[simp] theorem State.issue_mem (w : Word) : (s.issue w).mem = s.mem := rfl
@[simp] theorem State.issue_scratch (w : Word) : (s.issue w).scratch = s.scratch := rfl
@[simp] theorem State.issue_direct (w : Word) : (s.issue w).direct = s.direct := rfl
@[simp] theorem State.issue_regSize (w : Word) : (s.issue w).regSize = s.regSize := rfl
@[simp] theorem State.issue_slots (w : Word) : (s.issue w).slots = s.slots := rfl
@[simp] theorem State.issue_world (w : Word) : (s.issue w).world = s.world := rfl

/-! ### `State.suspend` -/

@[simp] theorem State.suspend_params : (s.suspend).params = s.params := rfl
@[simp] theorem State.suspend_cmd : (s.suspend).cmd = s.cmd := rfl
@[simp] theorem State.suspend_fail : (s.suspend).fail = s.fail := rfl
@[simp] theorem State.suspend_err : (s.suspend).err = s.err := rfl
@[simp] theorem State.suspend_ops : (s.suspend).ops = s.ops := rfl
@[simp] theorem State.suspend_resLen : (s.suspend).resLen = s.resLen := rfl
@[simp] theorem State.suspend_resHandle : (s.suspend).resHandle = s.resHandle := rfl
@[simp] theorem State.suspend_mem : (s.suspend).mem = s.mem := rfl
@[simp] theorem State.suspend_scratch : (s.suspend).scratch = s.scratch := rfl
@[simp] theorem State.suspend_direct : (s.suspend).direct = s.direct := rfl
@[simp] theorem State.suspend_regSize : (s.suspend).regSize = s.regSize := rfl
@[simp] theorem State.suspend_slots : (s.suspend).slots = s.slots := rfl
@[simp] theorem State.suspend_world : (s.suspend).world = s.world := rfl

/-! ### `State.writeDout` -/

@[simp] theorem State.writeDout_params (p : List Byte) : (s.writeDout p).params = s.params := rfl
@[simp] theorem State.writeDout_cmd (p : List Byte) : (s.writeDout p).cmd = s.cmd := rfl
@[simp] theorem State.writeDout_busy (p : List Byte) : (s.writeDout p).busy = s.busy := rfl
@[simp] theorem State.writeDout_fail (p : List Byte) : (s.writeDout p).fail = s.fail := rfl
@[simp] theorem State.writeDout_err (p : List Byte) : (s.writeDout p).err = s.err := rfl
@[simp] theorem State.writeDout_ops (p : List Byte) : (s.writeDout p).ops = s.ops := rfl
@[simp] theorem State.writeDout_resLen (p : List Byte) : (s.writeDout p).resLen = s.resLen := rfl
@[simp] theorem State.writeDout_resHandle (p : List Byte) : (s.writeDout p).resHandle = s.resHandle := rfl
@[simp] theorem State.writeDout_scratch (p : List Byte) : (s.writeDout p).scratch = s.scratch := rfl
@[simp] theorem State.writeDout_direct (p : List Byte) : (s.writeDout p).direct = s.direct := rfl
@[simp] theorem State.writeDout_regSize (p : List Byte) : (s.writeDout p).regSize = s.regSize := rfl
@[simp] theorem State.writeDout_slots (p : List Byte) : (s.writeDout p).slots = s.slots := rfl
@[simp] theorem State.writeDout_world (p : List Byte) : (s.writeDout p).world = s.world := rfl
@[simp] theorem State.writeDout_host (p : List Byte) : (s.writeDout p).host = s.host := rfl

/-! ### `State.putSession` -/

@[simp] theorem State.putSession_params (k : SessId) (v : Session) : (s.putSession k v).params = s.params := by cases k <;> rfl
@[simp] theorem State.putSession_cmd (k : SessId) (v : Session) : (s.putSession k v).cmd = s.cmd := by cases k <;> rfl
@[simp] theorem State.putSession_busy (k : SessId) (v : Session) : (s.putSession k v).busy = s.busy := by cases k <;> rfl
@[simp] theorem State.putSession_fail (k : SessId) (v : Session) : (s.putSession k v).fail = s.fail := by cases k <;> rfl
@[simp] theorem State.putSession_err (k : SessId) (v : Session) : (s.putSession k v).err = s.err := by cases k <;> rfl
@[simp] theorem State.putSession_ops (k : SessId) (v : Session) : (s.putSession k v).ops = s.ops := by cases k <;> rfl
@[simp] theorem State.putSession_resLen (k : SessId) (v : Session) : (s.putSession k v).resLen = s.resLen := by cases k <;> rfl
@[simp] theorem State.putSession_resHandle (k : SessId) (v : Session) : (s.putSession k v).resHandle = s.resHandle := by cases k <;> rfl
@[simp] theorem State.putSession_mem (k : SessId) (v : Session) : (s.putSession k v).mem = s.mem := by cases k <;> rfl
@[simp] theorem State.putSession_scratch (k : SessId) (v : Session) : (s.putSession k v).scratch = s.scratch := by cases k <;> rfl
@[simp] theorem State.putSession_regSize (k : SessId) (v : Session) : (s.putSession k v).regSize = s.regSize := by cases k <;> rfl
@[simp] theorem State.putSession_world (k : SessId) (v : Session) : (s.putSession k v).world = s.world := by cases k <;> rfl
@[simp] theorem State.putSession_host (k : SessId) (v : Session) : (s.putSession k v).host = s.host := by cases k <;> rfl

/-! ### `State.setSess` -/

@[simp] theorem State.setSess_params (k : SessId) (v : SessState) : (s.setSess k v).params = s.params := by cases k <;> rfl
@[simp] theorem State.setSess_cmd (k : SessId) (v : SessState) : (s.setSess k v).cmd = s.cmd := by cases k <;> rfl
@[simp] theorem State.setSess_busy (k : SessId) (v : SessState) : (s.setSess k v).busy = s.busy := by cases k <;> rfl
@[simp] theorem State.setSess_fail (k : SessId) (v : SessState) : (s.setSess k v).fail = s.fail := by cases k <;> rfl
@[simp] theorem State.setSess_err (k : SessId) (v : SessState) : (s.setSess k v).err = s.err := by cases k <;> rfl
@[simp] theorem State.setSess_ops (k : SessId) (v : SessState) : (s.setSess k v).ops = s.ops := by cases k <;> rfl
@[simp] theorem State.setSess_resLen (k : SessId) (v : SessState) : (s.setSess k v).resLen = s.resLen := by cases k <;> rfl
@[simp] theorem State.setSess_resHandle (k : SessId) (v : SessState) : (s.setSess k v).resHandle = s.resHandle := by cases k <;> rfl
@[simp] theorem State.setSess_mem (k : SessId) (v : SessState) : (s.setSess k v).mem = s.mem := by cases k <;> rfl
@[simp] theorem State.setSess_scratch (k : SessId) (v : SessState) : (s.setSess k v).scratch = s.scratch := by cases k <;> rfl
@[simp] theorem State.setSess_regSize (k : SessId) (v : SessState) : (s.setSess k v).regSize = s.regSize := by cases k <;> rfl
@[simp] theorem State.setSess_world (k : SessId) (v : SessState) : (s.setSess k v).world = s.world := by cases k <;> rfl
@[simp] theorem State.setSess_host (k : SessId) (v : SessState) : (s.setSess k v).host = s.host := by cases k <;> rfl

/-! ### `State.latch` -/

@[simp] theorem State.latch_params (k : SessId) (c : Tuple) : (s.latch k c).params = s.params := by cases k <;> rfl
@[simp] theorem State.latch_cmd (k : SessId) (c : Tuple) : (s.latch k c).cmd = s.cmd := by cases k <;> rfl
@[simp] theorem State.latch_busy (k : SessId) (c : Tuple) : (s.latch k c).busy = s.busy := by cases k <;> rfl
@[simp] theorem State.latch_fail (k : SessId) (c : Tuple) : (s.latch k c).fail = s.fail := by cases k <;> rfl
@[simp] theorem State.latch_err (k : SessId) (c : Tuple) : (s.latch k c).err = s.err := by cases k <;> rfl
@[simp] theorem State.latch_ops (k : SessId) (c : Tuple) : (s.latch k c).ops = s.ops := by cases k <;> rfl
@[simp] theorem State.latch_resLen (k : SessId) (c : Tuple) : (s.latch k c).resLen = s.resLen := by cases k <;> rfl
@[simp] theorem State.latch_resHandle (k : SessId) (c : Tuple) : (s.latch k c).resHandle = s.resHandle := by cases k <;> rfl
@[simp] theorem State.latch_mem (k : SessId) (c : Tuple) : (s.latch k c).mem = s.mem := by cases k <;> rfl
@[simp] theorem State.latch_scratch (k : SessId) (c : Tuple) : (s.latch k c).scratch = s.scratch := by cases k <;> rfl
@[simp] theorem State.latch_regSize (k : SessId) (c : Tuple) : (s.latch k c).regSize = s.regSize := by cases k <;> rfl
@[simp] theorem State.latch_world (k : SessId) (c : Tuple) : (s.latch k c).world = s.world := by cases k <;> rfl
@[simp] theorem State.latch_host (k : SessId) (c : Tuple) : (s.latch k c).host = s.host := by cases k <;> rfl

/-! ### `State.elapse` -/

@[simp] theorem State.elapse_params (ms : Nat) : (s.elapse ms).params = s.params := rfl
@[simp] theorem State.elapse_cmd (ms : Nat) : (s.elapse ms).cmd = s.cmd := rfl
@[simp] theorem State.elapse_busy (ms : Nat) : (s.elapse ms).busy = s.busy := rfl
@[simp] theorem State.elapse_fail (ms : Nat) : (s.elapse ms).fail = s.fail := rfl
@[simp] theorem State.elapse_err (ms : Nat) : (s.elapse ms).err = s.err := rfl
@[simp] theorem State.elapse_ops (ms : Nat) : (s.elapse ms).ops = s.ops := rfl
@[simp] theorem State.elapse_resLen (ms : Nat) : (s.elapse ms).resLen = s.resLen := rfl
@[simp] theorem State.elapse_resHandle (ms : Nat) : (s.elapse ms).resHandle = s.resHandle := rfl
@[simp] theorem State.elapse_mem (ms : Nat) : (s.elapse ms).mem = s.mem := rfl
@[simp] theorem State.elapse_scratch (ms : Nat) : (s.elapse ms).scratch = s.scratch := rfl
@[simp] theorem State.elapse_direct (ms : Nat) : (s.elapse ms).direct = s.direct := rfl
@[simp] theorem State.elapse_regSize (ms : Nat) : (s.elapse ms).regSize = s.regSize := rfl
@[simp] theorem State.elapse_slots (ms : Nat) : (s.elapse ms).slots = s.slots := rfl
@[simp] theorem State.elapse_host (ms : Nat) : (s.elapse ms).host = s.host := rfl

/-! ### `State.setTurns` -/

@[simp] theorem State.setTurns_params (r : List Turn) : (s.setTurns r).params = s.params := rfl
@[simp] theorem State.setTurns_cmd (r : List Turn) : (s.setTurns r).cmd = s.cmd := rfl
@[simp] theorem State.setTurns_busy (r : List Turn) : (s.setTurns r).busy = s.busy := rfl
@[simp] theorem State.setTurns_fail (r : List Turn) : (s.setTurns r).fail = s.fail := rfl
@[simp] theorem State.setTurns_err (r : List Turn) : (s.setTurns r).err = s.err := rfl
@[simp] theorem State.setTurns_ops (r : List Turn) : (s.setTurns r).ops = s.ops := rfl
@[simp] theorem State.setTurns_resLen (r : List Turn) : (s.setTurns r).resLen = s.resLen := rfl
@[simp] theorem State.setTurns_resHandle (r : List Turn) : (s.setTurns r).resHandle = s.resHandle := rfl
@[simp] theorem State.setTurns_mem (r : List Turn) : (s.setTurns r).mem = s.mem := rfl
@[simp] theorem State.setTurns_scratch (r : List Turn) : (s.setTurns r).scratch = s.scratch := rfl
@[simp] theorem State.setTurns_direct (r : List Turn) : (s.setTurns r).direct = s.direct := rfl
@[simp] theorem State.setTurns_regSize (r : List Turn) : (s.setTurns r).regSize = s.regSize := rfl
@[simp] theorem State.setTurns_slots (r : List Turn) : (s.setTurns r).slots = s.slots := rfl
@[simp] theorem State.setTurns_host (r : List Turn) : (s.setTurns r).host = s.host := rfl

/-! ### `State.beginTurn` -/

@[simp] theorem State.beginTurn_params (k : SessId) (t : Turn) (r : List Turn) : (s.beginTurn k t r).params = s.params := by cases k <;> rfl
@[simp] theorem State.beginTurn_cmd (k : SessId) (t : Turn) (r : List Turn) : (s.beginTurn k t r).cmd = s.cmd := by cases k <;> rfl
@[simp] theorem State.beginTurn_busy (k : SessId) (t : Turn) (r : List Turn) : (s.beginTurn k t r).busy = s.busy := by cases k <;> rfl
@[simp] theorem State.beginTurn_fail (k : SessId) (t : Turn) (r : List Turn) : (s.beginTurn k t r).fail = s.fail := by cases k <;> rfl
@[simp] theorem State.beginTurn_err (k : SessId) (t : Turn) (r : List Turn) : (s.beginTurn k t r).err = s.err := by cases k <;> rfl
@[simp] theorem State.beginTurn_ops (k : SessId) (t : Turn) (r : List Turn) : (s.beginTurn k t r).ops = s.ops := by cases k <;> rfl
@[simp] theorem State.beginTurn_resLen (k : SessId) (t : Turn) (r : List Turn) : (s.beginTurn k t r).resLen = s.resLen := by cases k <;> rfl
@[simp] theorem State.beginTurn_resHandle (k : SessId) (t : Turn) (r : List Turn) : (s.beginTurn k t r).resHandle = s.resHandle := by cases k <;> rfl
@[simp] theorem State.beginTurn_mem (k : SessId) (t : Turn) (r : List Turn) : (s.beginTurn k t r).mem = s.mem := by cases k <;> rfl
@[simp] theorem State.beginTurn_scratch (k : SessId) (t : Turn) (r : List Turn) : (s.beginTurn k t r).scratch = s.scratch := by cases k <;> rfl
@[simp] theorem State.beginTurn_regSize (k : SessId) (t : Turn) (r : List Turn) : (s.beginTurn k t r).regSize = s.regSize := by cases k <;> rfl
@[simp] theorem State.beginTurn_host (k : SessId) (t : Turn) (r : List Turn) : (s.beginTurn k t r).host = s.host := by cases k <;> rfl

/-! ### `State.endCall` -/

@[simp] theorem State.endCall_params (k : SessId) (c : Call) (x : Transport) : (s.endCall k c x).params = s.params := by cases k <;> rfl
@[simp] theorem State.endCall_cmd (k : SessId) (c : Call) (x : Transport) : (s.endCall k c x).cmd = s.cmd := by cases k <;> rfl
@[simp] theorem State.endCall_busy (k : SessId) (c : Call) (x : Transport) : (s.endCall k c x).busy = s.busy := by cases k <;> rfl
@[simp] theorem State.endCall_fail (k : SessId) (c : Call) (x : Transport) : (s.endCall k c x).fail = s.fail := by cases k <;> rfl
@[simp] theorem State.endCall_err (k : SessId) (c : Call) (x : Transport) : (s.endCall k c x).err = s.err := by cases k <;> rfl
@[simp] theorem State.endCall_ops (k : SessId) (c : Call) (x : Transport) : (s.endCall k c x).ops = s.ops := by cases k <;> rfl
@[simp] theorem State.endCall_resLen (k : SessId) (c : Call) (x : Transport) : (s.endCall k c x).resLen = s.resLen := by cases k <;> rfl
@[simp] theorem State.endCall_resHandle (k : SessId) (c : Call) (x : Transport) : (s.endCall k c x).resHandle = s.resHandle := by cases k <;> rfl
@[simp] theorem State.endCall_mem (k : SessId) (c : Call) (x : Transport) : (s.endCall k c x).mem = s.mem := by cases k <;> rfl
@[simp] theorem State.endCall_scratch (k : SessId) (c : Call) (x : Transport) : (s.endCall k c x).scratch = s.scratch := by cases k <;> rfl
@[simp] theorem State.endCall_regSize (k : SessId) (c : Call) (x : Transport) : (s.endCall k c x).regSize = s.regSize := by cases k <;> rfl
@[simp] theorem State.endCall_host (k : SessId) (c : Call) (x : Transport) : (s.endCall k c x).host = s.host := by cases k <;> rfl

/-! ### `State.setOcc` -/

@[simp] theorem State.setOcc_params (h : Nat) (v : Bool) : (s.setOcc h v).params = s.params := rfl
@[simp] theorem State.setOcc_cmd (h : Nat) (v : Bool) : (s.setOcc h v).cmd = s.cmd := rfl
@[simp] theorem State.setOcc_busy (h : Nat) (v : Bool) : (s.setOcc h v).busy = s.busy := rfl
@[simp] theorem State.setOcc_fail (h : Nat) (v : Bool) : (s.setOcc h v).fail = s.fail := rfl
@[simp] theorem State.setOcc_err (h : Nat) (v : Bool) : (s.setOcc h v).err = s.err := rfl
@[simp] theorem State.setOcc_ops (h : Nat) (v : Bool) : (s.setOcc h v).ops = s.ops := rfl
@[simp] theorem State.setOcc_resLen (h : Nat) (v : Bool) : (s.setOcc h v).resLen = s.resLen := rfl
@[simp] theorem State.setOcc_resHandle (h : Nat) (v : Bool) : (s.setOcc h v).resHandle = s.resHandle := rfl
@[simp] theorem State.setOcc_mem (h : Nat) (v : Bool) : (s.setOcc h v).mem = s.mem := rfl
@[simp] theorem State.setOcc_scratch (h : Nat) (v : Bool) : (s.setOcc h v).scratch = s.scratch := rfl
@[simp] theorem State.setOcc_direct (h : Nat) (v : Bool) : (s.setOcc h v).direct = s.direct := rfl
@[simp] theorem State.setOcc_regSize (h : Nat) (v : Bool) : (s.setOcc h v).regSize = s.regSize := rfl
@[simp] theorem State.setOcc_world (h : Nat) (v : Bool) : (s.setOcc h v).world = s.world := rfl
@[simp] theorem State.setOcc_host (h : Nat) (v : Bool) : (s.setOcc h v).host = s.host := rfl

/-! ### `State.noHandle` -/

@[simp] theorem State.noHandle_params : (s.noHandle).params = s.params := rfl
@[simp] theorem State.noHandle_cmd : (s.noHandle).cmd = s.cmd := rfl
@[simp] theorem State.noHandle_busy : (s.noHandle).busy = s.busy := rfl
@[simp] theorem State.noHandle_fail : (s.noHandle).fail = s.fail := rfl
@[simp] theorem State.noHandle_err : (s.noHandle).err = s.err := rfl
@[simp] theorem State.noHandle_ops : (s.noHandle).ops = s.ops := rfl
@[simp] theorem State.noHandle_resLen : (s.noHandle).resLen = s.resLen := rfl
@[simp] theorem State.noHandle_mem : (s.noHandle).mem = s.mem := rfl
@[simp] theorem State.noHandle_scratch : (s.noHandle).scratch = s.scratch := rfl
@[simp] theorem State.noHandle_direct : (s.noHandle).direct = s.direct := rfl
@[simp] theorem State.noHandle_regSize : (s.noHandle).regSize = s.regSize := rfl
@[simp] theorem State.noHandle_slots : (s.noHandle).slots = s.slots := rfl
@[simp] theorem State.noHandle_world : (s.noHandle).world = s.world := rfl
@[simp] theorem State.noHandle_host : (s.noHandle).host = s.host := rfl

/-! ### `State.giveHandle` -/

@[simp] theorem State.giveHandle_params (h : Nat) : (s.giveHandle h).params = s.params := by unfold State.giveHandle; split <;> rfl
@[simp] theorem State.giveHandle_cmd (h : Nat) : (s.giveHandle h).cmd = s.cmd := by unfold State.giveHandle; split <;> rfl
@[simp] theorem State.giveHandle_busy (h : Nat) : (s.giveHandle h).busy = s.busy := by unfold State.giveHandle; split <;> rfl
@[simp] theorem State.giveHandle_fail (h : Nat) : (s.giveHandle h).fail = s.fail := by unfold State.giveHandle; split <;> rfl
@[simp] theorem State.giveHandle_err (h : Nat) : (s.giveHandle h).err = s.err := by unfold State.giveHandle; split <;> rfl
@[simp] theorem State.giveHandle_ops (h : Nat) : (s.giveHandle h).ops = s.ops := by unfold State.giveHandle; split <;> rfl
@[simp] theorem State.giveHandle_resLen (h : Nat) : (s.giveHandle h).resLen = s.resLen := by unfold State.giveHandle; split <;> rfl
@[simp] theorem State.giveHandle_mem (h : Nat) : (s.giveHandle h).mem = s.mem := by unfold State.giveHandle; split <;> rfl
@[simp] theorem State.giveHandle_scratch (h : Nat) : (s.giveHandle h).scratch = s.scratch := by unfold State.giveHandle; split <;> rfl
@[simp] theorem State.giveHandle_direct (h : Nat) : (s.giveHandle h).direct = s.direct := by unfold State.giveHandle; split <;> rfl
@[simp] theorem State.giveHandle_regSize (h : Nat) : (s.giveHandle h).regSize = s.regSize := by unfold State.giveHandle; split <;> rfl
@[simp] theorem State.giveHandle_slots (h : Nat) : (s.giveHandle h).slots = s.slots := by unfold State.giveHandle; split <;> rfl
@[simp] theorem State.giveHandle_world (h : Nat) : (s.giveHandle h).world = s.world := by unfold State.giveHandle; split <;> rfl

/-! ### `State.loadTx` -/

@[simp] theorem State.loadTx_params (f : List Byte) : (s.loadTx f).params = s.params := rfl
@[simp] theorem State.loadTx_cmd (f : List Byte) : (s.loadTx f).cmd = s.cmd := rfl
@[simp] theorem State.loadTx_busy (f : List Byte) : (s.loadTx f).busy = s.busy := rfl
@[simp] theorem State.loadTx_fail (f : List Byte) : (s.loadTx f).fail = s.fail := rfl
@[simp] theorem State.loadTx_err (f : List Byte) : (s.loadTx f).err = s.err := rfl
@[simp] theorem State.loadTx_ops (f : List Byte) : (s.loadTx f).ops = s.ops := rfl
@[simp] theorem State.loadTx_resLen (f : List Byte) : (s.loadTx f).resLen = s.resLen := rfl
@[simp] theorem State.loadTx_resHandle (f : List Byte) : (s.loadTx f).resHandle = s.resHandle := rfl
@[simp] theorem State.loadTx_mem (f : List Byte) : (s.loadTx f).mem = s.mem := rfl
@[simp] theorem State.loadTx_direct (f : List Byte) : (s.loadTx f).direct = s.direct := rfl
@[simp] theorem State.loadTx_regSize (f : List Byte) : (s.loadTx f).regSize = s.regSize := rfl
@[simp] theorem State.loadTx_slots (f : List Byte) : (s.loadTx f).slots = s.slots := rfl
@[simp] theorem State.loadTx_world (f : List Byte) : (s.loadTx f).world = s.world := rfl
@[simp] theorem State.loadTx_host (f : List Byte) : (s.loadTx f).host = s.host := rfl

/-! ### `State.startRead` -/

@[simp] theorem State.startRead_params : (s.startRead).params = s.params := rfl
@[simp] theorem State.startRead_cmd : (s.startRead).cmd = s.cmd := rfl
@[simp] theorem State.startRead_busy : (s.startRead).busy = s.busy := rfl
@[simp] theorem State.startRead_fail : (s.startRead).fail = s.fail := rfl
@[simp] theorem State.startRead_err : (s.startRead).err = s.err := rfl
@[simp] theorem State.startRead_ops : (s.startRead).ops = s.ops := rfl
@[simp] theorem State.startRead_resLen : (s.startRead).resLen = s.resLen := rfl
@[simp] theorem State.startRead_resHandle : (s.startRead).resHandle = s.resHandle := rfl
@[simp] theorem State.startRead_mem : (s.startRead).mem = s.mem := rfl
@[simp] theorem State.startRead_direct : (s.startRead).direct = s.direct := rfl
@[simp] theorem State.startRead_regSize : (s.startRead).regSize = s.regSize := rfl
@[simp] theorem State.startRead_slots : (s.startRead).slots = s.slots := rfl
@[simp] theorem State.startRead_world : (s.startRead).world = s.world := rfl
@[simp] theorem State.startRead_host : (s.startRead).host = s.host := rfl

/-! ### `State.beginRead` -/

@[simp] theorem State.beginRead_params : (s.beginRead).params = s.params := rfl
@[simp] theorem State.beginRead_cmd : (s.beginRead).cmd = s.cmd := rfl
@[simp] theorem State.beginRead_busy : (s.beginRead).busy = s.busy := rfl
@[simp] theorem State.beginRead_fail : (s.beginRead).fail = s.fail := rfl
@[simp] theorem State.beginRead_err : (s.beginRead).err = s.err := rfl
@[simp] theorem State.beginRead_ops : (s.beginRead).ops = s.ops := rfl
@[simp] theorem State.beginRead_resLen : (s.beginRead).resLen = s.resLen := rfl
@[simp] theorem State.beginRead_resHandle : (s.beginRead).resHandle = s.resHandle := rfl
@[simp] theorem State.beginRead_mem : (s.beginRead).mem = s.mem := rfl
@[simp] theorem State.beginRead_direct : (s.beginRead).direct = s.direct := rfl
@[simp] theorem State.beginRead_regSize : (s.beginRead).regSize = s.regSize := rfl
@[simp] theorem State.beginRead_slots : (s.beginRead).slots = s.slots := rfl
@[simp] theorem State.beginRead_host : (s.beginRead).host = s.host := rfl

/-! ### `State.appendAcc` -/

@[simp] theorem State.appendAcc_params (c : List Byte) : (s.appendAcc c).params = s.params := rfl
@[simp] theorem State.appendAcc_cmd (c : List Byte) : (s.appendAcc c).cmd = s.cmd := rfl
@[simp] theorem State.appendAcc_busy (c : List Byte) : (s.appendAcc c).busy = s.busy := rfl
@[simp] theorem State.appendAcc_fail (c : List Byte) : (s.appendAcc c).fail = s.fail := rfl
@[simp] theorem State.appendAcc_err (c : List Byte) : (s.appendAcc c).err = s.err := rfl
@[simp] theorem State.appendAcc_ops (c : List Byte) : (s.appendAcc c).ops = s.ops := rfl
@[simp] theorem State.appendAcc_resLen (c : List Byte) : (s.appendAcc c).resLen = s.resLen := rfl
@[simp] theorem State.appendAcc_resHandle (c : List Byte) : (s.appendAcc c).resHandle = s.resHandle := rfl
@[simp] theorem State.appendAcc_mem (c : List Byte) : (s.appendAcc c).mem = s.mem := rfl
@[simp] theorem State.appendAcc_direct (c : List Byte) : (s.appendAcc c).direct = s.direct := rfl
@[simp] theorem State.appendAcc_regSize (c : List Byte) : (s.appendAcc c).regSize = s.regSize := rfl
@[simp] theorem State.appendAcc_slots (c : List Byte) : (s.appendAcc c).slots = s.slots := rfl
@[simp] theorem State.appendAcc_world (c : List Byte) : (s.appendAcc c).world = s.world := rfl
@[simp] theorem State.appendAcc_host (c : List Byte) : (s.appendAcc c).host = s.host := rfl

/-! ### `State.vacate` -/

@[simp] theorem State.vacate_params (h : Nat) : (s.vacate h).params = s.params := rfl
@[simp] theorem State.vacate_cmd (h : Nat) : (s.vacate h).cmd = s.cmd := rfl
@[simp] theorem State.vacate_busy (h : Nat) : (s.vacate h).busy = s.busy := rfl
@[simp] theorem State.vacate_fail (h : Nat) : (s.vacate h).fail = s.fail := rfl
@[simp] theorem State.vacate_err (h : Nat) : (s.vacate h).err = s.err := rfl
@[simp] theorem State.vacate_ops (h : Nat) : (s.vacate h).ops = s.ops := rfl
@[simp] theorem State.vacate_resLen (h : Nat) : (s.vacate h).resLen = s.resLen := rfl
@[simp] theorem State.vacate_resHandle (h : Nat) : (s.vacate h).resHandle = s.resHandle := rfl
@[simp] theorem State.vacate_mem (h : Nat) : (s.vacate h).mem = s.mem := rfl
@[simp] theorem State.vacate_scratch (h : Nat) : (s.vacate h).scratch = s.scratch := rfl
@[simp] theorem State.vacate_direct (h : Nat) : (s.vacate h).direct = s.direct := rfl
@[simp] theorem State.vacate_regSize (h : Nat) : (s.vacate h).regSize = s.regSize := rfl
@[simp] theorem State.vacate_world (h : Nat) : (s.vacate h).world = s.world := rfl
@[simp] theorem State.vacate_host (h : Nat) : (s.vacate h).host = s.host := rfl

/-! ### `State.returnRead` -/

@[simp] theorem State.returnRead_params (v : Word) : (s.returnRead v).params = s.params := rfl
@[simp] theorem State.returnRead_cmd (v : Word) : (s.returnRead v).cmd = s.cmd := rfl
@[simp] theorem State.returnRead_busy (v : Word) : (s.returnRead v).busy = s.busy := rfl
@[simp] theorem State.returnRead_fail (v : Word) : (s.returnRead v).fail = s.fail := rfl
@[simp] theorem State.returnRead_err (v : Word) : (s.returnRead v).err = s.err := rfl
@[simp] theorem State.returnRead_ops (v : Word) : (s.returnRead v).ops = s.ops := rfl
@[simp] theorem State.returnRead_resLen (v : Word) : (s.returnRead v).resLen = s.resLen := rfl
@[simp] theorem State.returnRead_resHandle (v : Word) : (s.returnRead v).resHandle = s.resHandle := rfl
@[simp] theorem State.returnRead_mem (v : Word) : (s.returnRead v).mem = s.mem := rfl
@[simp] theorem State.returnRead_scratch (v : Word) : (s.returnRead v).scratch = s.scratch := rfl
@[simp] theorem State.returnRead_direct (v : Word) : (s.returnRead v).direct = s.direct := rfl
@[simp] theorem State.returnRead_regSize (v : Word) : (s.returnRead v).regSize = s.regSize := rfl
@[simp] theorem State.returnRead_slots (v : Word) : (s.returnRead v).slots = s.slots := rfl
@[simp] theorem State.returnRead_world (v : Word) : (s.returnRead v).world = s.world := rfl

/-! ### What each update sets -/

@[simp] theorem State.raise_fail (f : Failure) : (s.raise f).fail = f := rfl
@[simp] theorem State.raise_err (f : Failure) : (s.raise f).err = f.translate := rfl
@[simp] theorem State.raise_resLen (f : Failure) : (s.raise f).resLen = 0 := rfl
@[simp] theorem State.raise_busy (f : Failure) : (s.raise f).busy = false := rfl
@[simp] theorem State.done_fail (n : Nat) : (s.done n).fail = .none := rfl
@[simp] theorem State.done_err (n : Nat) : (s.done n).err = .none := rfl
@[simp] theorem State.done_resLen (n : Nat) : (s.done n).resLen = BitVec.ofNat 16 n := rfl
@[simp] theorem State.done_busy (n : Nat) : (s.done n).busy = false := rfl
@[simp] theorem State.issue_cmd (w : Word) : (s.issue w).cmd = opcodeOf w := rfl
@[simp] theorem State.issue_busy (w : Word) : (s.issue w).busy = true := rfl
@[simp] theorem State.issue_host (w : Word) : (s.issue w).host = { s.host with yielded := false, shown := s.direct.state } := rfl
@[simp] theorem State.suspend_busy : s.suspend.busy = true := rfl
@[simp] theorem State.suspend_host : s.suspend.host = { s.host with yielded := true } := rfl
@[simp] theorem State.writeDout_mem (p : List Byte) : (s.writeDout p).mem = s.mem.writeBytes doutBase p := rfl
@[simp] theorem State.elapse_world (ms : Nat) : (s.elapse ms).world = { s.world with now := s.world.now + BitVec.ofNat Config.timerW ms } := rfl
@[simp] theorem State.setTurns_world (r : List Turn) : (s.setTurns r).world = { s.world with turns := r } := rfl
@[simp] theorem State.setOcc_slots (h : Nat) (v : Bool) : (s.setOcc h v).slots = putSlot s.slots h { slotAt s.slots h with occ := v } := rfl
@[simp] theorem State.noHandle_resHandle : s.noHandle.resHandle = 0xFFFFFFFF#32 := rfl
@[simp] theorem State.loadTx_txbuf (f : List Byte) : (s.loadTx f).scratch.txbuf = s.scratch.txbuf.writeBytes 0 f := rfl
@[simp] theorem State.loadTx_txLen (f : List Byte) : (s.loadTx f).scratch.txLen = f.length := rfl
@[simp] theorem State.loadTx_acc (f : List Byte) : (s.loadTx f).scratch.acc = s.scratch.acc := rfl
@[simp] theorem State.loadTx_accLen (f : List Byte) : (s.loadTx f).scratch.accLen = s.scratch.accLen := rfl
@[simp] theorem State.loadTx_t0 (f : List Byte) : (s.loadTx f).scratch.t0 = s.scratch.t0 := rfl
@[simp] theorem State.startRead_txbuf : s.startRead.scratch.txbuf = s.scratch.txbuf := rfl
@[simp] theorem State.startRead_txLen : s.startRead.scratch.txLen = s.scratch.txLen := rfl
@[simp] theorem State.startRead_acc : s.startRead.scratch.acc = s.scratch.acc := rfl
@[simp] theorem State.startRead_accLen : s.startRead.scratch.accLen = 0 := rfl
@[simp] theorem State.startRead_t0 : s.startRead.scratch.t0 = s.world.now := rfl
@[simp] theorem State.beginRead_scratch : s.beginRead.scratch = s.startRead.scratch := rfl
@[simp] theorem State.beginRead_world : s.beginRead.world = { s.world with now := s.world.now + BitVec.ofNat Config.timerW s.lead, starts := s.world.starts.tail, waited := 0 } := rfl
@[simp] theorem State.appendAcc_txbuf (c : List Byte) : (s.appendAcc c).scratch.txbuf = s.scratch.txbuf := rfl
@[simp] theorem State.appendAcc_txLen (c : List Byte) : (s.appendAcc c).scratch.txLen = s.scratch.txLen := rfl
@[simp] theorem State.appendAcc_acc (c : List Byte) : (s.appendAcc c).scratch.acc = s.scratch.acc.writeBytes s.scratch.accLen c := rfl
@[simp] theorem State.appendAcc_accLen (c : List Byte) : (s.appendAcc c).scratch.accLen = s.scratch.accLen + c.length := rfl
@[simp] theorem State.appendAcc_t0 (c : List Byte) : (s.appendAcc c).scratch.t0 = s.scratch.t0 := rfl
@[simp] theorem State.returnRead_host (v : Word) : (s.returnRead v).host = { s.host with rdata := v, fresh := s.host.fresh + 1 } := rfl
@[simp] theorem State.beginTurn_now (k : SessId) (t : Turn) (r : List Turn) : (s.beginTurn k t r).world.now = s.world.now := by cases k <;> rfl
@[simp] theorem State.beginTurn_starts (k : SessId) (t : Turn) (r : List Turn) : (s.beginTurn k t r).world.starts = s.world.starts := by cases k <;> rfl
@[simp] theorem State.beginTurn_waited (k : SessId) (t : Turn) (r : List Turn) : (s.beginTurn k t r).world.waited = s.world.waited := by cases k <;> rfl
@[simp] theorem State.beginTurn_turns (k : SessId) (t : Turn) (r : List Turn) : (s.beginTurn k t r).world.turns = r := by cases k <;> rfl
@[simp] theorem State.beginTurn_log (k : SessId) (t : Turn) (r : List Turn) : (s.beginTurn k t r).world.log = s.world.log := by cases k <;> rfl
@[simp] theorem State.endCall_now (k : SessId) (c : Call) (x : Transport) : (s.endCall k c x).world.now = s.world.now := by cases k <;> rfl
@[simp] theorem State.endCall_starts (k : SessId) (c : Call) (x : Transport) : (s.endCall k c x).world.starts = s.world.starts := by cases k <;> rfl
@[simp] theorem State.endCall_waited (k : SessId) (c : Call) (x : Transport) : (s.endCall k c x).world.waited = 0 := by cases k <;> rfl
@[simp] theorem State.endCall_turns (k : SessId) (c : Call) (x : Transport) : (s.endCall k c x).world.turns = s.world.turns := by cases k <;> rfl
@[simp] theorem State.endCall_log (k : SessId) (c : Call) (x : Transport) : (s.endCall k c x).world.log = (k, c) :: s.world.log := by cases k <;> rfl

end Sys2Proof.Machine
end

