-- ==== Sys2Proof/Laws/Sessions.lean ====
section
/-! SUPPORT. Slots and Sessions: what reading gives after writing, for the slot list and for the Session of a command. -/

namespace Sys2Proof.Machine

/-! ## The slot list -/

@[simp] theorem slotAt_nil (h : Nat) : slotAt [] h = Slot.empty := by cases h <;> rfl

@[simp] theorem slotAt_putSlot_self (l : List Slot) (h : Nat) (v : Slot) : slotAt (putSlot l h v) h = v := by
  induction h generalizing l with
  | zero => cases l <;> rfl
  | succ h ih => cases l with
    | nil => exact ih []
    | cons x xs => exact ih xs

theorem slotAt_putSlot_ne {l : List Slot} {h j : Nat} (v : Slot) (e : j ≠ h) :
    slotAt (putSlot l h v) j = slotAt l j := by
  induction h generalizing l j with
  | zero =>
    obtain ⟨j, rfl⟩ := Nat.exists_eq_succ_of_ne_zero e
    cases l with
    | nil => simp [putSlot, slotAt]
    | cons x xs => rfl
  | succ h ih =>
    cases l with
    | nil =>
      cases j with
      | zero => rfl
      | succ j => simpa [putSlot, slotAt] using ih (l := []) (j := j) (by omega)
    | cons x xs =>
      cases j with
      | zero => rfl
      | succ j => exact ih (l := xs) (j := j) (by omega)

theorem slotAt_putSlot (l : List Slot) (h j : Nat) (v : Slot) :
    slotAt (putSlot l h v) j = if j = h then v else slotAt l j := by
  split
  · next e => rw [e, slotAt_putSlot_self]
  · next e => exact slotAt_putSlot_ne v e

theorem putSlot_putSlot (l : List Slot) (h : Nat) (v w : Slot) : putSlot (putSlot l h v) h w = putSlot l h w := by
  induction h generalizing l with
  | zero => cases l <;> rfl
  | succ h ih => cases l with
    | nil => simp [putSlot, ih]
    | cons x xs => simp [putSlot, ih]

/-! ## The Session of a command -/

variable (s : State)

@[simp] theorem State.session_direct : s.session .direct = s.direct := rfl

@[simp] theorem State.session_slot (h : Nat) : s.session (.slot h) = (slotAt s.slots h).session := rfl

/-- The Sessions depend on the direct Session and the slots only. -/
theorem State.session_congr {s t : State} (hd : t.direct = s.direct) (hs : t.slots = s.slots) (k : SessId) :
    t.session k = s.session k := by
  cases k <;> simp [hd, hs]

@[simp] theorem State.session_putSession_self (k : SessId) (v : Session) :
    (s.putSession k v).session k = v := by
  cases k <;> simp [State.putSession]

theorem State.session_putSession_ne {j k : SessId} (v : Session) (e : j ≠ k) :
    (s.putSession k v).session j = s.session j := by
  cases k with
  | direct =>
    cases j with
    | direct => exact absurd rfl e
    | slot j => rfl
  | slot h =>
    cases j with
    | direct => rfl
    | slot j =>
      have : j ≠ h := fun e' => e (by rw [e'])
      simp [State.putSession, slotAt_putSlot_ne _ this]

@[simp] theorem State.occ_putSession (k : SessId) (v : Session) (h : Nat) :
    (slotAt (s.putSession k v).slots h).occ = (slotAt s.slots h).occ := by
  cases k with
  | direct => rfl
  | slot j =>
    simp only [State.putSession, slotAt_putSlot]
    split
    · next e => rw [e]
    · rfl

@[simp] theorem State.occ_setSess (k : SessId) (v : SessState) (h : Nat) :
    (slotAt (s.setSess k v).slots h).occ = (slotAt s.slots h).occ := s.occ_putSession k _ h

@[simp] theorem State.occ_latch (k : SessId) (c : Tuple) (h : Nat) :
    (slotAt (s.latch k c).slots h).occ = (slotAt s.slots h).occ := s.occ_putSession k _ h

@[simp] theorem State.occ_beginTurn (k : SessId) (t : Turn) (r : List Turn) (h : Nat) :
    (slotAt (s.beginTurn k t r).slots h).occ = (slotAt s.slots h).occ := State.occ_putSession _ k _ h

@[simp] theorem State.occ_endCall (k : SessId) (c : Call) (x : Transport) (h : Nat) :
    (slotAt (s.endCall k c x).slots h).occ = (slotAt s.slots h).occ := State.occ_putSession _ k _ h

theorem State.session_setSess_ne {j k : SessId} (v : SessState) (e : j ≠ k) :
    (s.setSess k v).session j = s.session j := s.session_putSession_ne _ e

theorem State.session_latch_ne {j k : SessId} (c : Tuple) (e : j ≠ k) :
    (s.latch k c).session j = s.session j := s.session_putSession_ne _ e

@[simp] theorem State.session_setSess_self (k : SessId) (v : SessState) :
    (s.setSess k v).session k = { s.session k with state := v } := s.session_putSession_self k _

@[simp] theorem State.session_latch_self (k : SessId) (c : Tuple) :
    (s.latch k c).session k = { s.session k with acfg := c, state := .configured } :=
  s.session_putSession_self k _

@[simp] theorem State.session_elapse (ms : Nat) (k : SessId) : (s.elapse ms).session k = s.session k :=
  State.session_congr rfl rfl k

@[simp] theorem State.session_setTurns (r : List Turn) (k : SessId) :
    (s.setTurns r).session k = s.session k := State.session_congr rfl rfl k

@[simp] theorem State.session_beginTurn_self (k : SessId) (t : Turn) (r : List Turn) :
    (s.beginTurn k t r).session k =
      { s.session k with transport := (s.session k).transport.world t } := by
  cases k <;> simp [State.beginTurn, State.putSession]

theorem State.session_beginTurn_ne {j k : SessId} (t : Turn) (r : List Turn) (e : j ≠ k) :
    (s.beginTurn k t r).session j = s.session j := by
  unfold State.beginTurn
  rw [State.session_putSession_ne _ _ e, State.session_setTurns]

@[simp] theorem State.session_endCall_self (k : SessId) (c : Call) (x : Transport) :
    (s.endCall k c x).session k = { s.session k with transport := x } := by
  cases k <;> simp [State.endCall, State.putSession]

theorem State.session_endCall_ne {j k : SessId} (c : Call) (x : Transport) (e : j ≠ k) :
    (s.endCall k c x).session j = s.session j := by
  have : (s.endCall k c x).session j = (s.putSession k { s.session k with transport := x }).session j :=
    State.session_congr rfl rfl j
  rw [this, State.session_putSession_ne _ _ e]

@[simp] theorem State.session_raise (f : Failure) (k : SessId) : (s.raise f).session k = s.session k :=
  State.session_congr rfl rfl k

@[simp] theorem State.session_done (n : Nat) (k : SessId) : (s.done n).session k = s.session k :=
  State.session_congr rfl rfl k

@[simp] theorem State.session_suspend (k : SessId) : s.suspend.session k = s.session k :=
  State.session_congr rfl rfl k

@[simp] theorem State.session_writeDout (p : List Byte) (k : SessId) :
    (s.writeDout p).session k = s.session k := State.session_congr rfl rfl k

@[simp] theorem State.session_loadTx (f : List Byte) (k : SessId) : (s.loadTx f).session k = s.session k :=
  State.session_congr rfl rfl k

@[simp] theorem State.session_startRead (k : SessId) : s.startRead.session k = s.session k :=
  State.session_congr rfl rfl k

@[simp] theorem State.session_beginRead (k : SessId) : s.beginRead.session k = s.session k :=
  State.session_congr rfl rfl k

@[simp] theorem State.session_appendAcc (c : List Byte) (k : SessId) :
    (s.appendAcc c).session k = s.session k := State.session_congr rfl rfl k

@[simp] theorem State.session_noHandle (k : SessId) : s.noHandle.session k = s.session k :=
  State.session_congr rfl rfl k

@[simp] theorem State.session_giveHandle (h : Nat) (k : SessId) :
    (s.giveHandle h).session k = s.session k := State.session_congr (by simp) (by simp) k

@[simp] theorem State.session_setOcc (h : Nat) (v : Bool) (k : SessId) :
    (s.setOcc h v).session k = s.session k := by
  cases k with
  | direct => rfl
  | slot j =>
    simp only [State.session_slot, State.setOcc_slots, slotAt_putSlot]
    split
    · next e => rw [e]
    · rfl

/-- `OCC[h] <- v` sets that slot's bit. -/
@[simp] theorem State.occ_setOcc_self (h : Nat) (v : Bool) : (slotAt (s.setOcc h v).slots h).occ = v := by
  simp

theorem State.occ_setOcc_ne {h j : Nat} (v : Bool) (e : j ≠ h) :
    slotAt (s.setOcc h v).slots j = slotAt s.slots j := by
  simp [slotAt_putSlot_ne _ e]

/-! ## What a function of a Session may change -/

/-- `u` differs from `s` only in what a function of Session `k` may change: `BUSY` and the host's turn (waiting), the
scratch state, that Session, and the environment. -/
structure Within (k : SessId) (s u : State) : Prop where
  params : u.params = s.params
  cmd : u.cmd = s.cmd
  fail : u.fail = s.fail
  err : u.err = s.err
  ops : u.ops = s.ops
  resLen : u.resLen = s.resLen
  resHandle : u.resHandle = s.resHandle
  mem : u.mem = s.mem
  regSize : u.regSize = s.regSize
  occ : ∀ h, (slotAt u.slots h).occ = (slotAt s.slots h).occ
  others : ∀ j, j ≠ k → u.session j = s.session j
  host : { u.host with yielded := s.host.yielded } = s.host
  log : ∃ calls, u.world.log = calls ++ s.world.log ∧ ∀ c ∈ calls, c.1 = k

theorem Within.refl (k : SessId) (s : State) : Within k s s :=
  ⟨rfl, rfl, rfl, rfl, rfl, rfl, rfl, rfl, rfl, fun _ => rfl, fun _ _ => rfl, rfl, [], rfl, by simp⟩

theorem Within.trans {k : SessId} {s t u : State} (h : Within k s t) (g : Within k t u) : Within k s u where
  params := g.params.trans h.params
  cmd := g.cmd.trans h.cmd
  fail := g.fail.trans h.fail
  err := g.err.trans h.err
  ops := g.ops.trans h.ops
  resLen := g.resLen.trans h.resLen
  resHandle := g.resHandle.trans h.resHandle
  mem := g.mem.trans h.mem
  regSize := g.regSize.trans h.regSize
  occ j := (g.occ j).trans (h.occ j)
  others j e := (g.others j e).trans (h.others j e)
  host := by
    have h1 := h.host
    have h2 := g.host
    rw [← h1, ← h2]
  log := by
    obtain ⟨a, ha, ka⟩ := h.log
    obtain ⟨b, hb, kb⟩ := g.log
    refine ⟨b ++ a, by rw [hb, ha, List.append_assoc], fun c hc => ?_⟩
    rcases List.mem_append.mp hc with hc | hc
    · exact kb c hc
    · exact ka c hc

theorem Within.putSession (k : SessId) (v : Session) (s : State) : Within k s (s.putSession k v) where
  params := by simp
  cmd := by simp
  fail := by simp
  err := by simp
  ops := by simp
  resLen := by simp
  resHandle := by simp
  mem := by simp
  regSize := by simp
  occ := by simp
  others j e := s.session_putSession_ne v e
  host := by simp
  log := ⟨[], by simp, by simp⟩

/-- A state that agrees with another but for the environment, the scratch state, `BUSY` and the host's turn. -/
theorem Within.of_sessions {k : SessId} {s u : State}
    (h : ∃ b n r z m c y, u = { s with
      busy := b, world := { s.world with now := n, turns := r, starts := z, waited := m }, scratch := c
      host := { s.host with yielded := y } }) : Within k s u := by
  obtain ⟨b, n, r, z, m, c, y, rfl⟩ := h
  exact ⟨rfl, rfl, rfl, rfl, rfl, rfl, rfl, rfl, rfl, fun _ => rfl, fun j _ => by cases j <;> rfl, rfl,
    [], rfl, by simp⟩

theorem Within.setSess (k : SessId) (v : SessState) (s : State) : Within k s (s.setSess k v) :=
  Within.putSession k _ s

theorem Within.latch (k : SessId) (c : Tuple) (s : State) : Within k s (s.latch k c) :=
  Within.putSession k _ s

theorem Within.elapse (k : SessId) (ms : Nat) (s : State) : Within k s (s.elapse ms) :=
  Within.of_sessions ⟨_, _, _, _, _, _, _, rfl⟩

theorem Within.beginTurn (k : SessId) (t : Turn) (r : List Turn) (s : State) :
    Within k s (s.beginTurn k t r) :=
  Within.trans (t := s.setTurns r) (Within.of_sessions ⟨_, _, _, _, _, _, _, rfl⟩) (Within.putSession k _ _)

theorem Within.endCall (k : SessId) (c : Call) (x : Transport) (s : State) : Within k s (s.endCall k c x) :=
  let v := s.putSession k { s.session k with transport := x }
  have g : Within k v { v with world := { v.world with log := (k, c) :: v.world.log, waited := 0 } } :=
    ⟨rfl, rfl, rfl, rfl, rfl, rfl, rfl, rfl, rfl, fun _ => rfl, fun j _ => by cases j <;> rfl, rfl,
      [(k, c)], rfl, by simp⟩
  Within.trans (Within.putSession k _ s) g

theorem Within.suspend (k : SessId) (s : State) : Within k s s.suspend :=
  Within.of_sessions ⟨_, _, _, _, _, _, _, rfl⟩

theorem Within.setTurns (k : SessId) (r : List Turn) (s : State) :
    Within k s (s.setTurns r) :=
  Within.of_sessions ⟨_, _, _, _, _, _, _, rfl⟩

theorem Within.loadTx (k : SessId) (f : List Byte) (s : State) : Within k s (s.loadTx f) :=
  Within.of_sessions ⟨_, _, _, _, _, _, _, rfl⟩

theorem Within.startRead (k : SessId) (s : State) : Within k s s.startRead :=
  Within.of_sessions ⟨_, _, _, _, _, _, _, rfl⟩

theorem Within.beginRead (k : SessId) (s : State) : Within k s s.beginRead :=
  Within.of_sessions ⟨_, _, _, _, _, _, _, rfl⟩

theorem Within.appendAcc (k : SessId) (c : List Byte) (s : State) : Within k s (s.appendAcc c) :=
  Within.of_sessions ⟨_, _, _, _, _, _, _, rfl⟩

end Sys2Proof.Machine
end

