-- ==== Sys2Proof/Laws/Session.lean ====
section
/-! SUPPORT. What the functions of a Session can do: the Transport calls when the environment answers or does not, the
equations of the read loop, and the frame of every function. -/

namespace Sys2Proof.Machine

/-! ## Run -/

@[simp] theorem Run.bind_ok {α β : Type} (a : α) (s : State) (k : α → State → Run β) :
    (Run.ok a s).bind k = k a s := rfl

@[simp] theorem Run.bind_fail {α β : Type} (f : Failure) (s : State) (k : α → State → Run β) :
    (Run.fail f s : Run α).bind k = .fail f s := rfl

@[simp] theorem Run.bind_waits {α β : Type} (s : State) (k : α → State → Run β) :
    (Run.waits s : Run α).bind k = .waits s := rfl

@[simp] theorem Run.finish_ok (s : State) : (Run.ok () s).finish = s.done 0 := rfl

@[simp] theorem Run.finish_fail (f : Failure) (s : State) : (Run.fail f s).finish = s.raise f := rfl

@[simp] theorem Run.finish_waits (s : State) : (Run.waits s).finish = s := rfl

@[simp] theorem Run.finishPayload_ok (p : List Byte) (s : State) :
    (Run.ok p s).finishPayload = (s.writeDout p).done p.length := rfl

@[simp] theorem Run.finishPayload_fail (f : Failure) (s : State) : (Run.fail f s).finishPayload = s.raise f := rfl

@[simp] theorem Run.finishPayload_waits (s : State) : (Run.waits s).finishPayload = s := rfl

/-- Every way a function of Session `k` can end, from `s`, keeps within the Session; a function that ends leaves the
host's side and `BUSY` alone, one that waits is suspended. -/
def Run.Keeps {α : Type} (k : SessId) (s : State) : Run α → Prop
  | .ok _ u => Within k s u ∧ u.host = s.host ∧ u.busy = s.busy
  | .fail _ u => Within k s u ∧ u.host = s.host ∧ u.busy = s.busy
  | .waits u => Within k s u ∧ u.busy = true ∧ u.host.yielded = true

theorem Run.Keeps.bind {α β : Type} {k : SessId} {s : State} {r : Run α} {f : α → State → Run β}
    (hr : r.Keeps k s) (hf : ∀ a u, r = .ok a u → (f a u).Keeps k u) : (r.bind f).Keeps k s := by
  cases r with
  | fail c u => exact hr
  | waits u => exact hr
  | ok a u =>
    have := hf a u rfl
    rw [Run.bind_ok]
    cases e : f a u with
    | ok b v => rw [e] at this; exact ⟨hr.1.trans this.1, this.2.1.trans hr.2.1, this.2.2.trans hr.2.2⟩
    | fail c v => rw [e] at this; exact ⟨hr.1.trans this.1, this.2.1.trans hr.2.1, this.2.2.trans hr.2.2⟩
    | waits v => rw [e] at this; exact ⟨hr.1.trans this.1, this.2.1, this.2.2⟩

theorem Run.Keeps.from {α : Type} {k : SessId} {s t : State} {r : Run α} (h : Within k s t)
    (hh : t.host = s.host) (hb : t.busy = s.busy) (hr : r.Keeps k t) : r.Keeps k s := by
  cases r with
  | ok a u => exact ⟨h.trans hr.1, hr.2.1.trans hh, hr.2.2.trans hb⟩
  | fail c u => exact ⟨h.trans hr.1, hr.2.1.trans hh, hr.2.2.trans hb⟩
  | waits u => exact ⟨h.trans hr.1, hr.2⟩

/-! ## Waiting for the environment -/

/-- The environment does not answer the next Transport call: it has no turn to come, or one that is not ready. -/
def State.Unanswered (s : State) : Prop := Blocked s.world.turns

theorem State.setTurns_of_turns {s : State} {r : List Turn} (h : s.world.turns = r) : s.setTurns r = s := by
  subst h; rfl

theorem await_ready {k : SessId} {s : State} {t : Turn} {rest : List Turn} (h : s.world.turns = t :: rest)
    (hr : t.ready = true) : await k s = .ok t (s.beginTurn k t rest) := by
  simp [await, h, hr]

theorem await_unanswered (k : SessId) {s : State} (h : s.Unanswered) :
    await k s = .waits (s.setTurns s.world.turns.tail).suspend := by
  rcases h with h | ⟨t, rest, h, hr⟩
  · rw [State.setTurns_of_turns (by simp [h])]
    simp [await, h]
  · simp [await, h, hr]

/-- Waiting has one of two ends. -/
theorem await_cases (k : SessId) (s : State) :
    (∃ t rest, s.world.turns = t :: rest ∧ t.ready = true ∧ await k s = .ok t (s.beginTurn k t rest)) ∨
      (s.Unanswered ∧
        await k s = .waits (s.setTurns s.world.turns.tail).suspend) := by
  cases h : s.world.turns with
  | nil =>
    right
    rw [← h]
    exact ⟨.inl h, await_unanswered k (.inl h)⟩
  | cons t rest =>
    cases hr : t.ready with
    | true => exact .inl ⟨t, rest, rfl, hr, await_ready h hr⟩
    | false =>
      right
      rw [← h]
      exact ⟨.inr ⟨t, rest, h, hr⟩, await_unanswered k (.inr ⟨t, rest, h, hr⟩)⟩

theorem await_keeps (k : SessId) (s : State) : (await k s).Keeps k s := by
  rcases await_cases k s with ⟨t, rest, -, -, e⟩ | ⟨-, e⟩
  · rw [e]; exact ⟨Within.beginTurn k t rest s, by simp, by simp⟩
  · rw [e]; exact ⟨(Within.setTurns k _ s).trans (Within.suspend k _), by simp, by simp⟩

/-! ## The Transport calls, answered -/

theorem callOpen_ready {k : SessId} {s : State} {t : Turn} {rest : List Turn} (cfg : Tuple)
    (h : s.world.turns = t :: rest) (hr : t.ready = true) :
    callOpen k cfg s =
      .ok t.answer (((s.beginTurn k t rest).elapse t.lasts).endCall k (.openPort cfg t.answer)
        { (s.session k).transport.world t with held := t.answer == .ok }) := by
  simp [callOpen, await_ready h hr]

theorem callClose_ready {k : SessId} {s : State} {t : Turn} {rest : List Turn}
    (h : s.world.turns = t :: rest) (hr : t.ready = true) :
    callClose k s =
      .ok () (((s.beginTurn k t rest).elapse t.lasts).endCall k .closePort
        { ((s.session k).transport.world t).discard t.dropTx t.dropRx with held := false }) := by
  simp [callClose, await_ready h hr]

theorem callWrite_ready {k : SessId} {s : State} {t : Turn} {rest : List Turn} (bytes : List Byte)
    (h : s.world.turns = t :: rest) (hr : t.ready = true) :
    callWrite k bytes s =
      .ok t.count (((s.beginTurn k t rest).elapse t.lasts).endCall k (.write bytes t.count)
        { (s.session k).transport.world t with
          unsent := ((s.session k).transport.world t).unsent ++ bytes.take (accepted t bytes.length) }) := by
  simp [callWrite, await_ready h hr]

theorem callFlush_ready {k : SessId} {s : State} {t : Turn} {rest : List Turn}
    (h : s.world.turns = t :: rest) (hr : t.ready = true) :
    callFlush k s =
      .ok () (((s.beginTurn k t rest).elapse t.lasts).endCall k .flush
        (((s.session k).transport.world t).discard t.dropTx t.dropRx)) := by
  simp [callFlush, await_ready h hr]

theorem endCall_keeps (k : SessId) (ms : Nat) (c : Call) (x : Transport) (s : State) :
    Within k s ((s.elapse ms).endCall k c x) ∧ ((s.elapse ms).endCall k c x).host = s.host ∧
      ((s.elapse ms).endCall k c x).busy = s.busy :=
  ⟨(Within.elapse k ms s).trans (Within.endCall k c x _), by simp, by simp⟩

theorem callOpen_keeps (k : SessId) (cfg : Tuple) (s : State) : (callOpen k cfg s).Keeps k s :=
  (await_keeps k s).bind fun _ u _ => endCall_keeps k _ _ _ u

theorem callClose_keeps (k : SessId) (s : State) : (callClose k s).Keeps k s :=
  (await_keeps k s).bind fun _ u _ => endCall_keeps k _ _ _ u

theorem callWrite_keeps (k : SessId) (bytes : List Byte) (s : State) : (callWrite k bytes s).Keeps k s :=
  (await_keeps k s).bind fun _ u _ => endCall_keeps k _ _ _ u

theorem callFlush_keeps (k : SessId) (s : State) : (callFlush k s).Keeps k s :=
  (await_keeps k s).bind fun _ u _ => endCall_keeps k _ _ _ u

/-! ## The frames of the functions -/

theorem setSess_keeps (k : SessId) (v : SessState) (s : State) :
    Within k s (s.setSess k v) ∧ (s.setSess k v).host = s.host ∧ (s.setSess k v).busy = s.busy :=
  ⟨Within.setSess k v s, by simp, by simp⟩

theorem connectTuple_keeps (k : SessId) (cfg : Tuple) (s : State) : (connectTuple k cfg s).Keeps k s := by
  unfold connectTuple
  split
  · refine Run.Keeps.from (Within.latch k cfg s) (by simp) (by simp) ?_
    refine (callOpen_keeps k _ _).bind fun a u _ => ?_
    cases a <;> exact setSess_keeps k _ u
  · exact setSess_keeps k _ s

theorem connect_keeps (k : SessId) (cfg : Tuple) (s : State) : (connect k cfg s).Keeps k s := by
  unfold connect
  split
  · refine (callClose_keeps k s).bind fun _ u _ => ?_
    exact Run.Keeps.from (Within.setSess k _ u) (by simp) (by simp) (connectTuple_keeps k cfg _)
  · exact connectTuple_keeps k cfg s

theorem sendCommand_keeps (k : SessId) (n : Nat) (s : State) : (sendCommand k n s).Keeps k s := by
  unfold sendCommand
  split
  · exact ⟨Within.refl k s, rfl, rfl⟩
  · split
    · exact ⟨Within.refl k s, rfl, rfl⟩
    · refine Run.Keeps.from (Within.loadTx k (frameOf (s.dinBytes n)) s) (by simp) (by simp) ?_
      refine (callWrite_keeps k _ _).bind fun w u _ => ?_
      split <;> exact ⟨Within.refl k u, rfl, rfl⟩

theorem disconnect_keeps (k : SessId) (s : State) : (disconnect k s).Keeps k s := by
  unfold disconnect
  split
  · exact (callClose_keeps k s).bind fun _ u _ => setSess_keeps k _ u
  · exact ⟨Within.refl k s, rfl, rfl⟩

theorem flushSession_keeps (k : SessId) (s : State) : (flushSession k s).Keeps k s := by
  unfold flushSession
  split
  · exact ⟨Within.refl k s, rfl, rfl⟩
  · exact callFlush_keeps k s

/-! ## The read loop -/

/-- One iteration of the loop in a turn that is ready (R122). -/
theorem readLoop_ready {t : Turn} (k : SessId) (cap timeout : Nat) (rest : List Turn) (s : State)
    (h : t.ready = true) :
    readLoop k cap timeout (t :: rest) s =
      endRead (readEnd cap timeout (s.readOnce k t rest)) (s.readOnce k t rest)
        (readLoop k cap timeout rest (s.readOnce k t rest)) := by
  simp [readLoop, h]

/-- The pending read is not answered. -/
theorem readLoop_blocked {turns : List Turn} (k : SessId) (cap timeout : Nat) (s : State) (h : Blocked turns) :
    readLoop k cap timeout turns s = readPends k cap timeout turns.tail s := by
  rcases h with rfl | ⟨t, rest, rfl, hr⟩
  · rfl
  · simp [readLoop, hr]

theorem readPends_waits {s : State} (k : SessId) (cap timeout : Nat) (rest : List Turn)
    (h : s.world.waited < s.params.chunkTimeoutMs) :
    readPends k cap timeout rest s = .waits (s.setTurns rest).suspend := by
  simp [readPends, Nat.not_le.mpr h]

theorem readPends_expired {s : State} (k : SessId) (cap timeout : Nat) (rest : List Turn)
    (h : s.params.chunkTimeoutMs ≤ s.world.waited) :
    readPends k cap timeout rest s =
      endRead (readEnd cap timeout (s.readOnce k {} rest)) (s.readOnce k {} rest)
        (.waits (s.readOnce k {} rest).suspend) := by
  simp [readPends, h]

theorem Within.readOnce (k : SessId) (t : Turn) (rest : List Turn) (s : State) :
    Within k s (s.readOnce k t rest) :=
  (Within.beginTurn k t rest s).trans
    (((Within.elapse k _ _).trans (Within.endCall k _ _ _)).trans (Within.appendAcc k _ _))

@[simp] theorem State.readOnce_host (k : SessId) (t : Turn) (rest : List Turn) (s : State) :
    (s.readOnce k t rest).host = s.host := by
  simp [State.readOnce, readIn]

@[simp] theorem State.readOnce_busy (k : SessId) (t : Turn) (rest : List Turn) (s : State) :
    (s.readOnce k t rest).busy = s.busy := by
  simp [State.readOnce, readIn]

@[simp] theorem State.readOnce_params (k : SessId) (t : Turn) (rest : List Turn) (s : State) :
    (s.readOnce k t rest).params = s.params := (Within.readOnce k t rest s).params

@[simp] theorem State.readOnce_t0 (k : SessId) (t : Turn) (rest : List Turn) (s : State) :
    (s.readOnce k t rest).scratch.t0 = s.scratch.t0 := by
  simp [State.readOnce, readIn]

@[simp] theorem State.readOnce_txbuf (k : SessId) (t : Turn) (rest : List Turn) (s : State) :
    (s.readOnce k t rest).scratch.txbuf = s.scratch.txbuf := by
  simp [State.readOnce, readIn]

@[simp] theorem State.readOnce_txLen (k : SessId) (t : Turn) (rest : List Turn) (s : State) :
    (s.readOnce k t rest).scratch.txLen = s.scratch.txLen := by
  simp [State.readOnce, readIn]

@[simp] theorem State.readOnce_turns (k : SessId) (t : Turn) (rest : List Turn) (s : State) :
    (s.readOnce k t rest).world.turns = rest := by
  simp [State.readOnce, readIn]

theorem State.chunkMax_beginTurn (k : SessId) (t : Turn) (rest : List Turn) (s : State) :
    (s.beginTurn k t rest).chunkMax = s.chunkMax := by
  simp [State.chunkMax]

/-- The bytes the read of one iteration returns. -/
def State.chunk (k : SessId) (t : Turn) (s : State) : List Byte :=
  readBytesOf t s.chunkMax ((s.session k).transport.world t)

theorem State.length_chunk_le (k : SessId) (t : Turn) (s : State) : (s.chunk k t).length ≤ s.chunkMax := by
  simp only [State.chunk, readBytesOf, List.length_take]
  omega

@[simp] theorem State.readOnce_accLen (k : SessId) (t : Turn) (rest : List Turn) (s : State) :
    (s.readOnce k t rest).scratch.accLen = s.scratch.accLen + (s.chunk k t).length := by
  simp [State.readOnce, readIn, State.chunk, State.chunkMax_beginTurn]

theorem State.readOnce_acc (k : SessId) (t : Turn) (rest : List Turn) (s : State) :
    (s.readOnce k t rest).scratch.acc = s.scratch.acc.writeBytes s.scratch.accLen (s.chunk k t) := by
  simp [State.readOnce, readIn, State.chunk, State.chunkMax_beginTurn]

/-- The accumulated bytes grow by the chunk (R122 line 8). -/
theorem State.readOnce_accBytes (k : SessId) (t : Turn) (rest : List Turn) (s : State) :
    (s.readOnce k t rest).accBytes = s.accBytes ++ s.chunk k t := by
  have := Memory.readBytes_append_writeBytes s.scratch.acc 0 s.scratch.accLen (s.chunk k t)
  rw [Nat.zero_add] at this
  rw [State.accBytes, State.readOnce_accLen, State.readOnce_acc, this, State.accBytes]

/-- The milliseconds the pending read lasts from here on, in turn `t` (R114). -/
def State.readLasts (s : State) (t : Turn) : Nat := min t.lasts (s.params.chunkTimeoutMs - s.world.waited)

theorem State.readOnce_log (k : SessId) (t : Turn) (rest : List Turn) (s : State) :
    (s.readOnce k t rest).world.log =
      (k, .read s.chunkMax s.params.chunkTimeoutMs (s.chunk k t) (s.world.waited + s.readLasts t)) :: s.world.log := by
  simp [State.readOnce, readIn, State.chunk, State.chunkMax_beginTurn, State.readLasts]

theorem State.readOnce_now (k : SessId) (t : Turn) (rest : List Turn) (s : State) :
    (s.readOnce k t rest).world.now = s.world.now + BitVec.ofNat Config.timerW (s.readLasts t) := by
  simp [State.readOnce, readIn, State.readLasts]

@[simp] theorem State.readOnce_waited (k : SessId) (t : Turn) (rest : List Turn) (s : State) :
    (s.readOnce k t rest).world.waited = 0 := by
  simp [State.readOnce, readIn]

@[simp] theorem State.readOnce_starts (k : SessId) (t : Turn) (rest : List Turn) (s : State) :
    (s.readOnce k t rest).world.starts = s.world.starts := by
  simp [State.readOnce, readIn]

theorem State.readOnce_session (k : SessId) (t : Turn) (rest : List Turn) (s : State) :
    (s.readOnce k t rest).session k =
      { s.session k with transport :=
        { (s.session k).transport.world t with
          unread := ((s.session k).transport.world t).unread.drop (s.chunk k t).length } } := by
  simp [State.readOnce, readIn, State.chunk, State.chunkMax_beginTurn]

/-- What the loop does with the bytes it has: incomplete, a payload, or one of two failures. -/
theorem received_error_cases {a : List Byte} {cap : Nat} {f : Failure} (h : received a cap = some (.error f)) :
    f = .checksumMismatch ∨ f = .malformed := by
  unfold received at h
  repeat' split at h
  all_goals simp at h
  all_goals simp [← h]

theorem received_ok {a : List Byte} {cap : Nat} {p : List Byte} (h : received a cap = some (.ok p)) :
    ∃ i j r, scan a = some (i, j) ∧ decodeFrame a = .ok r ∧ p = r.take (min cap Config.doutCap) := by
  unfold received at h
  split at h
  · simp at h
  · next ij hs =>
    split at h
    · next r hr =>
      simp only [Option.some.injEq, Except.ok.injEq] at h
      exact ⟨ij.1, ij.2, r, hs, hr, h.symm⟩
    all_goals simp at h

theorem received_eq_none_iff (a : List Byte) (cap : Nat) : received a cap = none ↔ scan a = none := by
  unfold received
  split
  · next h => simp [h]
  · next h =>
    simp only [h, reduceCtorEq, iff_false]
    split <;> simp

/-- Which end follows a read, and when (R122 lines 10 to 15, 5 and 6). -/
theorem readEnd_cases (cap timeout : Nat) (s : State) :
    (∃ r, received s.accBytes cap = some r ∧ readEnd cap timeout s = some r) ∨
    (scan s.accBytes = none ∧ s.scratch.accLen = Config.accCap ∧ readEnd cap timeout s = some (.error .malformed)) ∨
    (scan s.accBytes = none ∧ s.scratch.accLen ≠ Config.accCap ∧ timeout < elapsed s.scratch.t0 s.world.now ∧
      readEnd cap timeout s = some (.error .timeout)) ∨
    (scan s.accBytes = none ∧ s.scratch.accLen ≠ Config.accCap ∧ elapsed s.scratch.t0 s.world.now ≤ timeout ∧
      readEnd cap timeout s = none) := by
  unfold readEnd
  cases h : received s.accBytes cap with
  | some r => exact .inl ⟨r, rfl, rfl⟩
  | none =>
    have hs := (received_eq_none_iff _ _).mp h
    by_cases ha : s.scratch.accLen = Config.accCap
    · exact .inr (.inl ⟨hs, ha, by simp [ha]⟩)
    · by_cases ht : timeout < elapsed s.scratch.t0 s.world.now
      · exact .inr (.inr (.inl ⟨hs, ha, ht, by simp [ha, ht]⟩))
      · exact .inr (.inr (.inr ⟨hs, ha, Nat.not_lt.mp ht, by simp [ha, ht]⟩))

/-- All the loop can do, said once: it waits in its pending read; or the read returns, in some turn, and ReadResponse ends;
or the read returns and the loop goes on.  What holds of the three holds of the loop. -/
theorem readLoop_induction {k : SessId} {cap timeout : Nat} {P : State → Run (List Byte) → Prop}
    (waits : ∀ s rest, P s (.waits (s.setTurns rest).suspend))
    (ok : ∀ s t rest p, readEnd cap timeout (s.readOnce k t rest) = some (.ok p) →
      P s (.ok p (s.readOnce k t rest)))
    (fail : ∀ s t rest f, readEnd cap timeout (s.readOnce k t rest) = some (.error f) →
      P s (.fail f (s.readOnce k t rest)))
    (goOn : ∀ s t rest r, readEnd cap timeout (s.readOnce k t rest) = none → P (s.readOnce k t rest) r → P s r)
    (turns : List Turn) (s : State) : P s (readLoop k cap timeout turns s) := by
  have one : ∀ s t rest r, P (s.readOnce k t rest) r →
      P s (endRead (readEnd cap timeout (s.readOnce k t rest)) (s.readOnce k t rest) r) := by
    intro s t rest r hr
    cases e : readEnd cap timeout (s.readOnce k t rest) with
    | none => exact goOn s t rest r e hr
    | some x => cases x with
      | ok p => exact ok s t rest p e
      | error f => exact fail s t rest f e
  have pends : ∀ s rest, P s (readPends k cap timeout rest s) := by
    intro s rest
    rcases Nat.lt_or_ge s.world.waited s.params.chunkTimeoutMs with h | h
    · rw [readPends_waits k cap timeout rest h]; exact waits s rest
    · rw [readPends_expired k cap timeout rest h]
      exact one s {} rest _ (waits (s.readOnce k {} rest) (s.readOnce k {} rest).world.turns)
  induction turns generalizing s with
  | nil => exact pends s []
  | cons t rest ih =>
    cases h : t.ready with
    | false => rw [readLoop_blocked k cap timeout s (.inr ⟨t, rest, rfl, h⟩)]; exact pends s rest
    | true => rw [readLoop_ready k cap timeout rest s h]; exact one s t rest _ (ih _)

theorem readLoop_keeps (k : SessId) (cap timeout : Nat) (turns : List Turn) (s : State) :
    (readLoop k cap timeout turns s).Keeps k s :=
  readLoop_induction (P := fun s r => r.Keeps k s)
    (fun s rest => ⟨(Within.setTurns k rest s).trans (Within.suspend k _), by simp, by simp⟩)
    (fun s t rest _ _ => ⟨Within.readOnce k t rest s, by simp, by simp⟩)
    (fun s t rest _ _ => ⟨Within.readOnce k t rest s, by simp, by simp⟩)
    (fun s t rest _ _ h => Run.Keeps.from (Within.readOnce k t rest s) (by simp) (by simp) h) turns s

theorem readResponse_keeps (k : SessId) (cap timeout : Nat) (s : State) :
    (readResponse k cap timeout s).Keeps k s := by
  unfold readResponse
  dsimp only
  split
  · exact ⟨Within.refl k s, rfl, rfl⟩
  · split
    · exact ⟨Within.beginRead k s, by simp, by simp⟩
    · exact Run.Keeps.from (Within.beginRead k s) (by simp) (by simp) (readLoop_keeps k cap timeout _ _)

theorem resumeRead_keeps (k : SessId) (cap timeout : Nat) (s : State) :
    (resumeRead k cap timeout s).Keeps k s := readLoop_keeps k cap timeout _ s

/-- A payload that ReadResponse returns fits DOUT. -/
theorem readLoop_payload_fits {k : SessId} {cap timeout : Nat} {turns : List Turn} {s u : State}
    {p : List Byte} (h : readLoop k cap timeout turns s = .ok p u) : p.length ≤ Config.doutCap := by
  refine readLoop_induction (k := k) (cap := cap) (timeout := timeout)
    (P := fun _ r => ∀ p u, r = .ok p u → p.length ≤ Config.doutCap) ?_ ?_ ?_ ?_ turns s p u h
  · simp
  · intro s t rest p e q u h
    cases h
    rcases readEnd_cases cap timeout (s.readOnce k t rest) with ⟨r, hr, e'⟩ | ⟨-, -, e'⟩ | ⟨-, -, -, e'⟩ | ⟨-, -, -, e'⟩
    · rw [e'] at e
      cases e
      obtain ⟨i, j, r, -, -, e⟩ := received_ok hr
      rw [e, List.length_take]
      omega
    all_goals simp [e'] at e
  · simp
  · intro s t rest r _ h; exact h

/-! ## The receive stream -/

/-- With no byte named as lost, none is (U5). -/
@[simp] theorem keepBy_nil (l : List Byte) : keepBy [] l = l := by cases l <;> rfl

theorem drop_eq_drop_min_length {α : Type} (n : Nat) (l : List α) : l.drop n = l.drop (min n l.length) := by
  rcases Nat.le_total n l.length with h | h
  · rw [Nat.min_eq_left h]
  · rw [Nat.min_eq_right h, List.drop_eq_nil_of_le h, List.drop_length]

/-- One read takes what `streamAfter` says (R114). -/
theorem State.readOnce_stream {k : SessId} {s : State} {t : Turn} {got : List Byte} (rest ts : List Turn)
    (hg : s.accBytes = got) (hl : s.scratch.accLen = got.length) :
    streamAfter s.params.chunkLen (t :: ts) (got, (s.session k).transport.unread) =
      streamAfter s.params.chunkLen ts
        ((s.readOnce k t rest).accBytes, ((s.readOnce k t rest).session k).transport.unread) := by
  simp only [streamAfter, State.readOnce_accBytes, State.readOnce_session, State.chunk, State.chunkMax, readBytesOf,
    Transport.world, hg, hl, List.length_take]
  congr 2
  exact drop_eq_drop_min_length _ _

end Sys2Proof.Machine
end

