-- ==== Sys2Proof/Laws/Ends.lean ====
section
/-! SUPPORT. How the functions of a Session end: with which failures, in which `STATE`, with which scratch state. -/

namespace Sys2Proof.Machine

/-! ## The failures a function may end with -/

/-- If the run ends with a failure, it is one of `l`. -/
def Run.FailsIn {α : Type} (l : List Failure) : Run α → Prop
  | .fail f _ => f ∈ l
  | .ok _ _ => True
  | .waits _ => True

theorem Run.FailsIn.bind {α β : Type} {l : List Failure} {r : Run α} {f : α → State → Run β}
    (hr : r.FailsIn l) (hf : ∀ a u, (f a u).FailsIn l) : (r.bind f).FailsIn l := by
  cases r with
  | ok a u => exact hf a u
  | fail c u => exact hr
  | waits u => exact hr

theorem await_failsIn (l : List Failure) (k : SessId) (s : State) : (await k s).FailsIn l := by
  rcases await_cases k s with ⟨t, rest, -, -, e⟩ | ⟨-, e⟩ <;> rw [e] <;> trivial

theorem callOpen_failsIn (l : List Failure) (k : SessId) (c : Tuple) (s : State) : (callOpen k c s).FailsIn l :=
  (await_failsIn l k s).bind fun _ _ => trivial

theorem callClose_failsIn (l : List Failure) (k : SessId) (s : State) : (callClose k s).FailsIn l :=
  (await_failsIn l k s).bind fun _ _ => trivial

theorem callWrite_failsIn (l : List Failure) (k : SessId) (b : List Byte) (s : State) :
    (callWrite k b s).FailsIn l :=
  (await_failsIn l k s).bind fun _ _ => trivial

theorem callFlush_failsIn (l : List Failure) (k : SessId) (s : State) : (callFlush k s).FailsIn l :=
  (await_failsIn l k s).bind fun _ _ => trivial

theorem connectTuple_failsIn (k : SessId) (c : Tuple) (s : State) :
    (connectTuple k c s).FailsIn [.configRejected, .portUnavailable] := by
  unfold connectTuple
  split
  · refine (callOpen_failsIn _ k _ _).bind fun a u => ?_
    cases a <;> simp [Run.FailsIn]
  · simp [Run.FailsIn]

theorem connect_failsIn (k : SessId) (c : Tuple) (s : State) :
    (connect k c s).FailsIn [.configRejected, .portUnavailable] := by
  unfold connect
  split
  · exact (callClose_failsIn _ k s).bind fun _ u => connectTuple_failsIn k c _
  · exact connectTuple_failsIn k c s

theorem sendCommand_failsIn (k : SessId) (n : Nat) (s : State) :
    (sendCommand k n s).FailsIn [.notConnected, .payloadTooLarge, .writeIncomplete] := by
  unfold sendCommand
  split
  · simp [Run.FailsIn]
  · split
    · simp [Run.FailsIn]
    · refine (callWrite_failsIn _ k _ _).bind fun w u => ?_
      split <;> simp [Run.FailsIn]

theorem readEnd_failsIn {cap timeout : Nat} {s : State} {f : Failure} (h : readEnd cap timeout s = some (.error f)) :
    f ∈ [Failure.timeout, .checksumMismatch, .malformed] := by
  rcases readEnd_cases cap timeout s with ⟨r, hr, e⟩ | ⟨-, -, e⟩ | ⟨-, -, -, e⟩ | ⟨-, -, -, e⟩ <;> rw [e] at h <;> cases h
  · rcases received_error_cases hr with rfl | rfl <;> simp
  · simp
  · simp

theorem readLoop_failsIn (k : SessId) (cap timeout : Nat) (turns : List Turn) (s : State) :
    (readLoop k cap timeout turns s).FailsIn [.timeout, .checksumMismatch, .malformed] :=
  readLoop_induction (P := fun _ r => r.FailsIn [.timeout, .checksumMismatch, .malformed])
    (fun _ _ => trivial) (fun _ _ _ _ _ => trivial) (fun _ _ _ _ e => readEnd_failsIn e) (fun _ _ _ _ _ h => h) turns s

theorem readResponse_failsIn (k : SessId) (cap timeout : Nat) (s : State) :
    (readResponse k cap timeout s).FailsIn [.notConnected, .timeout, .checksumMismatch, .malformed] := by
  unfold readResponse
  dsimp only
  split
  · simp [Run.FailsIn]
  · split
    · simp [Run.FailsIn]
    · have := readLoop_failsIn k cap timeout s.beginRead.world.turns s.beginRead
      cases e : readLoop k cap timeout s.beginRead.world.turns s.beginRead with
      | ok a u => trivial
      | waits u => trivial
      | fail f u => rw [e] at this; exact List.mem_cons_of_mem _ this

theorem disconnect_failsIn (k : SessId) (s : State) : (disconnect k s).FailsIn [] := by
  unfold disconnect
  split
  · exact (callClose_failsIn _ k s).bind fun _ _ => trivial
  · trivial

theorem flushSession_failsIn (k : SessId) (s : State) : (flushSession k s).FailsIn [.notConnected] := by
  unfold flushSession
  split
  · simp [Run.FailsIn]
  · exact callFlush_failsIn _ k s

/-! ## The state a function ends in -/

/-- The state at the end of a run, whichever end it is. -/
def Run.after {α : Type} : Run α → State
  | .ok _ s => s
  | .fail _ s => s
  | .waits s => s

@[simp] theorem Run.after_ok {α : Type} (a : α) (s : State) : (Run.ok a s).after = s := rfl
@[simp] theorem Run.after_fail {α : Type} (f : Failure) (s : State) : (Run.fail f s : Run α).after = s := rfl
@[simp] theorem Run.after_waits {α : Type} (s : State) : (Run.waits s : Run α).after = s := rfl

/-- What the end of the first part and the rest after it give, the whole gives. -/
theorem Run.after_bind {α β : Type} {r : Run α} {f : α → State → Run β} {P : State → Prop}
    (h : P r.after) (hf : ∀ a u, r = .ok a u → P (f a u).after) : P (r.bind f).after := by
  cases r with
  | ok a u => exact hf a u rfl
  | fail c u => exact h
  | waits u => exact h

/-- The `STATE` of a Session and whether its Transport is open. -/
def Session.link (x : Session) : SessState × Bool := (x.state, x.transport.held)

theorem await_after (k : SessId) (s : State) :
    (await k s).after.scratch = s.scratch ∧ ((await k s).after.session k).link = (s.session k).link ∧
      ((await k s).after.session k).acfg = (s.session k).acfg := by
  rcases await_cases k s with ⟨t, rest, -, -, e⟩ | ⟨-, e⟩ <;> rw [e] <;>
    simp [Session.link, Transport.world]

theorem callWrite_after (k : SessId) (b : List Byte) (s : State) :
    (callWrite k b s).after.scratch = s.scratch ∧
      ((callWrite k b s).after.session k).link = (s.session k).link ∧
      ((callWrite k b s).after.session k).acfg = (s.session k).acfg := by
  obtain ⟨h1, h2, h3⟩ := await_after k s
  cases e : await k s with
  | ok t u => rw [e] at h1 h2 h3; simp_all [callWrite, Session.link]
  | fail c u => rw [e] at h1 h2 h3; simp_all [callWrite]
  | waits u => rw [e] at h1 h2 h3; simp_all [callWrite]

theorem callFlush_after (k : SessId) (s : State) :
    (callFlush k s).after.scratch = s.scratch ∧
      ((callFlush k s).after.session k).link = (s.session k).link ∧
      ((callFlush k s).after.session k).acfg = (s.session k).acfg := by
  obtain ⟨h1, h2, h3⟩ := await_after k s
  cases e : await k s with
  | ok t u => rw [e] at h1 h2 h3; simp_all [callFlush, Session.link, Transport.discard]
  | fail c u => rw [e] at h1 h2 h3; simp_all [callFlush]
  | waits u => rw [e] at h1 h2 h3; simp_all [callFlush]

/-- Disconnect (R126): answered, an open Session is `Closed` and its Transport released; any other is as before. -/
theorem disconnect_cases (k : SessId) (s : State) :
    (∃ u, disconnect k s = .ok () u ∧ u.scratch = s.scratch ∧
      (u.session k).link = (if (s.session k).state = .opened then (.closed, false) else (s.session k).link)) ∨
    (∃ u, disconnect k s = .waits u ∧ u.scratch = s.scratch ∧ ∀ j, u.session j = s.session j) := by
  unfold disconnect
  split
  · rcases await_cases k s with ⟨t, rest, ht, hr, -⟩ | ⟨-, e⟩
    · left
      rw [callClose_ready ht hr]
      exact ⟨_, rfl, by simp, by simp [Session.link]⟩
    · right
      rw [callClose, e]
      exact ⟨_, rfl, by simp, by simp⟩
  · exact .inl ⟨s, rfl, rfl, rfl⟩

/-- Connect steps 2 to 5 on a Session that is not open (R118). -/
theorem connectTuple_cases (k : SessId) (c : Tuple) {s : State} (h : (s.session k).transport.held = false) :
    (∃ u, connectTuple k c s = .ok () u ∧ u.scratch = s.scratch ∧ (u.session k).link = (.opened, true)) ∨
    (∃ f u, connectTuple k c s = .fail f u ∧ u.scratch = s.scratch ∧
      (u.session k).link = (.unconfigured, false)) ∨
    (∃ u, connectTuple k c s = .waits u ∧ u.scratch = s.scratch ∧ (u.session k).link = (.configured, false)) := by
  unfold connectTuple
  split
  · rcases await_cases k (s.latch k c) with ⟨t, rest, ht, hr, -⟩ | ⟨-, e⟩
    · simp only [callOpen_ready _ ht hr, Run.bind]
      cases t.answer with
      | ok => exact .inl ⟨_, rfl, by simp, by simp [Session.link]⟩
      | unavailable => exact .inr (.inl ⟨_, _, rfl, by simp, by simp [Session.link]⟩)
      | rejected => exact .inr (.inl ⟨_, _, rfl, by simp, by simp [Session.link]⟩)
    · simp only [callOpen, e, Run.bind]
      exact .inr (.inr ⟨_, rfl, by simp, by simp [Session.link, h]⟩)
  · exact .inr (.inl ⟨_, _, rfl, by simp, by simp [Session.link, h]⟩)

/-- Connect on a Session that holds a Transport exactly when it is open (R118, R24). -/
theorem connect_cases (k : SessId) (c : Tuple) {s : State}
    (h : (s.session k).transport.held = true ↔ (s.session k).state = .opened) :
    (∃ u, connect k c s = .ok () u ∧ u.scratch = s.scratch ∧ (u.session k).link = (.opened, true)) ∨
    (∃ f u, connect k c s = .fail f u ∧ u.scratch = s.scratch ∧ (u.session k).link = (.unconfigured, false)) ∨
    (∃ u, connect k c s = .waits u ∧ u.scratch = s.scratch ∧
      ((u.session k).link = (.configured, false) ∨ (u.session k).link = (.opened, true))) := by
  unfold connect
  split
  · next ho =>
    rcases await_cases k s with ⟨t, rest, ht, hr, -⟩ | ⟨-, e⟩
    · simp only [callClose_ready ht hr, Run.bind]
      have := connectTuple_cases k c (s := (((s.beginTurn k t rest).elapse t.lasts).endCall k .closePort
        { ((s.session k).transport.world t).discard t.dropTx t.dropRx with held := false }).setSess k .closed)
        (by simp)
      rcases this with ⟨u, e, h1, h2⟩ | ⟨f, u, e, h1, h2⟩ | ⟨u, e, h1, h2⟩
      · exact .inl ⟨u, e, by rw [h1]; simp, h2⟩
      · exact .inr (.inl ⟨f, u, e, by rw [h1]; simp, h2⟩)
      · exact .inr (.inr ⟨u, e, by rw [h1]; simp, .inl h2⟩)
    · rw [callClose, e]
      exact .inr (.inr ⟨_, rfl, by simp, .inr (by simp [Session.link, ho, h.mpr ho])⟩)
  · next ho =>
    have hf : (s.session k).transport.held = false := by
      cases hh : (s.session k).transport.held with
      | false => rfl
      | true => exact absurd (h.mp hh) ho
    rcases connectTuple_cases k c hf with ⟨u, e, h1, h2⟩ | ⟨f, u, e, h1, h2⟩ | ⟨u, e, h1, h2⟩
    · exact .inl ⟨u, e, h1, h2⟩
    · exact .inr (.inl ⟨f, u, e, h1, h2⟩)
    · exact .inr (.inr ⟨u, e, h1, .inl h2⟩)

/-! ## The scratch state -/

/-- The scratch buffers are canonical and within their capacities (R36). -/
structure Scratch.Fits (c : Scratch) : Prop where
  txbufWf : c.txbuf.wf = true
  accWf : c.acc.wf = true
  tx : c.txLen ≤ Config.maxFrame
  acc : c.accLen ≤ Config.accCap

theorem sendCommand_after (k : SessId) (n : Nat) (s : State) :
    (s.scratch.Fits → (sendCommand k n s).after.scratch.Fits) ∧
      ((sendCommand k n s).after.session k).link = (s.session k).link ∧
      ((sendCommand k n s).after.session k).acfg = (s.session k).acfg := by
  unfold sendCommand
  split
  · exact ⟨id, rfl, rfl⟩
  · split
    · exact ⟨id, rfl, rfl⟩
    · next hn =>
      obtain ⟨h1, h2, h3⟩ := callWrite_after k (s.loadTx (frameOf (s.dinBytes n))).txBytes
        (s.loadTx (frameOf (s.dinBytes n)))
      have hl : s.scratch.Fits → (s.loadTx (frameOf (s.dinBytes n))).scratch.Fits := fun h =>
        ⟨Memory.wf_writeBytes h.txbufWf _ _, h.accWf, by simp [State.loadTx, frameOf, State.dinBytes]; omega, h.acc⟩
      rw [← h1] at hl
      refine Run.after_bind (P := fun u => (s.scratch.Fits → u.scratch.Fits) ∧
        (u.session k).link = (s.session k).link ∧ (u.session k).acfg = (s.session k).acfg)
        ⟨hl, by rw [h2]; simp, by rw [h3]; simp⟩ fun a u e => ?_
      rw [e] at hl h2 h3
      have : (s.scratch.Fits → u.scratch.Fits) ∧
          (u.session k).link = (s.session k).link ∧ (u.session k).acfg = (s.session k).acfg :=
        ⟨hl, by simpa using h2, by simpa using h3⟩
      split <;> exact this

theorem flushSession_after (k : SessId) (s : State) :
    (flushSession k s).after.scratch = s.scratch ∧
      ((flushSession k s).after.session k).link = (s.session k).link ∧
      ((flushSession k s).after.session k).acfg = (s.session k).acfg := by
  unfold flushSession
  split
  · exact ⟨rfl, rfl, rfl⟩
  · exact callFlush_after k s

theorem State.readOnce_fits (k : SessId) (t : Turn) (rest : List Turn) {s : State} (h : s.scratch.Fits) :
    (s.readOnce k t rest).scratch.Fits where
  txbufWf := by simpa using h.txbufWf
  accWf := by rw [State.readOnce_acc]; exact Memory.wf_writeBytes h.accWf _ _
  tx := by simpa using h.tx
  acc := by
    have h1 := State.length_chunk_le k t s
    have h2 := h.acc
    rw [State.readOnce_accLen]
    unfold State.chunkMax at h1
    omega

theorem readLoop_after (k : SessId) (cap timeout : Nat) (turns : List Turn) (s : State) :
    (s.scratch.Fits → (readLoop k cap timeout turns s).after.scratch.Fits) ∧
      ((readLoop k cap timeout turns s).after.session k).link = (s.session k).link ∧
      ((readLoop k cap timeout turns s).after.session k).acfg = (s.session k).acfg := by
  have hs : ∀ (s : State) t rest, ((s.readOnce k t rest).session k).link = (s.session k).link ∧
      ((s.readOnce k t rest).session k).acfg = (s.session k).acfg := fun s t rest => by
    rw [State.readOnce_session]; exact ⟨rfl, rfl⟩
  refine readLoop_induction (P := fun s r => (s.scratch.Fits → r.after.scratch.Fits) ∧
    (r.after.session k).link = (s.session k).link ∧ (r.after.session k).acfg = (s.session k).acfg) ?_ ?_ ?_ ?_ turns s
  · exact fun s rest => ⟨id, by simp, by simp⟩
  · exact fun s t rest _ _ => ⟨State.readOnce_fits k t rest, hs s t rest⟩
  · exact fun s t rest _ _ => ⟨State.readOnce_fits k t rest, hs s t rest⟩
  · exact fun s t rest _ _ h => ⟨fun hf => h.1 (State.readOnce_fits k t rest hf), h.2.1.trans (hs s t rest).1,
      h.2.2.trans (hs s t rest).2⟩

theorem readResponse_after (k : SessId) (cap timeout : Nat) (s : State) :
    (s.scratch.Fits → (readResponse k cap timeout s).after.scratch.Fits) ∧
      ((readResponse k cap timeout s).after.session k).link = (s.session k).link ∧
      ((readResponse k cap timeout s).after.session k).acfg = (s.session k).acfg := by
  have hb : s.scratch.Fits → s.beginRead.scratch.Fits := fun h => ⟨h.txbufWf, h.accWf, h.tx, Nat.zero_le _⟩
  unfold readResponse
  dsimp only
  split
  · exact ⟨id, rfl, rfl⟩
  · split
    · exact ⟨hb, by simp, by simp⟩
    · obtain ⟨h1, h2, h3⟩ := readLoop_after k cap timeout s.beginRead.world.turns s.beginRead
      exact ⟨fun h => h1 (hb h), by rw [h2]; simp, by rw [h3]; simp⟩

end Sys2Proof.Machine
end

