-- ==== Sys2Proof/Laws/Exec.lean ====
section
/-! SUPPORT. The commands in terms of the functions of a Session, and what the end of a command leaves alone. -/

namespace Sys2Proof.Machine

/-! ## A command is the function of the Session it addresses -/

theorem withHandle_of_valid {s : State} (hr : s.params.hasRegistry = true)
    (hv : s.validHandle s.ops.argHandle = true) (m : Nat → State → State) :
    withHandle s m = m s.ops.argHandle.toNat s := by
  simp [withHandle, withRegistry, hr, hv]

theorem withHandle_of_invalid {s : State} (hr : s.params.hasRegistry = true)
    (hv : s.validHandle s.ops.argHandle = false) (m : Nat → State → State) :
    withHandle s m = s.raise .invalidHandle := by
  simp [withHandle, withRegistry, hr, hv]

theorem withRegistry_of_absent {s : State} (hr : s.params.hasRegistry = false) (m : State → State) :
    withRegistry s m = s.raise .illegalCommand := by
  simp [withRegistry, hr]

theorem exec_connect_of {s : State} {k : SessId} {i : Instr} (h : Addresses i s k)
    (hi : i = .connect ∨ i = .ropen) : exec i s = .next (connect k s.tuple s).finish := by
  rcases hi with rfl | rfl
  · obtain rfl : k = .direct := h; rfl
  · obtain ⟨h1, h2, rfl⟩ := h; simp [exec, execRopen, withHandle_of_valid h1 h2]

theorem exec_send_of {s : State} {k : SessId} {i : Instr} (h : Addresses i s k)
    (hi : i = .sendcmd ∨ i = .rwrite) : exec i s = .next (sendCommand k s.len s).finish := by
  rcases hi with rfl | rfl
  · obtain rfl : k = .direct := h; rfl
  · obtain ⟨h1, h2, rfl⟩ := h; simp [exec, execRwrite, withHandle_of_valid h1 h2]

theorem exec_read_of {s : State} {k : SessId} {i : Instr} (h : Addresses i s k)
    (hi : i = .readrsp ∨ i = .rread) :
    exec i s = .next (readResponse k s.cap s.timeoutMs s).finishPayload := by
  rcases hi with rfl | rfl
  · obtain rfl : k = .direct := h; rfl
  · obtain ⟨h1, h2, rfl⟩ := h; simp [exec, execRread, withHandle_of_valid h1 h2]

theorem exec_disconnect_of {s : State} {k : SessId} {i : Instr} (h : Addresses i s k)
    (hi : i = .disconnect ∨ i = .rclose) : exec i s = .next (disconnect k s).finish := by
  rcases hi with rfl | rfl
  · obtain rfl : k = .direct := h; rfl
  · obtain ⟨h1, h2, rfl⟩ := h; simp [exec, execRclose, withHandle_of_valid h1 h2]

theorem exec_flush_of {s : State} {k : SessId} {i : Instr} (h : Addresses i s k)
    (hi : i = .flush ∨ i = .rflush) : exec i s = .next (flushSession k s).finish := by
  rcases hi with rfl | rfl
  · obtain rfl : k = .direct := h; rfl
  · obtain ⟨h1, h2, rfl⟩ := h; simp [exec, execRflush, withHandle_of_valid h1 h2]

theorem exec_rdeinit_of {s : State} {h : Nat} (ha : Addresses .rdeinit s (.slot h)) :
    exec .rdeinit s = .next ((disconnect (.slot h) s).complete fun _ s => (s.vacate h).done 0) := by
  obtain ⟨h1, h2, e⟩ := ha
  simp only [SessId.slot.injEq] at e
  subst e
  simp [exec, execRdeinit, withHandle_of_valid h1 h2]

theorem exec_rcreate_of {s : State} {h : Nat} (hr : s.params.hasRegistry = true) (hf : s.freeSlot = some h) :
    exec .rcreate s = .next (finishCreate h (connect (.slot h) s.tuple s)) := by
  simp [exec, execRcreate, withRegistry, hr, hf]

/-- Every command answers a next state, in every state. -/
theorem exec_answers_next (i : Instr) (s : State) : ∃ u, exec i s = .next u := by
  cases i <;> simp only [exec, execEncode, execDecode, execConnect, execSendcmd, execReadrsp, execDisconnect,
    execFlush, execRcreate, execRopen, execRclose, execRwrite, execRread, execRflush, execRdeinit]
  all_goals first
    | exact ⟨_, rfl⟩
    | (split
       · exact ⟨_, rfl⟩
       · split <;> exact ⟨_, rfl⟩)

/-! ## The ends of RCREATE and RDEINIT -/

/-- The end of RCREATE, for a slot number RES_HANDLE can hold. -/
theorem State.occupy_of_lt (s : State) {h : Nat} (hlt : h < 2 ^ 31) :
    s.occupy h = { s with
      slots := putSlot s.slots h { slotAt s.slots h with occ := true }
      regSize := if h = s.regSize then s.regSize + 1 else s.regSize
      resHandle := BitVec.ofNat 32 h } := by
  unfold State.occupy State.giveHandle
  rw [if_pos hlt]
  by_cases e : h = s.regSize
  · rw [if_pos e, if_pos (by exact e)]; rfl
  · rw [if_neg e, if_neg (by exact e)]; rfl

/-- The end of RDEINIT. -/
theorem State.vacate_eq (s : State) (h : Nat) :
    s.vacate h = { s with
      slots := putSlot s.slots h
        { occ := false, session := { (slotAt s.slots h).session with state := .unconfigured } } } := by
  simp [State.vacate, State.setSess, State.putSession, State.setOcc, putSlot_putSlot]

/-- A slot that a function of another slot's Session has left alone, its `OCC` bit included. -/
theorem Within.slotAt_eq {h j : Nat} {s u : State} (w : Within (.slot h) s u) (e : j ≠ h) :
    slotAt u.slots j = slotAt s.slots j := by
  have h1 := w.occ j
  have h2 := w.others (.slot j) (by simp [e])
  simp only [State.session_slot] at h2
  cases hu : slotAt u.slots j
  cases hs : slotAt s.slots j
  rw [hu, hs] at h1 h2
  simp only at h1 h2
  rw [h1, h2]

/-! ## A command in progress -/

theorem Within.host_of_yielded {k : SessId} {s u : State} (w : Within k s u) (h : u.host.yielded = true) :
    u.host = { s.host with yielded := true } := by
  rw [← w.host, ← h]

/-- A function of a Session that waits leaves its command in progress. -/
theorem StillRunning.of_waits {k : SessId} {s u : State} (h : (Run.waits u : Run Unit).Keeps k s) :
    StillRunning s u :=
  ⟨h.2.1, h.1.fail, h.1.err, h.1.resLen, h.1.resHandle, h.1.mem, h.1.regSize, h.1.occ, h.1.params, h.1.cmd, h.1.ops,
    h.1.host_of_yielded h.2.2⟩

/-- A command that has not completed waits in its function. -/
theorem StillRunning.of_complete {α : Type} {k : SessId} {s u : State} {r : Run α} {f : α → State → State}
    (h : r.Keeps k s) (hf : ∀ a v, (f a v).busy = false) (e : r.complete f = u) (hb : u.busy = true) :
    StillRunning s u := by
  subst e
  cases r with
  | ok a v => simp [Run.complete, hf] at hb
  | fail c v => simp [Run.complete] at hb
  | waits v => exact StillRunning.of_waits h

/-! ## Time passing -/

/-- An elapse act moves the clock, the time the pending read has waited and the host's acts, and nothing else. -/
theorem hostElapse_frame (ms : Nat) (s : State) : ∃ n m q, hostElapse ms s = { s with
    world := { s.world with now := n, waited := m }, host := { s.host with queue := q } } := by
  unfold hostElapse
  dsimp only
  split
  · split
    · exact ⟨_, _, _, rfl⟩
    · exact ⟨_, _, s.host.queue, rfl⟩
  · exact ⟨_, s.world.waited, s.host.queue, rfl⟩

theorem hostElapse_of_not_reading {s : State} (ms : Nat) (h : s.reading = false) : hostElapse ms s = s.elapse ms := by
  simp [hostElapse, h]

/-- While a `T.read` is pending no more time passes than it has left (R114). -/
theorem hostElapse_of_reading {s : State} (ms : Nat) (h : s.reading = true) :
    (hostElapse ms s).world.now =
      s.world.now + BitVec.ofNat Config.timerW (min ms (s.params.chunkTimeoutMs - s.world.waited)) ∧
    (hostElapse ms s).world.waited = s.world.waited + min ms (s.params.chunkTimeoutMs - s.world.waited) := by
  unfold hostElapse
  rw [if_pos h]
  dsimp only
  split <;> exact ⟨rfl, rfl⟩

theorem State.reading_of_cmd {s : State} (hb : s.busy = true)
    (hc : s.cmd = Instr.readrsp.opcode ∨ s.cmd = Instr.rread.opcode) : s.reading = true := by
  unfold State.reading
  rcases hc with hc | hc <;> rw [hb, hc] <;> rfl

/-! ## What the host reads of the results -/

/-- SESS_STATE: the `STATE` before the issue while a command runs, else the `STATE` (R48). -/
theorem readsWord_sessState (s : State) (v : Word) :
    ReadsWord 0x020 s v ↔ (if s.busy then s.host.shown else s.direct.state).code.setWidth 32 = v :=
  ⟨fun ⟨_, h, e⟩ => by cases h; exact e, fun h => ⟨_, rfl, h⟩⟩

/-- REG_SIZE, whether or not a command runs (R41, R48). -/
theorem readsWord_regSize {s : State} (hs : s.regSize < 2 ^ 32) (v : Word) :
    ReadsWord 0x024 s v ↔ (if s.params.hasRegistry = false then 0 else BitVec.ofNat 32 s.regSize) = v := by
  have e : hostAct (.read32 0x024) s = .next (s.returnRead (s.wordReg s.freeNow .regSize)) := rfl
  simp only [ReadsWord, e, State.wordReg, if_pos hs]
  exact ⟨fun ⟨_, h, e⟩ => by cases h; exact e, fun h => ⟨_, rfl, h⟩⟩

/-! ## The end of a command -/

theorem LeavesAlone.of_within {k : SessId} {s u : State} (h : Within k s u) (hh : u.host = s.host) :
    LeavesAlone k s u :=
  ⟨h.params, h.cmd, h.ops, h.resHandle, h.regSize, h.occ, h.others, hh⟩

theorem LeavesAlone.raise {k : SessId} {s u : State} (h : LeavesAlone k s u) (f : Failure) :
    LeavesAlone k s (u.raise f) :=
  ⟨h.params, h.cmd, h.ops, h.resHandle, h.regSize, h.occ,
    fun j e => (State.session_raise u f j).trans (h.others j e), h.host⟩

theorem LeavesAlone.done {k : SessId} {s u : State} (h : LeavesAlone k s u) (n : Nat) :
    LeavesAlone k s (u.done n) :=
  ⟨h.params, h.cmd, h.ops, h.resHandle, h.regSize, h.occ,
    fun j e => (State.session_done u n j).trans (h.others j e), h.host⟩

theorem LeavesAlone.writeDout {k : SessId} {s u : State} (h : LeavesAlone k s u) (p : List Byte) :
    LeavesAlone k s (u.writeDout p) :=
  ⟨h.params, h.cmd, h.ops, h.resHandle, h.regSize, h.occ,
    fun j e => (State.session_writeDout u p j).trans (h.others j e), h.host⟩

theorem Completed.raise (s : State) (f : Failure) : Completed (s.raise f) f 0 := ⟨rfl, rfl, rfl, rfl⟩

theorem Completed.done {n : Nat} (s : State) (h : n < 2 ^ 16) : Completed (s.done n) .none n :=
  ⟨rfl, rfl, rfl, by simpa using Nat.mod_eq_of_lt h⟩

/-- Bytes written to DOUT read back from it. -/
theorem State.doutBytes_writeDout (s : State) (p : List Byte) : (s.writeDout p).doutBytes p.length = p :=
  Memory.readBytes_writeBytes s.mem doutBase p

/-- Outside the result bytes, memory reads as before. -/
theorem State.read_writeDout {s : State} {p : List Byte} {a : Nat}
    (h : a < doutBase ∨ doutBase + p.length ≤ a) : (s.writeDout p).mem.read a = s.mem.read a :=
  Memory.read_writeBytes_of_outside s.mem doutBase p h

end Sys2Proof.Machine
end

