-- ==== Sys2Proof/Laws/PerInstr.lean ====
section
/-! SUPPORT. Laws stated of every instruction, one lemma per constructor. -/

namespace Sys2Proof

/-- The high nibble of the opcodes of a family (R72). -/
def Family.nibble : Family → BitVec 4
  | .codec => 1#4
  | .session => 2#4
  | .registry => 3#4

namespace Laws.OpcodeFamily

/-- R72: the command is well formed, its opcode stands in the map with it and with no other command, and the high nibble
of the opcode is that of its family. -/
def Statement (i : Instr) : Prop :=
  i.wf = true ∧ (∀ row ∈ opcodeMap, row.2 = i ↔ row.1 = i.opcode) ∧ i.opcode.extractLsb' 4 4 = i.family.nibble

theorem encode : Statement .encode := by unfold Statement; decide
theorem decode : Statement .decode := by unfold Statement; decide
theorem connect : Statement .connect := by unfold Statement; decide
theorem sendcmd : Statement .sendcmd := by unfold Statement; decide
theorem readrsp : Statement .readrsp := by unfold Statement; decide
theorem disconnect : Statement .disconnect := by unfold Statement; decide
theorem flush : Statement .flush := by unfold Statement; decide
theorem rcreate : Statement .rcreate := by unfold Statement; decide
theorem ropen : Statement .ropen := by unfold Statement; decide
theorem rclose : Statement .rclose := by unfold Statement; decide
theorem rwrite : Statement .rwrite := by unfold Statement; decide
theorem rread : Statement .rread := by unfold Statement; decide
theorem rflush : Statement .rflush := by unfold Statement; decide
theorem rdeinit : Statement .rdeinit := by unfold Statement; decide

end Laws.OpcodeFamily

end Sys2Proof
end

