-- ==== Sys2Proof/Tests/Slice0.lean ====
section
/-! SUPPORT. The model's own tests: expected values are those of `95_test_vectors.md` or written out by hand from the
rules; and for each obligation with hypotheses a state and operands that meet them. -/

namespace Sys2Proof.Tests

open Sys2Proof Sys2Proof.Machine

set_option maxRecDepth 8000

/-! ## Helpers -/

/-- A test of the next state; false of a fault or a refusal. -/
def after (o : Host.Outcome State Fault Refusal) (p : State → Bool) : Bool :=
  match o with
  | .next s => p s
  | .fault _ => false
  | .refused _ => false

/-- Whether the step was refused for the given reason. -/
def refuses (o : Host.Outcome State Fault Refusal) (r : Refusal) : Bool :=
  match o with
  | .next _ => false
  | .fault _ => false
  | .refused q => decide (q = r)

/-- Whether the machine stopped with the given fault. -/
def faults (o : Host.Outcome State Fault Refusal) (r : Fault) : Bool :=
  match o with
  | .next _ => false
  | .fault q => decide (q = r)
  | .refused _ => false

/-- The `STATUS` word. -/
def status (s : State) : Word := statusWord s.busy s.err s.fail

/-- The calls on the Transports, oldest first. -/
def calls (s : State) : List (SessId × Call) := s.world.log.reverse

/-- A Session that is `Open`, with bytes waiting in its receive stream. -/
def openWith (unread : List Byte) : Session :=
  { state := .opened, acfg := .zero, transport := { held := true, unsent := [], wire := [], unread := unread } }

/-- The tuple of V-S1 in the `CFG_*` registers, `"V"` in DIN, `HAS_REGISTRY`, a chunk timeout of 10 ms. -/
def base : State :=
  { State.reset with
    ops := { argLen := 1, argCap := 16, argTimeout := 100, argHandle := 0, cfgBaud := 0x00002580#32,
             cfgLine := 0x004E0018#32, cfgNameLen := 4 }
    mem := [(0x100, 0x43#8), (0x101, 0x4F#8), (0x102, 0x4D#8), (0x103, 0x35#8), (0x400, 0x56#8)] }

/-- The name and parameters of V-S1. -/
def tupleS1 : Tuple :=
  { baud := 0x00002580#32, line := 0x004E0018#32, nameLen := 4, name := [0x43#8, 0x4F#8, 0x4D#8, 0x35#8] }

/-- `base` with its direct Session and slot 0 `Open`, the same bytes waiting for both, and coming turns. -/
def opened (unread : List Byte) (turns : List Turn) : State :=
  { base with
    direct := openWith unread
    regSize := 1
    slots := [{ occ := true, session := openWith unread }]
    world := { base.world with turns := turns } }

/-- `s` with other coming turns. -/
def withTurns (s : State) (turns : List Turn) : State := { s with world := { s.world with turns := turns } }

/-- `s` with a `CFG_LINE`. -/
def withLine (s : State) (line : Word) : State := { s with ops := { s.ops with cfgLine := line } }

/-- `s` with an `ARG_HANDLE`. -/
def withHandleReg (s : State) (h : Word) : State := { s with ops := { s.ops with argHandle := h } }

/-- `s` with `ARG_LEN` and the bytes of DIN from index 0. -/
def withDin (s : State) (n : Half) (bs : List Byte) : State :=
  { s with ops := { s.ops with argLen := n }, mem := s.mem.writeBytes dinBase bs }

/-- A turn in which a `T.read` returns `n` bytes at once. -/
def gives (n : Nat) : Turn := { take := n }

/-- A turn in which bytes arrive `ms` milliseconds into a `T.read`, which returns `n` of them. -/
def brings (ms n : Nat) (bs : List Byte) : Turn := { lasts := ms, take := n, arrive := bs }

/-- A turn in which no byte arrives within the 10 ms of a `T.read`. -/
def silent : Turn := { lasts := 10 }

/-- The environment of `s` with the clock stepping, or not, between steps 3 and 5 of its next ReadResponse. -/
def withStart (s : State) (b : Bool) : State := { s with world := { s.world with starts := [b] } }

/-- `s` with an `ARG_TIMEOUT`. -/
def withTimeout (s : State) (ms : Word) : State := { s with ops := { s.ops with argTimeout := ms } }

/-- `s` with another `CHUNK_LEN`. -/
def withChunk (s : State) (n : Nat) (h : ({ Params.atReset.toParamTable with chunkLen := n } : ParamTable).legal = true) :
    State :=
  { s with params := { Params.atReset with chunkLen := n, isLegal := h } }

/-- A READRSP in progress `ms` milliseconds after `T0`, its pending read having lasted the last of them, at most 10. -/
def pending (unread : List Byte) (ms : Nat) : State :=
  let s := opened unread []
  { s with busy := true, cmd := 0x22#8, world := { s.world with now := BitVec.ofNat 32 ms, waited := min ms 10 } }

/-- The turns of V-R18 and V-R19 but the last: nothing until 97 ms, then `02`, `56` and `03` at 97, 98 and 99 ms. -/
def until99 : List Turn :=
  List.replicate 9 silent ++ [brings 7 1 [0x02#8], brings 1 1 [0x56#8], brings 1 1 [0x03#8]]

/-! ## Well-formedness -/

theorem test_wf_rejects_reserved_bits : cmdWordWf 0xABCDEF10#32 = false := by decide
theorem test_wf_accepts_opcode_word : cmdWordWf 0x00000010#32 = true := by decide
theorem test_wf_rejects_chunkLen_zero :
    ParamTable.legal { Params.atReset.toParamTable with chunkLen := 0 } = false := by decide
theorem test_wf_rejects_chunkTimeout_zero :
    ParamTable.legal { Params.atReset.toParamTable with chunkTimeoutMs := 0 } = false := by decide
theorem test_wf_rejects_no_slots :
    ParamTable.legal { Params.atReset.toParamTable with nslotsMax := some 0 } = false := by decide
theorem test_wf_rejects_other_frame_length :
    ParamTable.fixed { Params.atReset.toParamTable with maxFrame := 512 } = false := by decide
theorem test_wf_rejects_other_timer_width :
    ParamTable.fixed { Params.atReset.toParamTable with timerW := 16 } = false := by decide

/-! ## Decoding: each opcode of R72 written out bit by bit -/

theorem test_decode_ENCODE : decode 0b00000000000000000000000000010000#32 = .command .encode := by decide
theorem test_decode_DECODE : decode 0b00000000000000000000000000010001#32 = .command .decode := by decide
theorem test_decode_CONNECT : decode 0b00000000000000000000000000100000#32 = .command .connect := by decide
theorem test_decode_SENDCMD : decode 0b00000000000000000000000000100001#32 = .command .sendcmd := by decide
theorem test_decode_READRSP : decode 0b00000000000000000000000000100010#32 = .command .readrsp := by decide
theorem test_decode_DISCONNECT : decode 0b00000000000000000000000000100011#32 = .command .disconnect := by decide
theorem test_decode_FLUSH : decode 0b00000000000000000000000000100100#32 = .command .flush := by decide
theorem test_decode_RCREATE : decode 0b00000000000000000000000000110000#32 = .command .rcreate := by decide
theorem test_decode_ROPEN : decode 0b00000000000000000000000000110001#32 = .command .ropen := by decide
theorem test_decode_RCLOSE : decode 0b00000000000000000000000000110010#32 = .command .rclose := by decide
theorem test_decode_RWRITE : decode 0b00000000000000000000000000110011#32 = .command .rwrite := by decide
theorem test_decode_RREAD : decode 0b00000000000000000000000000110100#32 = .command .rread := by decide
theorem test_decode_RFLUSH : decode 0b00000000000000000000000000110101#32 = .command .rflush := by decide
theorem test_decode_RDEINIT : decode 0b00000000000000000000000000110110#32 = .command .rdeinit := by decide

/-- V-I7: only bits [7:0] are decoded. -/
theorem test_decode_ignores_high_bits : decode 0xABCDEF10#32 = .command .encode := by decide

/-- V-I1 to V-I6. -/
theorem test_decode_illegal :
    [0x00000000#32, 0x0000007F#32, 0x00000012#32, 0x00000025#32, 0x00000037#32, 0x000000FF#32].map decode =
      [.illegalOpcode 0x00#8, .illegalOpcode 0x7F#8, .illegalOpcode 0x12#8, .illegalOpcode 0x25#8,
        .illegalOpcode 0x37#8, .illegalOpcode 0xFF#8] := by decide

theorem test_encode_words :
    [Instr.encode, .readrsp, .rdeinit].map encode = [0x00000010#32, 0x00000022#32, 0x00000036#32] := by decide

theorem test_decodeTableWord : decodeTableWord 32 0x36 = some .rdeinit ∧ decodeTableWord 32 0x37 = none := by decide

/-- The step runs the word placed for it as the first command after reset. -/
theorem test_step_runs_fetch_word :
    after (step (State.reset.withFetchWord 32 0x10)) (fun s => s.cmd = 0x10#8 && s.resLen = 3#16 && !s.busy) = true := by
  decide

/-! ## The commands -/

/-- V-E5. -/
theorem test_ENCODE_three_bytes :
    after (exec .encode (withDin base 3 [0x31#8, 0x32#8, 0x33#8]))
      (fun s => s.doutBytes 6 = [0x02#8, 0x31#8, 0x32#8, 0x33#8, 0x03#8, 0x33#8] && s.resLen = 6#16 && status s = 0) =
      true := by decide

/-- V-E13: the smallest payload that fails. -/
theorem test_ENCODE_too_large :
    after (exec .encode { base with ops := { base.ops with argLen := 1022 } })
      (fun s => status s = 0x00000101#32 && s.resLen = 0#16 && s.mem = base.mem) = true := by decide

/-- V-D17, with bytes after the BCC (V-D18) and a capacity of 1 (V-D23). -/
theorem test_DECODE_noise_and_tail :
    after (exec .decode { withDin base 8 [0x03#8, 0x02#8, 0x4F#8, 0x4B#8, 0x03#8, 0x07#8, 0xDE#8, 0xAD#8] with
        ops := { base.ops with argLen := 8, argCap := 1 } })
      (fun s => s.resLen = 1#16 && s.dout 0 = 0x4F#8 && s.dout 1 = 0#8 && status s = 0) = true := by decide

/-- V-D14: a complete frame with no payload. -/
theorem test_DECODE_empty :
    after (exec .decode (withDin base 3 [0x02#8, 0x03#8, 0x03#8])) (fun s => status s = 0x00000605#32) = true := by decide

/-- V-S1. -/
theorem test_CONNECT_ok :
    after (exec .connect (withTurns base [{}])) (fun s =>
      status s = 0 && s.direct.state = .opened && s.direct.acfg = tupleS1 &&
        calls s = [(.direct, .openPort tupleS1 .ok)]) = true := by decide

/-- V-S8: an invalid tuple on an open Session closes the old connection. -/
theorem test_CONNECT_drops_old :
    after (exec .connect (withLine (opened [] [{}]) 0x004E0019#32)) (fun s =>
      status s = 0x00000407#32 && s.direct.state = .unconfigured && !s.direct.transport.held &&
        calls s = [(.direct, .closePort)]) = true := by decide

/-- V-S18. -/
theorem test_SENDCMD_ok :
    after (exec .sendcmd (opened [] [{ count := 4 }])) (fun s =>
      status s = 0 && s.direct.transport.unsent = [0x02#8, 0x56#8, 0x03#8, 0x55#8] &&
        calls s = [(.direct, .write [0x02#8, 0x56#8, 0x03#8, 0x55#8] 4)]) = true := by decide

/-- V-S21: a negative count. -/
theorem test_SENDCMD_negative_count :
    after (exec .sendcmd (opened [] [{ count := -1, sent := 2 }])) (fun s =>
      status s = 0x0000050A#32 && s.direct.state = .opened && s.direct.transport.unsent = [0x02#8, 0x56#8]) = true := by
  decide

/-- V-R10: a wrong checksum ends the call at once; the next byte stays. -/
theorem test_READRSP_checksum :
    after (exec .readrsp (opened [0x02#8, 0x56#8, 0x03#8, 0x54#8, 0x99#8] [gives 1, gives 1, gives 1, gives 1]))
      (fun s => status s = 0x00000804#32 && s.direct.transport.unread = [0x99#8] && s.resLen = 0#16) = true := by decide

/-- V-R24: with `CHUNK_LEN` 3 the bytes read beyond the BCC are lost. -/
theorem test_READRSP_reads_ahead :
    after (exec .readrsp
        { opened [0x02#8, 0x56#8, 0x03#8, 0x55#8, 0x02#8, 0x57#8, 0x03#8, 0x54#8] [gives 3, gives 3] with
          params := { Params.atReset with chunkLen := 3 } })
      (fun s => status s = 0 && s.resLen = 1#16 && s.dout 0 = 0x56#8 &&
        s.direct.transport.unread = [0x03#8, 0x54#8]) = true := by decide

/-- V-S12. -/
theorem test_DISCONNECT_open :
    after (exec .disconnect (opened [] [{}])) (fun s =>
      status s = 0 && s.direct.state = .closed && calls s = [(.direct, .closePort)]) = true := by decide

/-- V-S14: a no-op, not an error, and no call. -/
theorem test_DISCONNECT_reset :
    after (exec .disconnect State.reset) (fun s => decide (s = State.reset)) = true := by decide

/-- V-S16. -/
theorem test_FLUSH_open :
    after (exec .flush (opened [0x99#8] [{ dropRx := 1 }])) (fun s =>
      status s = 0 && s.direct.state = .opened && s.direct.transport.unread = [] && calls s = [(.direct, .flush)]) =
      true := by decide

/-- V-S17. -/
theorem test_FLUSH_not_connected :
    after (exec .flush base) (fun s => status s = 0x00000308#32 && calls s = []) = true := by decide

/-- V-G2: the second slot is appended. -/
theorem test_RCREATE_appends :
    after (exec .rcreate (opened [] [{}])) (fun s =>
      status s = 0 && s.resHandle = 1 && s.regSize = 2 && (slotAt s.slots 1).occ &&
        calls s = [(.slot 1, .openPort tupleS1 .ok)]) = true := by decide

/-- V-G3. -/
theorem test_RCREATE_unavailable :
    after (exec .rcreate (opened [] [{ answer := .unavailable }])) (fun s =>
      status s = 0x00000306#32 && s.resHandle = 0xFFFFFFFF#32 && s.regSize = 1 && !(slotAt s.slots 1).occ) = true := by
  decide

/-- V-G22: a refused tuple leaves the slot occupied. -/
theorem test_ROPEN_rejected :
    after (exec .ropen (withLine (opened [] [{}]) 0x004E0019#32)) (fun s =>
      status s = 0x00000407#32 && (slotAt s.slots 0).occ && (slotAt s.slots 0).session.state = .unconfigured) = true := by
  decide

/-- V-G17. -/
theorem test_RCLOSE_open :
    after (exec .rclose (opened [] [{}])) (fun s =>
      status s = 0 && (slotAt s.slots 0).session.state = .closed && (slotAt s.slots 0).occ &&
        s.direct.state = .opened && calls s = [(.slot 0, .closePort)]) = true := by decide

/-- V-G15. -/
theorem test_RWRITE_ok :
    after (exec .rwrite (opened [] [{ count := 4 }])) (fun s =>
      status s = 0 && calls s = [(.slot 0, .write [0x02#8, 0x56#8, 0x03#8, 0x55#8] 4)]) = true := by decide

/-- V-G13, V-G14: a negative handle, and `h = REG_SIZE`. -/
theorem test_RWRITE_invalid_handle :
    after (exec .rwrite (withHandleReg (opened [] []) 0xFFFFFFFF#32)) (fun s => status s = 0x0000090D#32) = true ∧
    after (exec .rwrite (withHandleReg (opened [] []) 1)) (fun s => status s = 0x0000090D#32) = true := by decide

/-- V-G16. -/
theorem test_RREAD_ok :
    after (exec .rread (opened [0x02#8, 0x4F#8, 0x4B#8, 0x03#8, 0x07#8] [gives 1, gives 1, gives 1, gives 1, gives 1]))
      (fun s => status s = 0 && s.resLen = 2#16 && s.doutBytes 2 = [0x4F#8, 0x4B#8]) = true := by decide

/-- V-R18 and V-R19 on a slot: the read begun at 99 ms may bring the BCC at 109 ms; if it ends empty, the time is out. -/
theorem test_RREAD_times :
    after (exec .rread (opened [] (List.replicate 9 silent ++
        [brings 7 1 [0x02#8], brings 1 1 [0x56#8], brings 1 1 [0x03#8], brings 10 1 [0x55#8]])))
      (fun s => status s = 0 && s.resLen = 1#16 && s.dout 0 = 0x56#8 && s.world.now = 109) = true ∧
    after (exec .rread (opened [] (List.replicate 9 silent ++
        [brings 7 1 [0x02#8], brings 1 1 [0x56#8], brings 1 1 [0x03#8], silent, {}])))
      (fun s => status s = 0x0000070B#32 && s.world.now = 109 && s.world.log.length = 13) = true := by decide

/-- The example of R148. -/
theorem test_RFLUSH_open :
    after (exec .rflush (opened [] [{}])) (fun s => status s = 0 && calls s = [(.slot 0, .flush)]) = true := by decide

/-- V-G5, V-G7: the slot is emptied, and then the handle is invalid. -/
theorem test_RDEINIT_open :
    after (exec .rdeinit (opened [] [{}])) (fun s =>
      status s = 0 && !(slotAt s.slots 0).occ && s.regSize = 1 && (slotAt s.slots 0).session.state = .unconfigured &&
        after (exec .rdeinit s) (fun u => status u = 0x0000090D#32)) = true := by decide

/-! ## The host port -/

/-- R44. -/
theorem test_word_bytes_little_endian :
    [wordByte 0x12345678#32 0, wordByte 0x12345678#32 1, wordByte 0x12345678#32 2, wordByte 0x12345678#32 3] =
      [0x78#8, 0x56#8, 0x34#8, 0x12#8] := by decide

/-- The configuration of program P2 and its `CFG_LINE` word. -/
theorem test_cfg_line_word :
    WrittenCfg.line { name := [], baud := 9600, data := 8, stop := 1, parity := 0x4E#8, rts := false, dtr := true } =
      0x004E0218#32 := by decide

/-- The accesses of the first command of program P1. -/
theorem test_written_encode :
    (Written.encode [0x56#8]).accesses =
      [.write8 0x400 0x56#8, .write32 0x008 0x00000001#32, .write32 0x000 0x00000010#32, .poll] := by decide

/-- R79: after a SENDCMD that failed, EXCHANGE leaves its READRSP out. -/
theorem test_exchange_skips :
    after (hostAct (.skipUnless [.none] 4)
        { base with fail := .writeIncomplete, host := { base.host with queue := (Written.readrsp 16 100).accesses } })
      (fun s => decide (s.host.queue = [])) = true ∧
    (exchange [0x31#8] 16 100).length = 9 := by decide

/-- V-S11: the reserved bits of `CFG_LINE` read back as written. -/
theorem test_cfg_line_reads_back :
    after (hostAct (.write32 0x02C 0xFF4EFCD8#32) base) (fun s =>
      after (hostAct (.read32 0x02C) s) fun u => u.host.rdata = 0xFF4EFCD8#32) = true := by decide

/-- R114: a pending read of 10 ms lets 10 of 200 ms pass, and then returns before the rest does. -/
theorem test_elapse_while_reading :
    after (hostAct (.elapse 200) (pending [] 0)) (fun s =>
      decide (s.world.now = 10 ∧ s.world.waited = 10 ∧ s.host.queue = [.elapse 190])) = true := by decide

/-- V-Z1, V-Z2: a reset during a READRSP. -/
theorem test_reset_while_busy :
    after (hostAct .reset { opened [0x02#8] [] with busy := true, cmd := 0x22#8 }) (fun s =>
      status s = 0 && s.cmd = 0 && s.resHandle = 0xFFFFFFFF#32 && s.regSize = 0 && s.direct.state = .unconfigured &&
        calls s = [(.direct, .closePort), (.slot 0, .closePort)]) = true := by decide

/-! ## Witnesses: for each obligation with hypotheses, values that meet them all -/

/-- The host's next act is `a`. -/
def withAct (s : State) (a : HostAct) : State := { s with host := { s.host with queue := [a] } }

/-- The invariant in a state with two open Sessions. -/
theorem witness_inv_opened : (opened [] []).Inv where
  memWf := by decide
  txbufWf := by decide
  accWf := by decide
  errTranslates := rfl
  failNoBytes := fun h => absurd rfl h
  resFits := by decide
  txFits := by decide
  accFits := by decide
  tableFits := rfl
  occBelow := fun h hle => by
    cases h with
    | zero => exact absurd hle (by decide)
    | succ h => cases h <;> rfl
  sound := fun k => by
    cases k with
    | direct => simp [Session.sound, State.session, opened, openWith]
    | slot h =>
      cases h with
      | zero => simp [Session.sound, State.session, opened, openWith, slotAt]
      | succ h => cases h <;> simp [Session.sound, State.session, opened, slotAt, Slot.empty, Session.atReset, Transport.idle]
  settled := fun k => by
    cases k with
    | direct => simp [State.session, opened, openWith]
    | slot h =>
      cases h with
      | zero => simp [State.session, opened, openWith, slotAt]
      | succ h => cases h <;> simp [State.session, opened, slotAt, Slot.empty, Session.atReset]
  emptySlots := fun h => by
    cases h with
    | zero => simp [opened, slotAt]
    | succ h => cases h <;> simp [State.session, opened, slotAt, Slot.empty, Session.atReset]
  shownDirect := fun h => absurd h (by decide)
  shownSettled := fun h => absurd h (by decide)

theorem witness_StepKeepsTheInvariant : (opened [] []).Inv ∧ ∃ t, step (opened [] []) = .next t :=
  ⟨witness_inv_opened, _, rfl⟩

theorem witness_ResetReleasesEveryTransport :
    ((opened [] []).session .direct).sound ∧ ((opened [] []).session (.slot 0)).sound ∧
      ((opened [] []).session (.slot 0)).state = .opened :=
  ⟨witness_inv_opened.sound .direct, witness_inv_opened.sound (.slot 0), rfl⟩

theorem witness_DecodeReadsWhatEncodeWrites : decode 0xABCDEF10#32 = .command .encode := by decide

theorem witness_StepRunsTheDecodedCommand :
    (withAct base (.write32 0 0x11#32)).busy = false ∧
      (withAct base (.write32 0 0x11#32)).host.queue = .write32 0x000 0x11#32 :: [] ∧
      decode 0x11#32 = .command .decode := by decide

/-- The values next to the opcodes of the map, a registry opcode without the registry, and the first `ARG_LEN` too large. -/
theorem witness_IllegalCommandsChangeNothing :
    ((withAct base (.write32 0 0x37#32)).busy = false ∧
      (withAct base (.write32 0 0x37#32)).host.queue = .write32 0x000 0x37#32 :: []) ∧
    (∀ w ∈ [0x0F#32, 0x12#32, 0x1F#32, 0x25#32, 0x2F#32, 0x37#32, 0xFF#32], ∀ i : Instr,
      w.extractLsb' 0 8 ≠ i.opcode) ∧
    (Instr.family .rcreate = .registry ∧
      ({ base with params := { Params.atReset with hasRegistry := false } } : State).params.hasRegistry = false) ∧
    ({ base with ops := { base.ops with argLen := 1025 } } : State).len > Config.dinCap := by
  refine ⟨by decide, ?_, by decide, by decide⟩
  intro w hw i
  simp only [List.mem_cons, List.not_mem_nil, or_false] at hw
  rcases hw with rfl | rfl | rfl | rfl | rfl | rfl | rfl <;> cases i <;> decide

/-- A waiting state of each clause: with no turn to come and with one that is not ready, the largest payload, on the direct
Session and on a slot; Connect in a Session that is not open; Connect after its close; ReadResponse at once, and after twelve reads, nine of them
empty. -/
theorem witness_WaitingCommandStaysInProgress :
    (∃ u v, exec .connect (opened [] [{}]) = .next u ∧ u.busy = true ∧ u.cmd = base.cmd ∧
      exec .readrsp (opened [] []) = .next v ∧ v.busy = true) ∧
    (Addresses .sendcmd (withDin (opened [] []) 1021 []) .direct ∧
      Addresses .rwrite (withTurns (withDin (opened [] []) 1021 []) [{ ready := false }]) (.slot 0) ∧
      ((opened [] []).session .direct).state = .opened ∧ ((opened [] []).session (.slot 0)).state = .opened ∧
      Blocked (opened [] []).world.turns ∧ Blocked [({ ready := false } : Turn)] ∧
      (withDin (opened [] []) 1021 []).len + 3 ≤ Config.maxFrame) ∧
    (Addresses .connect base .direct ∧ (base.session .direct).state ≠ .opened ∧ base.tuple.valid = true ∧
      (opened [] []).freeSlot.map .slot = some (SessId.slot 1) ∧ ((opened [] []).session (.slot 1)).state ≠ .opened ∧
      (opened [] []).tuple.valid = true) ∧
    (Addresses .ropen (opened [] [{}]) (.slot 0) ∧ (opened [] [{}]).tuple.valid = true ∧
      (opened [] [{}]).world.turns = {} :: [] ∧ Blocked []) ∧
    ((opened [] []).lead ≤ (opened [] []).timeoutMs ∧ (withTimeout (opened [] []) 0).lead ≤ (withTimeout (opened [] []) 0).timeoutMs) ∧
    ∃ (s : State) (ts more : List Turn), Addresses .rread s (.slot 0) ∧ (s.session (.slot 0)).state = .opened ∧
      s.world.turns = ts ++ more ∧ (∀ t ∈ ts, t.ready = true) ∧ Blocked more ∧
      scan (s.receives (.slot 0) ts).1 = none ∧ (s.receives (.slot 0) ts).1.length < Config.accCap ∧
      s.lead + s.readTime ts ≤ s.timeoutMs ∧ (s.receives (.slot 0) ts).1 = [0x02#8, 0x56#8, 0x03#8] :=
  ⟨⟨_, _, rfl, rfl, rfl, rfl, rfl⟩,
    ⟨rfl, ⟨rfl, by decide, by decide⟩, rfl, rfl, .inl rfl, .inr ⟨_, _, rfl, rfl⟩, by decide⟩,
    ⟨rfl, by decide, by decide, by decide, by decide, by decide⟩,
    ⟨⟨rfl, by decide, by decide⟩, by decide, rfl, .inl rfl⟩, ⟨by decide, by decide⟩,
    opened [] until99, until99, [], ⟨rfl, by decide, by decide⟩, rfl, (List.append_nil _).symm, by decide, .inl rfl,
    by decide, by decide, by decide, by decide⟩

/-- CONNECT on an open Session, waiting between its close and its open. -/
theorem witness_WaitingCommandGoesOn :
    ∃ (s u v : State) (i : Instr) (ts more : List Turn), s.scratch.txbuf.wf = true ∧ s.cmd = i.opcode ∧
      s.world.turns = ts ++ more ∧ (∀ t ∈ ts, t.ready = true) ∧
      exec i { s with world := { s.world with turns := ts } } = .next u ∧ u.busy = true ∧ exec i s = .next v :=
  ⟨{ opened [] [{}, {}] with cmd := 0x20#8, busy := true }, _, _, .connect, [{}], [{}], by decide, by decide, rfl,
    by decide, rfl, rfl, rfl⟩

theorem witness_BccCoversPayloadAndEtx :
    [0x02#8, 0x56#8, 0x03#8, 0x55#8][0]? = some 0x02#8 ∧ 0 < 2 ∧
      [0x02#8, 0x56#8, 0x03#8, 0x55#8][2]? = some 0x03#8 := by decide

theorem witness_BccIgnoresOrderAndSeesOneByte :
    [0x41#8, 0x42#8].Perm [0x42#8, 0x41#8] ∧ 0x41#8 ≠ 0x43#8 := by decide

theorem witness_MissingMarkersFail :
    0x02#8 ∉ ([] : List Byte) ∧ 0x02#8 ∉ [0x03#8, 0x03#8, 0x03#8] ∧
      ([0x03#8, 0x02#8, 0x56#8][1]? = some 0x02#8 ∧ (∀ k, k < 1 → [0x03#8, 0x02#8, 0x56#8][k]? ≠ some 0x02#8) ∧
        ∀ k, 1 < k → [0x03#8, 0x02#8, 0x56#8][k]? ≠ some 0x03#8) := by
  refine ⟨by decide, by decide, by decide, by decide, fun k hk => ?_⟩
  match k with
  | 2 => decide
  | k + 3 => simp

theorem witness_ScanIsStable :
    scan [0x02#8, 0x56#8, 0x03#8, 0x55#8] = some (0, 2) ∧ scan [0x02#8, 0x56#8, 0x03#8] = none := by decide

/-- V-C1, V-X1 (`k = 0`), V-X3 (`k = 1`), and the largest payload. -/
theorem witness_FrameRoundTrip :
    (1 ≤ [0x56#8].length ∧ [0x56#8].length + 3 ≤ Config.maxFrame ∧ 0x03#8 ∉ [0x56#8]) ∧
    (1 ≤ (List.replicate 1021 0xAA#8).length ∧ (List.replicate 1021 0xAA#8).length + 3 ≤ Config.maxFrame ∧
      0x03#8 ∉ List.replicate 1021 0xAA#8) ∧
    ((∃ f, encodeFrame [0x03#8] = .ok f) ∧ [0x03#8][0]? = some 0x03#8) ∧
    ((∃ f, encodeFrame [0x41#8, 0x03#8, 0x42#8] = .ok f) ∧ [0x41#8, 0x03#8, 0x42#8][1]? = some 0x03#8 ∧
      ∀ m, m < 1 → [0x41#8, 0x03#8, 0x42#8][m]? ≠ some 0x03#8) := by
  refine ⟨by decide, ⟨by simp, by simp [Config.maxFrame], fun h => ?_⟩, ⟨⟨_, rfl⟩, by decide⟩, ⟨⟨_, rfl⟩, by decide, by decide⟩⟩
  exact absurd (List.eq_of_mem_replicate h) (by decide)

/-- The payloads of V-B, V-B2 and V-E3: a flipped bit in each region, a payload byte that becomes 0x03, a BCC that is 0x03. -/
theorem witness_FlippedBitIsNeverTheSamePayload :
    (encodeFrame [0x56#8] = .ok [0x02#8, 0x56#8, 0x03#8, 0x55#8] ∧ 0x03#8 ∉ [0x56#8] ∧
      (0x56#8 ^^^ BitVec.twoPow 8 7) ≠ 0x03#8 ∧ bcc [0x56#8] ≠ 0x03#8 ∧ bcc [0x56#8] ≠ 0x02#8 ∧ 0x02#8 ∉ [0x56#8]) ∧
    (encodeFrame [0x41#8, 0x01#8, 0x42#8] = .ok [0x02#8, 0x41#8, 0x01#8, 0x42#8, 0x03#8, 0x01#8] ∧
      0x03#8 ∉ [0x41#8, 0x01#8, 0x42#8] ∧ (0x01#8 ^^^ BitVec.twoPow 8 1) = 0x03#8) ∧
    (encodeFrame [0x00#8] = .ok [0x02#8, 0x00#8, 0x03#8, 0x03#8] ∧ bcc [0x00#8] = 0x03#8) :=
  ⟨⟨rfl, by decide, by decide, by decide, by decide, by decide⟩, ⟨rfl, by decide, by decide⟩, ⟨rfl, by decide⟩⟩

theorem witness_NoiseAndTailAreIgnored :
    0x02#8 ∉ [0x00#8, 0xFF#8, 0x03#8] ∧ scan [0x02#8, 0x56#8, 0x03#8, 0x55#8] = some (0, 2) := by decide

theorem witness_EncodeBuildsTheFrame :
    ({ base with ops := { base.ops with argLen := 1021 } } : State).len + 3 ≤ Config.maxFrame ∧
      Config.maxFrame < ({ base with ops := { base.ops with argLen := 1022 } } : State).len + 3 := by decide

theorem witness_DecodeReturnsThePayload :
    (decodeFrame ((withDin base 4 [0x02#8, 0x56#8, 0x03#8, 0x55#8]).dinBytes 4) = .ok [0x56#8] ∧
      (withDin base 4 [0x02#8, 0x56#8, 0x03#8, 0x55#8]).len ≤ Config.dinCap) ∧
    (decodeFrame ((withDin base 0 []).dinBytes 0) = .error .noStartMarker ∧ (withDin base 0 []).len ≤ Config.dinCap) ∧
    (withDin base 1024 []).len ≤ Config.dinCap ∧ Config.dinCap < (withDin base 1025 []).len :=
  ⟨⟨rfl, by decide⟩, ⟨rfl, by decide⟩, by decide, by decide⟩

theorem witness_LoopbackReturnsThePayload :
    ∃ s u v : State, 1 ≤ s.len ∧ s.len ≤ Config.maxPayload ∧ 0x03#8 ∉ s.dinBytes s.len ∧ exec .encode s = .next u ∧
      v.len = s.len + 3 ∧ s.len ≤ v.cap ∧ v.dinBytes (s.len + 3) = u.doutBytes (s.len + 3) :=
  ⟨base, _, withDin base 4 [0x02#8, 0x56#8, 0x03#8, 0x55#8], by decide, by decide, by decide, rfl, by decide, by decide,
    rfl⟩

theorem witness_LineWordHoldsItsMembers :
    tupleS1.line = WrittenCfg.line
      { name := [], baud := 9600, data := 8, stop := 1, parity := 0x4E#8, rts := false, dtr := false } := by decide

/-- A row of each kind: an invalid tuple on an open Session, each answer of `T.open`. -/
theorem witness_ConnectFollowsTheTable :
    Addresses .connect base .direct ∧ Addresses .ropen (opened [] []) (.slot 0) ∧
      (connectRow .opened (withLine base 0).tuple [{}]).isSome = true ∧
      (connectRow .unconfigured base.tuple [{}]).isSome = true ∧
      (connectRow .closed base.tuple [{ answer := .unavailable }]).isSome = true ∧
      (connectRow .opened base.tuple [{}, { answer := .rejected }]).isSome = true :=
  ⟨rfl, ⟨rfl, by decide, by decide⟩, by decide, by decide, by decide, by decide⟩

theorem witness_SendWritesTheFrameOnce :
    Addresses .sendcmd (withDin (opened [] [{ count := 4 }]) 1021 []) .direct ∧
      Addresses .rwrite (opened [] [{ count := 3 }]) (.slot 0) ∧
      ((opened [] []).session (.slot 0)).state = .opened ∧
      (withDin (opened [] [{ count := 4 }]) 1021 []).len + 3 ≤ Config.maxFrame :=
  ⟨rfl, ⟨rfl, by decide, by decide⟩, rfl, by decide⟩

/-- The whole frame, and nothing of it. -/
theorem witness_WriteAppendsTheCountedBytes :
    Addresses .rwrite (opened [] [{ count := 4 }]) (.slot 0) ∧ ((opened [] []).session (.slot 0)).state = .opened ∧
      ({ count := 4 } : Turn).count = ((4 : Nat) : Int) ∧ 4 ≤ (opened [] []).len + 3 ∧
      ({ count := 0 } : Turn).count = ((0 : Nat) : Int) ∧ (∃ u, exec .rwrite (opened [] [{ count := 4 }]) = .next u) :=
  ⟨⟨rfl, by decide, by decide⟩, rfl, by decide, by decide, by decide, _, rfl⟩

theorem witness_OversizedPayloadIsNotSent :
    Addresses .sendcmd (withDin (opened [] []) 1022 []) .direct ∧
      ((withDin (opened [] []) 1022 []).session .direct).state = .opened ∧
      Config.maxFrame < (withDin (opened [] []) 1022 []).len + 3 := ⟨rfl, rfl, by decide⟩

theorem witness_ExchangeNeedsAnOpenSession :
    Addresses .readrsp base .direct ∧ (base.session .direct).state ≠ .opened ∧
      Addresses .rflush { base with regSize := 1, slots := [{ occ := true, session := .atReset }] } (.slot 0) :=
  ⟨rfl, by decide, rfl, by decide, by decide⟩

/-- V-R18: the last byte comes in a read that begins at 99 ms and ends at 109 ms, with a timeout of 100 ms.  And noise, a frame
and one byte more in one read, with `CHUNK_LEN` 6 and the clock stepping between steps 3 and 5. -/
theorem witness_ReadResponseReceivesAFrame :
    (∃ (s : State) (ts : List Turn) (last : Turn), Addresses .readrsp s .direct ∧ (s.session .direct).state = .opened ∧
      s.timeoutMs + s.params.chunkTimeoutMs < 2 ^ Config.timerW ∧
      s.world.turns = ts ++ last :: [] ∧ (∀ t ∈ ts ++ [last], t.ready = true) ∧
      (s.receives .direct (ts ++ [last])).1 = [] ++ ([0x02#8] ++ [0x56#8] ++ [0x03#8] ++ [bcc [0x56#8]]) ++ [] ∧
      (s.receives .direct ts).1.length < ([] : List Byte).length + [0x56#8].length + 3 ∧
      s.lead + s.readTime ts ≤ s.timeoutMs ∧ s.timeoutMs < s.lead + s.readTime (ts ++ [last])) ∧
    ∃ (s : State) (last : Turn), Addresses .rread s (.slot 0) ∧ (s.session (.slot 0)).state = .opened ∧
      1 ≤ [0x56#8].length ∧ 0x03#8 ∉ [0x56#8] ∧ 0x02#8 ∉ [0x03#8] ∧
      s.timeoutMs + s.params.chunkTimeoutMs < 2 ^ Config.timerW ∧ s.world.turns = [] ++ last :: [] ∧
      (∀ t ∈ [] ++ [last], t.ready = true) ∧
      (s.receives (.slot 0) ([] ++ [last])).1 =
        [0x03#8] ++ ([0x02#8] ++ [0x56#8] ++ [0x03#8] ++ [bcc [0x56#8]]) ++ [0x99#8] ∧
      (s.receives (.slot 0) []).1.length < [0x03#8].length + [0x56#8].length + 3 ∧ s.lead = 1 ∧
      s.lead + s.readTime [] ≤ s.timeoutMs :=
  ⟨⟨opened [] (until99 ++ [brings 10 1 [0x55#8]]), until99, _, rfl, rfl, by decide, rfl, by decide, by decide, by decide,
      by decide, by decide⟩,
    withStart (withChunk (opened [0x03#8, 0x02#8, 0x56#8, 0x03#8, 0x55#8, 0x99#8] [gives 6]) 6 (by decide)) true, gives 6,
    ⟨rfl, by decide, by decide⟩, rfl, by decide, by decide, by decide, by decide, rfl, by decide, by decide, by decide,
    by decide, by decide⟩

/-- A timeout of 0 and a clock that steps between steps 3 and 5; V-R3, and V-R19, where bytes came and no frame is complete;
V-R1; and a pending read that has waited its whole timeout, within the timeout of the command and past it. -/
theorem witness_SilentTransportTimesOut :
    (∃ s : State, Addresses .readrsp s .direct ∧ (s.session .direct).state = .opened ∧ s.timeoutMs < s.lead) ∧
    (∀ x ∈ [(([] : List Turn), silent, 5#32), (until99, silent, 100#32)],
      ∃ s : State, Addresses .rread s (.slot 0) ∧ (s.session (.slot 0)).state = .opened ∧
        s.timeoutMs + s.params.chunkTimeoutMs < 2 ^ Config.timerW ∧ s.world.turns = x.1 ++ x.2.1 :: [] ∧
        (∀ t ∈ x.1 ++ [x.2.1], t.ready = true) ∧ scan (s.receives (.slot 0) (x.1 ++ [x.2.1])).1 = none ∧
        (s.receives (.slot 0) (x.1 ++ [x.2.1])).1.length < Config.accCap ∧ s.lead + s.readTime x.1 ≤ s.timeoutMs ∧
        s.timeoutMs < s.lead + s.readTime (x.1 ++ [x.2.1])) ∧
    (∃ (s : State) (ts : List Turn), Addresses .readrsp s .direct ∧ (s.session .direct).state = .opened ∧
      (s.session .direct).transport.unread = [] ∧ s.timeoutMs + s.params.chunkTimeoutMs < 2 ^ Config.timerW ∧
      s.lead ≤ s.timeoutMs ∧ s.world.turns = ts ++ [] ∧ ts.length = 11 ∧
      ts.length = (s.timeoutMs - s.lead) / s.params.chunkTimeoutMs + 1 ∧
      ∀ t ∈ ts, t.ready = true ∧ t.arrive = [] ∧ s.params.chunkTimeoutMs ≤ t.lasts) ∧
    ∀ ms ∈ [100, 101], (pending [] ms).busy = true ∧ (pending [] ms).cmd = Instr.readrsp.opcode ∧
      Addresses .readrsp (pending [] ms) .direct ∧ (pending [] ms).world.turns = [] ∧
      (pending [] ms).world.waited = (pending [] ms).params.chunkTimeoutMs ∧ scan (pending [] ms).accBytes = none ∧
      (pending [] ms).scratch.accLen < Config.accCap ∧
      (elapsed (pending [] ms).scratch.t0 (pending [] ms).world.now ≤ (pending [] ms).timeoutMs ↔ ms = 100) := by
  refine ⟨⟨withStart (withTimeout (opened [] []) 0) true, rfl, rfl, by decide⟩, ?_,
    ⟨opened [] (List.replicate 11 silent), List.replicate 11 silent, rfl, rfl, rfl, by decide, by decide,
      (List.append_nil _).symm, rfl, by decide, by decide⟩, ?_⟩
  · intro x hx
    simp only [List.mem_cons, List.not_mem_nil, or_false] at hx
    rcases hx with rfl | rfl
    · exact ⟨withTimeout (opened [] [silent]) 5, ⟨rfl, by decide, by decide⟩, rfl, by decide, rfl, by decide, by decide,
        by decide, by decide, by decide⟩
    · exact ⟨opened [] (until99 ++ [silent]), ⟨rfl, by decide, by decide⟩, rfl, by decide, rfl, by decide, by decide,
        by decide, by decide, by decide⟩
  · intro ms hms
    simp only [List.mem_cons, List.not_mem_nil, or_false] at hms
    rcases hms with rfl | rfl <;> exact ⟨rfl, rfl, rfl, rfl, rfl, by decide, by decide, by decide⟩

/-- From the issue; gone on with at the very end of the time allowed; and an elapse act in a pending read. -/
theorem witness_ReadResponseKeepsItsTime :
    (Addresses .readrsp (opened [] [silent, silent]) .direct ∧
      ((opened [] [silent, silent]).session .direct).state = .opened ∧
      (opened [] [silent, silent]).timeoutMs + (opened [] [silent, silent]).params.chunkTimeoutMs < 2 ^ Config.timerW ∧
      ∃ u, exec .readrsp (opened [] [silent, silent]) = .next u) ∧
    (pending [] 110).busy = true ∧ (pending [] 110).cmd = Instr.readrsp.opcode ∧
    (pending [] 110).timeoutMs + (pending [] 110).params.chunkTimeoutMs < 2 ^ Config.timerW ∧ (pending [] 110).InTime ∧
    elapsed (pending [] 110).scratch.t0 (pending [] 110).world.now =
      (pending [] 110).timeoutMs + (pending [] 110).params.chunkTimeoutMs ∧
    (∃ u, resume (pending [] 110) = .next u) ∧ (pending [] 5).InTime ∧
    ∃ u, hostAct (.elapse 200) (pending [] 5) = .next u ∧ u.busy = true :=
  ⟨⟨rfl, rfl, by decide, _, rfl⟩, rfl, rfl, by decide, ⟨by decide, by decide⟩, by decide, ⟨_, rfl⟩,
    ⟨by decide, by decide⟩, _, rfl, rfl⟩

/-- A run in which every read is empty and lasts its timeout. -/
theorem witness_ReadResponseTerminates :
    ∃ (s u : State) (calls : List (SessId × Call)), Addresses .readrsp s .direct ∧
      (s.session .direct).state = .opened ∧
      s.timeoutMs + s.params.chunkTimeoutMs < 2 ^ Config.timerW ∧
      exec .readrsp s = .next u ∧ u.world.log = calls ++ s.world.log ∧ ∀ c ∈ calls, c.2.lastsIfEmpty :=
  ⟨opened [] [silent], _, [(.direct, .read 1 10 [] 10)], rfl, rfl, by decide, rfl, rfl, fun c hc => by
      rw [List.mem_singleton.mp hc]; exact fun _ => rfl⟩

theorem witness_NoPartialResponse :
    (Addresses .rread (opened [0x02#8, 0x56#8, 0x03#8, 0x55#8] (List.replicate 4 (gives 1))) (.slot 0) ∧
      ∃ u, exec .rread (opened [0x02#8, 0x56#8, 0x03#8, 0x55#8] (List.replicate 4 (gives 1))) = .next u ∧
        u.busy = false ∧ u.fail = .none) ∧
    (Addresses .readrsp base .direct ∧ ∃ u, exec .readrsp base = .next u ∧ u.busy = false ∧ u.fail ≠ .none) :=
  ⟨⟨⟨rfl, by decide, by decide⟩, _, rfl, rfl, rfl⟩, rfl, _, rfl, rfl, by decide⟩

/-- V-R10 and V-R11, the last byte coming in a read that ends after the timeout; and a full ACC of bytes that are no marker, in
one read. -/
theorem witness_GarbageIsNotATimeout :
    (∀ x ∈ [([0x02#8, 0x56#8, 0x03#8, 0x54#8], 3, Failure.checksumMismatch), ([0x02#8, 0x03#8, 0x03#8], 2, .empty)],
      ∃ (s : State) (ts : List Turn) (last : Turn) (a b : Nat), Addresses .rread s (.slot 0) ∧
        (s.session (.slot 0)).state = .opened ∧ s.timeoutMs + s.params.chunkTimeoutMs < 2 ^ Config.timerW ∧
        s.world.turns = ts ++ last :: [] ∧ (∀ t ∈ ts ++ [last], t.ready = true) ∧
        scan (s.receives (.slot 0) ts).1 = none ∧ (s.receives (.slot 0) ts).1.length < Config.accCap ∧
        (s.receives (.slot 0) (ts ++ [last])).1 = x.1 ∧ scan x.1 = some (a, b) ∧ decodeFrame x.1 = .error x.2.2 ∧
        s.lead + s.readTime ts ≤ s.timeoutMs ∧ s.timeoutMs < s.lead + s.readTime (ts ++ [last])) ∧
    ∃ (s : State) (last : Turn), Addresses .readrsp s .direct ∧ (s.session .direct).state = .opened ∧
      s.timeoutMs + s.params.chunkTimeoutMs < 2 ^ Config.timerW ∧ s.world.turns = [] ++ last :: [] ∧
      (∀ t ∈ [] ++ [last], t.ready = true) ∧ scan (s.receives .direct []).1 = none ∧
      (s.receives .direct []).1.length < Config.accCap ∧
      (s.receives .direct ([] ++ [last])).1.length = Config.accCap ∧ scan (s.receives .direct ([] ++ [last])).1 = none ∧
      s.lead + s.readTime [] ≤ s.timeoutMs := by
  have no : findStx (List.replicate 1024 0x00#8) = none := by
    rw [findStx, findByte_eq_none_iff]
    intro h
    exact absurd (List.eq_of_mem_replicate h) (by decide)
  refine ⟨?_, ?_⟩
  · intro x hx
    simp only [List.mem_cons, List.not_mem_nil, or_false] at hx
    rcases hx with rfl | rfl
    · exact ⟨withTimeout (opened [0x02#8, 0x56#8, 0x03#8] [gives 1, gives 1, gives 1, brings 9 1 [0x54#8]]) 5,
        [gives 1, gives 1, gives 1], _, 0, 2, ⟨rfl, by decide, by decide⟩, rfl, by decide, rfl, by decide, by decide,
        by decide, by decide, by decide, rfl, by decide, by decide⟩
    · exact ⟨withTimeout (opened [0x02#8, 0x03#8] [gives 1, gives 1, brings 9 1 [0x03#8]]) 5, [gives 1, gives 1], _, 0, 1,
        ⟨rfl, by decide, by decide⟩, rfl, by decide, rfl, by decide, by decide, by decide, by decide, by decide, rfl,
        by decide, by decide⟩
  · have hrec : ((withChunk (opened (List.replicate 1024 0x00#8) [gives 1024]) 1024 (by decide)).receives .direct
        ([] ++ [gives 1024])).1 = List.replicate 1024 0x00#8 := by
      show [] ++ (keepBy [] (List.replicate 1024 0x00#8) ++ []).take (min 1024 (min 1024 (1024 - 0))) = _
      rw [keepBy_nil]
      simp
    refine ⟨withChunk (opened (List.replicate 1024 0x00#8) [gives 1024]) 1024 (by decide), gives 1024, rfl, rfl, by decide,
      rfl, by decide, by decide, by decide, ?_, ?_, by decide⟩
    · rw [hrec]; exact List.length_replicate
    · rw [hrec, scan, no]

theorem witness_DisconnectReleasesOnce :
    (Addresses .disconnect base .direct ∧ (base.session .direct).state ≠ .opened) ∧
      Addresses .rclose (opened [] [{}]) (.slot 0) ∧ ((opened [] [{}]).session (.slot 0)).state = .opened ∧
      (opened [] [{}]).world.turns = {} :: [] := ⟨⟨rfl, by decide⟩, ⟨rfl, by decide, by decide⟩, rfl, rfl⟩

theorem witness_FlushCallsTheTransportOnce :
    Addresses .flush (opened [] [{}]) .direct ∧ Addresses .rflush (opened [] [{}]) (.slot 0) ∧
      ((opened [] [{}]).session (.slot 0)).state = .opened ∧ (opened [] [{}]).world.turns = {} :: [] :=
  ⟨rfl, ⟨rfl, by decide, by decide⟩, rfl, rfl⟩

/-- The first slot past the end; an emptied slot below it; the last slot number RES_HANDLE can hold is below the bound. -/
theorem witness_RcreateStoresInTheFreeSlot :
    ((opened [] [{}]).params.hasRegistry = true ∧ (opened [] [{}]).freeSlot = some 1 ∧ 1 < 2 ^ 31 ∧
      (connectRow ((opened [] [{}]).session (.slot 1)).state (opened [] [{}]).tuple [{}]).isSome = true) ∧
    ({ opened [] [{}] with slots := [Slot.empty] } : State).freeSlot = some 0 := by decide

theorem witness_FullRegistryIsReported :
    ({ opened [] [] with params := { Params.atReset with nslotsMax := some 1 } } : State).params.hasRegistry = true ∧
      ({ opened [] [] with params := { Params.atReset with nslotsMax := some 1 } } : State).freeSlot = none := by decide

/-- A negative handle, `h = REG_SIZE`, and the handle of an empty slot. -/
theorem witness_InvalidHandleChangesNothing :
    (opened [] []).params.hasRegistry = true ∧ (opened [] []).validHandle 0xFFFFFFFF#32 = false ∧
      (opened [] []).validHandle 1 = false ∧
      ({ opened [] [] with slots := [Slot.empty] } : State).validHandle 0 = false ∧
      (withHandleReg (opened [] []) 1).validHandle (withHandleReg (opened [] []) 1).ops.argHandle = false := by decide

theorem witness_RdeinitEmptiesTheSlot :
    Addresses .rdeinit (opened [] [{}]) (.slot 0) ∧ (opened [] [{}]).world.turns = {} :: [] ∧
      ((opened [] [{}]).session (.slot 0)).state = .opened := ⟨⟨rfl, by decide, by decide⟩, rfl, rfl⟩

theorem witness_FreedHandleIsReused :
    ∃ s u v : State, Addresses .rdeinit s (.slot 0) ∧ exec .rdeinit s = .next u ∧ u.busy = false ∧
      exec .rcreate u = .next v ∧ v.busy = false ∧ v.fail = .none :=
  ⟨opened [] [{}, {}], _, _, ⟨rfl, by decide, by decide⟩, rfl, rfl, rfl, rfl, rfl⟩

theorem witness_CommandWhileBusyIsRefused : ({ opened [] [] with busy := true } : State).busy = true := rfl

theorem witness_OperandWriteWhileBusyIsRefused :
    refuses (hostAct (.write32 0x030 0) { base with busy := true }) (.operandWriteWhileBusy 0x030) = true ∧
      refuses (hostAct (.write8 0x100 0) { base with busy := true }) (.operandWriteWhileBusy 0x100) = true ∧
      refuses (hostAct (.write8 0x1FE 0) { base with busy := true }) (.operandWriteWhileBusy 0x1FE) = true ∧
      refuses (hostAct (.write8 0x400 0) { base with busy := true }) (.operandWriteWhileBusy 0x400) = true ∧
      refuses (hostAct (.write8 0x7FF 0) { base with busy := true }) (.operandWriteWhileBusy 0x7FF) = true := by decide

theorem witness_OperandRegistersReadBack : base.busy = false := rfl

/-- Idle; a CONNECT that waits in the middle, from its issue and gone on with; a state of the invariant. -/
theorem witness_ResultRegistersAreReadable :
    ((opened [] []).busy = false ∧ (opened [] []).params.hasRegistry = true ∧ (opened [] []).regSize < 2 ^ 32) ∧
    (∃ u, hostAct (.write32 0x000 0x20#32) (opened [] [{}]) = .next u ∧ u.busy = true ∧ u.direct.state = .configured) ∧
    (∃ s u : State, s.busy = true ∧ resume s = .next u ∧ u.busy = true) ∧ ∃ s : State, s.Inv :=
  ⟨by decide, ⟨_, rfl, rfl, rfl⟩, ⟨{ opened [] [{}] with busy := true, cmd := 0x20#8 }, _, rfl, rfl, rfl⟩, _,
    witness_inv_opened⟩

/-- R48: between the close and the open of a CONNECT the host still reads `Open`. -/
theorem test_SESS_STATE_during_CONNECT :
    after (hostAct (.write32 0x000 0x20#32) (opened [] [{}])) (fun u =>
      after (hostAct (.read32 0x020) u) (fun v => v.host.rdata = 2#32)) = true := by decide

theorem witness_ReadOnlyAndReservedOffsetsIgnoreWrites :
    after (hostAct (.write8 0x1FF 1) base) (fun s => decide (s = base)) = true ∧
      after (hostAct (.write32 0x034 1) base) (fun s => decide (s = base)) = true ∧
      after (hostAct (.write8 0x800 1) base) (fun s => decide (s = base)) = true := by decide

theorem witness_BufferBytesReadBack :
    base.busy = false ∧ (0x100 ≤ 0x1FE ∧ 0x1FE ≤ 0x1FE) ∧ (0x400 ≤ 0x7FF ∧ 0x7FF ≤ 0x7FF) := by decide

/-- The first and the last offset of each buffer, against its neighbours. -/
theorem witness_offsets :
    place 0x0FF = .reserved ∧ place 0x100 = .byte .cfgName 0 ∧ place 0x1FE = .byte .cfgName 254 ∧
      place 0x1FF = .reserved ∧ place 0x3FF = .reserved ∧ place 0x400 = .byte .din 0 ∧ place 0x7FF = .byte .din 1023 ∧
      place 0x800 = .byte .dout 0 ∧ place 0xBFF = .byte .dout 1023 ∧ place 0xC00 = .outside ∧
      place 0x030 = .word .cfgNameLen ∧ place 0x033 = .insideWord ∧ place 0x034 = .reserved := by decide

/-- Accesses of the wrong width, misaligned, and outside the map. -/
theorem witness_WrongAccessesAreRefused :
    refuses (hostAct (.read32 0x031) base) (.undefinedAccess 0x031) = true ∧
      refuses (hostAct (.write8 0x030 0) base) (.undefinedAccess 0x030) = true ∧
      refuses (hostAct (.write32 0xBFF 0) base) (.undefinedAccess 0xBFF) = true ∧
      faults (hostAct (.read8 0xC00) base) (.outsideMap 0xC00) = true := by decide

theorem witness_ResultBytesAreReadable :
    base.busy = false ∧ 1023 < ({ base with resLen := 1024 } : State).resLen.toNat ∧ 1023 < Config.doutCap := by decide

theorem witness_ReadsHaveNoSideEffect :
    (∃ u, hostAct (.read32 0x004) base = .next u) ∧ ∃ u, hostAct (.read8 0x400) base = .next u := ⟨⟨_, rfl⟩, _, rfl⟩

theorem witness_CommandsLeaveTheOperandsAlone : ∃ u, exec .encode base = .next u := ⟨_, rfl⟩

theorem witness_FailureWritesNoResult :
    (∃ u, exec .sendcmd base = .next u ∧ u.busy = false ∧ u.fail ≠ .none) ∧
      ∃ u, exec .rcreate (withLine base 0) = .next u ∧ u.busy = false ∧ u.fail ≠ .none :=
  ⟨⟨_, rfl, rfl, by decide⟩, _, rfl, rfl, by decide⟩

theorem witness_OnlyTheListedFailuresAreReported : ∃ u, exec .readrsp base = .next u ∧ u.busy = false := ⟨_, rfl, rfl⟩

theorem witness_ExchangeKeepsEverySessionState :
    (∃ u, exec .rflush (opened [] [{}]) = .next u) ∧
      Instr.rflush ∈ [Instr.encode, .decode, .sendcmd, .readrsp, .flush, .rwrite, .rread, .rflush] :=
  ⟨⟨_, rfl⟩, by decide⟩

/-- A command on a slot against the direct Session, and RCREATE's free slot against slot 0. -/
theorem witness_SessionsAreIndependent :
    (∃ u, exec .rflush (opened [] [{}]) = .next u ∧ Addresses .rflush (opened [] [{}]) (.slot 0) ∧
      SessId.direct ≠ .slot 0) ∧
    ((∃ u, exec .rcreate (opened [] [{}]) = .next u) ∧
      (opened [] [{}]).freeSlot.map SessId.slot = some (.slot 1) ∧ SessId.slot 0 ≠ .slot 1) :=
  ⟨⟨_, rfl, ⟨rfl, by decide, by decide⟩, by decide⟩, ⟨_, rfl⟩, by decide, by decide⟩

theorem witness_RegistryOnlyGrows :
    (∃ u, exec .rclose (opened [] [{}]) = .next u) ∧ Instr.rclose ≠ .rdeinit ∧ (slotAt (opened [] [{}]).slots 0).occ = true :=
  ⟨⟨_, rfl⟩, by decide, rfl⟩

end Sys2Proof.Tests
end

section
/-! The state after reset (R35): its slots, its Sessions, and the table of values. -/

namespace Sys2Proof.Machine

@[simp] theorem State.slotAt_reset (h : Nat) : slotAt State.reset.slots h = Slot.empty := slotAt_nil h

/-- R35: the direct Session and the Session of every slot, listed or not, are alike after reset. -/
@[simp] theorem State.session_reset (k : SessId) : State.reset.session k = Session.atReset := by
  cases k with
  | direct => rfl
  | slot h => rw [State.session_slot, State.slotAt_reset]; rfl

/-- Settles O1: the registers are fields of the literal; slots and Sessions are read by the two lemmas above. -/
theorem resetHoldsTheValuesOfTheSpec : Obligations.ResetHoldsTheValuesOfTheSpec := by
  have noHandle : State.reset.resHandle.toInt = -1 := by decide
  have slots : ∀ h, (slotAt State.reset.slots h).occ = false := fun h => by rw [State.slotAt_reset]; rfl
  have sessions : ∀ k, (State.reset.session k).state = .unconfigured := fun k => by rw [State.session_reset]; rfl
  have transports : ∀ k, (State.reset.session k).transport.held = false := fun k => by rw [State.session_reset]; rfl
  exact ⟨rfl, rfl, rfl, rfl, rfl, rfl, rfl, rfl, rfl, noHandle, rfl, rfl, rfl, rfl, rfl, rfl,
    slots, sessions, transports⟩

end Sys2Proof.Machine
end

section
/-! The opcode map read both ways (R72, R74): a listed opcode decodes to its command under any high bits, an unlisted one
decodes to no command, and the high nibble tells the family. -/

namespace Sys2Proof

/-- The fourteen laws of `Laws.OpcodeFamily` as one. -/
theorem Laws.OpcodeFamily.statement : ∀ i : Instr, Laws.OpcodeFamily.Statement i
  | .encode => encode
  | .decode => decode
  | .connect => connect
  | .sendcmd => sendcmd
  | .readrsp => readrsp
  | .disconnect => disconnect
  | .flush => flush
  | .rcreate => rcreate
  | .ropen => ropen
  | .rclose => rclose
  | .rwrite => rwrite
  | .rread => rread
  | .rflush => rflush
  | .rdeinit => rdeinit

theorem Family.nibble_injective : Function.Injective Family.nibble := by
  intro f g
  cases f <;> cases g <;> decide

theorem Instr.family_eq_iff_nibble (i : Instr) (f : Family) : i.family = f ↔ i.opcode.extractLsb' 4 4 = f.nibble := by
  obtain ⟨_, _, nibble⟩ := Laws.OpcodeFamily.statement i
  rw [nibble, Family.nibble_injective.eq_iff]

/-- Every row of the opcode map holds the opcode of its command. -/
theorem fst_eq_opcode_of_mem_opcodeMap {row : Byte × Instr} (h : row ∈ opcodeMap) : row.1 = row.2.opcode := by
  obtain ⟨_, rows, _⟩ := Laws.OpcodeFamily.statement row.2
  exact (rows row h).mp rfl

@[simp] theorem decodeOpcode_opcode (i : Instr) : decodeOpcode i.opcode = .command i := by
  cases i <;> rfl

theorem decodeOpcode_of_forall_ne {op : Byte} (h : ∀ i : Instr, op ≠ i.opcode) :
    decodeOpcode op = .illegalOpcode op := by
  have noRow : opcodeMap.find? (fun row => row.1 == op) = none := by
    rw [List.find?_eq_none]
    intro row hrow hop
    exact h row.2 ((beq_iff_eq.mp hop).symm.trans (fst_eq_opcode_of_mem_opcodeMap hrow))
  rw [decodeOpcode, noRow]

@[simp] theorem opcodeOf_append (hi : BitVec 24) (op : Byte) : opcodeOf (hi ++ op) = op :=
  BitVec.extractLsb'_append_eq_right

theorem decode_append_opcode (hi : BitVec 24) (i : Instr) : decode (hi ++ i.opcode) = .command i := by
  rw [decode, opcodeOf_append, decodeOpcode_opcode]

/-- Settles O5: the high nibble is the family's nibble, and each of the fourteen words is `hi ++ i.opcode`. -/
theorem opcodeMapDecodes : Obligations.OpcodeMapDecodes := by
  refine ⟨fun i => ⟨i.family_eq_iff_nibble .codec, i.family_eq_iff_nibble .session, i.family_eq_iff_nibble .registry⟩,
    fun hi => ?_⟩
  have dec := decode_append_opcode hi
  exact ⟨dec .encode, dec .decode, dec .connect, dec .sendcmd, dec .readrsp, dec .disconnect, dec .flush,
    dec .rcreate, dec .ropen, dec .rclose, dec .rwrite, dec .rread, dec .rflush, dec .rdeinit⟩

end Sys2Proof
end

section
/-! Illegal commands (R74): an unknown opcode, a registry command without the registry, a DECODE longer than DIN. -/

namespace Sys2Proof.Machine

/-- The write to `CMD` while idle runs the word, its act taken from the queue (R47). -/
theorem step_of_cmd_write {s : State} {w : Word} {rest : List HostAct} (idle : s.busy = false)
    (next : s.host.queue = .write32 0x000 w :: rest) :
    step s = runWord w { s with host := { s.host with queue := rest, yielded := false } } := by
  simp [step, hostTurn, hostAct, idle, next]

theorem runWord_of_illegalOpcode {w : Word} {op : Byte} (h : decode w = .illegalOpcode op) (s : State) :
    runWord w s = .next ((s.issue w).raise .illegalCommand) := by
  rw [runWord, h]

theorem withHandle_of_absent {s : State} (hr : s.params.hasRegistry = false) (m : Nat → State → State) :
    withHandle s m = s.raise .illegalCommand :=
  withRegistry_of_absent hr _

/-- RCREATE asks for the registry itself, the other six through the validation of their handle. -/
theorem exec_registry_of_absent {i : Instr} (hi : i.family = .registry) {s : State}
    (hr : s.params.hasRegistry = false) : exec i s = .next (s.raise .illegalCommand) := by
  cases i with
  | encode | decode | connect | sendcmd | readrsp | disconnect | flush => cases hi
  | rcreate => exact congrArg _ (withRegistry_of_absent hr _)
  | ropen | rclose | rwrite | rread | rflush | rdeinit => exact congrArg _ (withHandle_of_absent hr _)

theorem exec_decode_of_too_long {s : State} (h : s.len > Config.dinCap) :
    exec .decode s = .next (s.raise .illegalCommand) :=
  if_pos h

/-- Settles O8: all three ways end in `raise .illegalCommand`, which is the update the statement writes out. -/
theorem illegalCommandsChangeNothing : Obligations.IllegalCommandsChangeNothing := by
  refine ⟨fun s w rest idle next unlisted => ?_, fun s i hi hr => exec_registry_of_absent hi hr,
    fun s h => exec_decode_of_too_long h⟩
  have illegal : decode w = .illegalOpcode (opcodeOf w) := decodeOpcode_of_forall_ne unlisted
  rw [step_of_cmd_write idle next, runWord_of_illegalOpcode illegal]
  rfl

end Sys2Proof.Machine
end

section
/-! The markers and the block check character of a raw buffer (R90, R92, R100). -/

namespace Sys2Proof.Machine

theorem xorAll_slice_of_etx {raw : List Byte} {i j : Nat} (hij : i < j) (hj : raw[j]? = some Config.etx) :
    xorAll (slice raw (i + 1) j) = bcc (slice raw (i + 1) (j - 1)) := by
  rw [slice_snoc hij hj, xorAll_append_etx]

/-- Settles O11: the received slice is the payload with ETX behind it, whose XOR is the payload's BCC. -/
theorem bccCoversPayloadAndEtx : Obligations.BccCoversPayloadAndEtx :=
  ⟨fun _ => rfl, by decide, by decide, fun _ _ _ _ hij hj => xorAll_slice_of_etx hij hj⟩

/-- Settles O13 by the laws of the two searches. -/
theorem markersAreTheLeastIndices : Obligations.MarkersAreTheLeastIndices :=
  ⟨findStx_eq_some_iff, findStx_eq_none_iff, findEtx_eq_some_iff, findEtx_eq_none_iff⟩

theorem decodeFrame_of_findStx_none {raw : List Byte} (h : findStx raw = none) :
    decodeFrame raw = .error .noStartMarker := by
  rw [decodeFrame, h]

theorem decodeFrame_of_findEtx_none {raw : List Byte} {i : Nat} (hi : findStx raw = some i)
    (hj : findEtx raw i = none) : decodeFrame raw = .error .noEndMarker := by
  simp only [decodeFrame, hi, hj]

/-- Step 3a of R94: nothing follows ETX. -/
theorem decodeFrame_of_no_bcc {raw : List Byte} {i j : Nat} (hi : findStx raw = some i)
    (hj : findEtx raw i = some j) (hr : raw[j + 1]? = none) : decodeFrame raw = .error .checksumMismatch := by
  simp only [decodeFrame, hi, hj, hr]

/-- Settles O14: a search that finds nothing ends the decoding with its own failure. -/
theorem missingMarkersFail : Obligations.MissingMarkersFail := by
  refine ⟨fun raw noStx => decodeFrame_of_findStx_none ((findStx_eq_none_iff raw).mpr noStx),
    fun raw i stxAt least noEtx => ?_⟩
  have hi : findStx raw = some i := (findStx_eq_some_iff raw i).mpr ⟨stxAt, least⟩
  exact decodeFrame_of_findEtx_none hi ((findEtx_eq_none_iff raw i).mpr noEtx)

end Sys2Proof.Machine
end

section
/-! Decoding what was encoded (R98): the frame of a payload, with and without an ETX in it. -/

namespace Sys2Proof.Machine

theorem encodeFrame_eq_ok_iff (p f : List Byte) :
    encodeFrame p = .ok f ↔ p.length + 3 ≤ Config.maxFrame ∧ frameOf p = f := by
  unfold encodeFrame
  split
  · next h => simp; omega
  · next h => simp; omega

theorem decodeFrame_frameOf {p : List Byte} (h : Config.etx ∉ p) :
    decodeFrame (frameOf p) = if p = [] then .error .empty else .ok p := by
  rw [frameOf_eq, decodeFrame_cut p [] (bcc p) h, if_neg (not_not_intro rfl)]

/-- The first ETX behind STX ends the payload, whatever the sender meant by it, and the byte after it is taken for
the BCC (R94, R98). -/
theorem decodeFrame_of_first_etx {body : List Byte} {k : Nat} {r : Byte} (etxAt : body[k]? = some Config.etx)
    (noEtxBefore : Config.etx ∉ body.take k) (hr : body[k + 1]? = some r) :
    decodeFrame (Config.stx :: body) =
      if xorAll (body.take k) ^^^ Config.etx ≠ r then .error .checksumMismatch
      else if k = 0 then .error .empty
      else .ok (body.take k) := by
  obtain ⟨hk, etxEq⟩ := List.getElem?_eq_some_iff.mp etxAt
  obtain ⟨hk', rEq⟩ := List.getElem?_eq_some_iff.mp hr
  have parts : body = body.take k ++ Config.etx :: r :: body.drop (k + 2) := by
    rw [← etxEq, ← rEq, List.getElem_cons_drop, List.getElem_cons_drop, List.take_append_drop]
  have emptyIff : body.take k = [] ↔ k = 0 := by
    rw [List.take_eq_nil_iff, or_iff_left (List.ne_nil_of_length_pos (by omega))]
  conv_lhs => rw [parts]
  simp only [decodeFrame_cut _ _ r noEtxBefore, emptyIff, bcc]

theorem notMem_take_of_forall {b : Byte} {p : List Byte} {k : Nat} (h : ∀ m, m < k → p[m]? ≠ some b) :
    b ∉ p.take k := by
  intro mem
  obtain ⟨m, hm, e⟩ := List.mem_take_iff_getElem.mp mem
  exact h m (by omega) (List.getElem?_eq_some_iff.mpr ⟨by omega, e⟩)

/-- Behind the payload stands the real ETX. -/
theorem getElem?_append_etx_bcc {p : List Byte} {m : Nat} (h : m ≤ p.length) (c : Byte) :
    (p ++ [Config.etx, c])[m]? = some (p[m]?.getD Config.etx) := by
  rcases Nat.lt_or_eq_of_le h with hlt | rfl
  · simp [List.getElem?_append_left, hlt]
  · simp

/-- Settles O16: `decodeFrame_frameOf` without a 0x03, `decodeFrame_of_first_etx` at the first one otherwise. -/
theorem frameRoundTrip : Obligations.FrameRoundTrip := by
  refine ⟨fun p nonempty fits noEtx => ?_, fun p k f encoded etxAt first => ?_, ?_⟩
  · have hp : p ≠ [] := List.ne_nil_of_length_pos nonempty
    exact ⟨frameOf p, (encodeFrame_eq_ok_iff p _).mpr ⟨fits, rfl⟩, by rw [decodeFrame_frameOf noEtx, if_neg hp]⟩
  · obtain ⟨-, rfl⟩ := (encodeFrame_eq_ok_iff p f).mp encoded
    have hk : k < p.length := (List.getElem?_eq_some_iff.mp etxAt).1
    have takeEq : (p ++ [Config.etx, bcc p]).take k = p.take k := List.take_append_of_le_length (by omega)
    have noEtx : Config.etx ∉ (p ++ [Config.etx, bcc p]).take k := takeEq ▸ notMem_take_of_forall first
    rw [frameOf_eq, decodeFrame_of_first_etx (by rwa [List.getElem?_append_left hk]) noEtx
      (getElem?_append_etx_bcc hk _), takeEq]
    rfl
  · exact ⟨frameOf [], rfl, decodeFrame_frameOf List.not_mem_nil⟩

end Sys2Proof.Machine
end

section
/-! One changed byte of a valid frame (R99): for each region of the frame, what `DecodeFrame` answers. -/

namespace Sys2Proof.Machine

/-! ## The changed frame in its parts -/

section
variable (p : List Byte) (y : Byte)

theorem frameOf_set_stx : (frameOf p).set 0 y = y :: (p ++ [Config.etx, bcc p]) := by
  rw [frameOf_eq, List.set_cons_zero]

theorem frameOf_set_payload {m : Nat} (hm : m < p.length) :
    (frameOf p).set (m + 1) y = Config.stx :: (p.set m y ++ [Config.etx, bcc p]) := by
  rw [frameOf_eq, List.set_cons_succ, List.set_append_left _ _ hm]

theorem frameOf_set_etx : (frameOf p).set (p.length + 1) y = Config.stx :: (p ++ [y, bcc p]) := by
  simp [frameOf_eq]

theorem frameOf_set_bcc : (frameOf p).set (p.length + 2) y = Config.stx :: (p ++ [Config.etx, y]) := by
  simp [frameOf_eq]

end

/-! ## The rows -/

theorem xor_twoPow_ne (x : Byte) {b : Nat} (hb : b < 8) : x ^^^ BitVec.twoPow 8 b ≠ x := by
  intro h
  have bit := congrArg (BitVec.getLsbD · b) h
  simp [hb] at bit

/-- A changed payload byte changes the BCC (R103: `x xor x = 0`). -/
theorem bcc_set_ne {p : List Byte} {m : Nat} {x y : Byte} (hx : p[m]? = some x) (hy : y ≠ x) :
    bcc (p.set m y) ≠ bcc p := by
  obtain ⟨hm, rfl⟩ := List.getElem?_eq_some_iff.mp hx
  have parts : p = p.take m ++ p[m] :: p.drop (m + 1) := by simp
  intro h
  rw [List.set_eq_take_append_cons_drop, if_pos hm] at h
  conv at h => rhs; rw [parts]
  simp only [bcc, xorAll_append, xorAll_cons, BitVec.xor_left_inj, BitVec.xor_right_inj] at h
  exact hy h

theorem decodeFrame_set_payload {p : List Byte} {m : Nat} {x y : Byte} (noEtx : Config.etx ∉ p)
    (hx : p[m]? = some x) (hy : y ≠ x) (hyEtx : y ≠ Config.etx) :
    decodeFrame ((frameOf p).set (m + 1) y) = .error .checksumMismatch := by
  have hm : m < p.length := (List.getElem?_eq_some_iff.mp hx).1
  have noEtx' : Config.etx ∉ p.set m y := fun mem => (List.mem_or_eq_of_mem_set mem).elim noEtx hyEtx.symm
  rw [frameOf_set_payload p y hm, decodeFrame_cut _ [] _ noEtx', if_pos (bcc_set_ne hx hy)]

/-- The changed byte is taken for ETX and the byte after it for the BCC. -/
theorem decodeFrame_set_payload_etx {p : List Byte} {m : Nat} (noEtx : Config.etx ∉ p) (hm : m < p.length) :
    decodeFrame ((frameOf p).set (m + 1) Config.etx) =
      if xorAll (p.take m) ^^^ Config.etx ≠ (frameOf p)[m + 2]?.getD 0 then .error .checksumMismatch
      else if m = 0 then .error .empty
      else .ok (p.take m) := by
  have takeEq : (p.set m Config.etx ++ [Config.etx, bcc p]).take m = p.take m := by
    rw [List.take_append_of_le_length (by rw [List.length_set]; omega), List.take_set_of_le (Nat.le_refl m)]
  have bccAt : (p.set m Config.etx ++ [Config.etx, bcc p])[m + 1]? = some ((frameOf p)[m + 2]?.getD 0) := by
    rw [getElem?_append_etx_bcc (by simpa using hm), List.getElem?_set_ne (by omega), frameOf_eq,
      List.getElem?_cons_succ, getElem?_append_etx_bcc hm, Option.getD_some]
  have noEtxBefore : Config.etx ∉ (p.set m Config.etx ++ [Config.etx, bcc p]).take m :=
    takeEq ▸ fun mem => noEtx (List.mem_of_mem_take mem)
  have etxAt : (p.set m Config.etx ++ [Config.etx, bcc p])[m]? = some Config.etx := by
    rw [getElem?_append_etx_bcc (by simpa using hm.le), List.getElem?_set_self hm, Option.getD_some]
  rw [frameOf_set_payload p _ hm, decodeFrame_of_first_etx etxAt noEtxBefore bccAt, takeEq]

/-- With ETX and every other byte behind STX not 0x03, no end is found. -/
theorem decodeFrame_set_etx {p : List Byte} {y : Byte} (noEtx : Config.etx ∉ p) (hy : y ≠ Config.etx)
    (hb : bcc p ≠ Config.etx) : decodeFrame ((frameOf p).set (p.length + 1) y) = .error .noEndMarker := by
  rw [frameOf_set_etx]
  refine decodeFrame_of_findEtx_none (i := 0) (by simp [findStx, findByte]) ?_
  rw [findEtx, Option.map_eq_none_iff, findByte_eq_none_iff]
  simp [noEtx, hy.symm, hb.symm]

/-- The BCC is taken for ETX, and nothing follows it. -/
theorem decodeFrame_set_etx_of_bcc_eq {p : List Byte} {y : Byte} (noEtx : Config.etx ∉ p) (hy : y ≠ Config.etx)
    (hb : bcc p = Config.etx) : decodeFrame ((frameOf p).set (p.length + 1) y) = .error .checksumMismatch := by
  rw [frameOf_set_etx, hb]
  refine decodeFrame_of_no_bcc (i := 0) (j := p.length + 2) (by simp [findStx, findByte]) ?_ (by simp)
  rw [findEtx, List.drop_succ_cons, List.drop_zero, findByte_append_of_notMem noEtx]
  simp [findByte, hy]
  omega

theorem decodeFrame_set_bcc {p : List Byte} {y : Byte} (noEtx : Config.etx ∉ p) (hy : y ≠ bcc p) :
    decodeFrame ((frameOf p).set (p.length + 2) y) = .error .checksumMismatch := by
  rw [frameOf_set_bcc, decodeFrame_cut p [] y noEtx, if_pos hy.symm]

theorem decodeFrame_set_stx {p : List Byte} {y : Byte} (hy : y ≠ Config.stx) (noStx : Config.stx ∉ p)
    (hb : bcc p ≠ Config.stx) : decodeFrame ((frameOf p).set 0 y) = .error .noStartMarker := by
  rw [frameOf_set_stx]
  refine decodeFrame_of_findStx_none ((findStx_eq_none_iff _).mpr ?_)
  have : Config.stx ≠ Config.etx := by decide
  simp [noStx, hy.symm, hb.symm, this]

/-! ## Never the payload -/

/-- A payload comes out of a complete scan only: it is what stands between the two markers. -/
theorem scan_of_decodeFrame_ok {raw q : List Byte} (h : decodeFrame raw = .ok q) :
    ∃ i j, scan raw = some (i, j) ∧ q = slice raw (i + 1) (j - 1) := by
  cases hi : findStx raw with
  | none => cases (decodeFrame_of_findStx_none hi).symm.trans h
  | some i =>
    cases hj : findEtx raw i with
    | none => cases (decodeFrame_of_findEtx_none hi hj).symm.trans h
    | some j =>
      cases hr : raw[j + 1]? with
      | none => cases (decodeFrame_of_no_bcc hi hj hr).symm.trans h
      | some r =>
        rw [decodeFrame_of_markers hi hj hr] at h
        split_ifs at h
        have bccIn : j + 1 < raw.length := (List.getElem?_eq_some_iff.mp hr).1
        exact ⟨i, j, (scan_eq_some_iff raw i j).mpr ⟨hi, hj, bccIn⟩, (Except.ok.inj h).symm⟩

/-- What stands before STX, the two markers and the BCC all take room beside the payload. -/
theorem length_of_decodeFrame_ok {raw q : List Byte} (h : decodeFrame raw = .ok q) :
    ∃ i, findStx raw = some i ∧ i + q.length + 3 ≤ raw.length := by
  obtain ⟨i, j, complete, rfl⟩ := scan_of_decodeFrame_ok h
  obtain ⟨hi, hj, bccIn⟩ := (scan_eq_some_iff raw i j).mp complete
  have hij : i < j := ((findEtx_eq_some_iff raw i j).mp hj).1
  refine ⟨i, hi, ?_⟩
  have : (slice raw (i + 1) (j - 1)).length ≤ j - 1 - i := by simp [slice]
  omega

/-- With STX gone, a payload found behind a later 0x02 is too short. -/
theorem decodeFrame_set_stx_ne_ok {p : List Byte} {y : Byte} (hy : y ≠ Config.stx) :
    decodeFrame ((frameOf p).set 0 y) ≠ .ok p := by
  intro h
  obtain ⟨i, hi, room⟩ := length_of_decodeFrame_ok h
  rw [List.length_set, length_frameOf] at room
  obtain rfl : i = 0 := by omega
  have stxAt := ((findStx_eq_some_iff _ 0).mp hi).1
  rw [frameOf_set_stx, List.getElem?_cons_zero, Option.some.injEq] at stxAt
  exact hy stxAt

/-- What a payload byte turned into 0x03 leaves of the payload is shorter than it. -/
theorem decodeFrame_set_payload_etx_ne_ok {p : List Byte} {m : Nat} (noEtx : Config.etx ∉ p) (hm : m < p.length) :
    decodeFrame ((frameOf p).set (m + 1) Config.etx) ≠ .ok p := by
  rw [decodeFrame_set_payload_etx noEtx hm]
  split_ifs
  · exact nofun
  · exact nofun
  · intro h
    have short := congrArg List.length (Except.ok.inj h)
    rw [List.length_take] at short
    omega

/-! ## Where a byte of the frame stands -/

theorem getElem?_frameOf_payload {p : List Byte} {m : Nat} (hm : m < p.length) : (frameOf p)[m + 1]? = p[m]? := by
  rw [frameOf_eq, List.getElem?_cons_succ, List.getElem?_append_left hm]

theorem getElem?_frameOf_etx (p : List Byte) : (frameOf p)[p.length + 1]? = some Config.etx := by
  simp [frameOf_eq]

theorem getElem?_frameOf_bcc (p : List Byte) : (frameOf p)[p.length + 2]? = some (bcc p) := by
  simp [frameOf_eq]

/-- The four regions of a frame (R65), with the byte that stands there. -/
theorem region_of_getElem?_frameOf {p : List Byte} {k : Nat} {x : Byte} (h : (frameOf p)[k]? = some x) :
    (k = 0 ∧ x = Config.stx) ∨ (∃ m, k = m + 1 ∧ m < p.length ∧ p[m]? = some x) ∨
      (k = p.length + 1 ∧ x = Config.etx) ∨ (k = p.length + 2 ∧ x = bcc p) := by
  have hk : k < p.length + 3 := length_frameOf p ▸ (List.getElem?_eq_some_iff.mp h).1
  obtain rfl | ⟨m, rfl, hm⟩ | rfl | rfl :
      k = 0 ∨ (∃ m, k = m + 1 ∧ m < p.length) ∨ k = p.length + 1 ∨ k = p.length + 2 := by
    cases k with
    | zero => exact .inl rfl
    | succ m => by_cases hm : m < p.length <;> [exact .inr (.inl ⟨m, rfl, hm⟩); omega]
  · exact .inl ⟨rfl, (Option.some.inj h).symm⟩
  · exact .inr (.inl ⟨m, rfl, hm, getElem?_frameOf_payload hm ▸ h⟩)
  · exact .inr (.inr (.inl ⟨rfl, Option.some.inj (h.symm.trans (getElem?_frameOf_etx p))⟩))
  · exact .inr (.inr (.inr ⟨rfl, Option.some.inj (h.symm.trans (getElem?_frameOf_bcc p))⟩))

theorem decodeFrame_set_ne_ok {p : List Byte} {k : Nat} {x y : Byte} (noEtx : Config.etx ∉ p)
    (hx : (frameOf p)[k]? = some x) (hy : y ≠ x) : decodeFrame ((frameOf p).set k y) ≠ .ok p := by
  obtain ⟨rfl, rfl⟩ | ⟨m, rfl, hm, hx⟩ | ⟨rfl, rfl⟩ | ⟨rfl, rfl⟩ := region_of_getElem?_frameOf hx
  · exact decodeFrame_set_stx_ne_ok hy
  · by_cases hyEtx : y = Config.etx
    · exact hyEtx ▸ decodeFrame_set_payload_etx_ne_ok noEtx hm
    · rw [decodeFrame_set_payload noEtx hx hy hyEtx]; exact nofun
  · by_cases hb : bcc p = Config.etx
    · rw [decodeFrame_set_etx_of_bcc_eq noEtx hy hb]; exact nofun
    · rw [decodeFrame_set_etx noEtx hy hb]; exact nofun
  · rw [decodeFrame_set_bcc noEtx hy]; exact nofun

/-- Settles O17: one lemma per row, for any other byte in place of the one with a flipped bit. -/
theorem flippedBitIsNeverTheSamePayload : Obligations.FlippedBitIsNeverTheSamePayload := by
  intro p f k b x _ noEtx encoded hx hb y f'
  obtain ⟨-, rfl⟩ := (encodeFrame_eq_ok_iff p f).mp encoded
  have hy : y ≠ x := xor_twoPow_ne x hb
  refine ⟨decodeFrame_set_ne_ok noEtx hx hy, fun low high hyEtx => ?_, fun low high hyEtx => ?_,
    fun hk hbcc => ?_, fun hk hbcc => ?_, fun hk => ?_, fun hk noStx hbcc => ?_⟩
  · obtain ⟨m, rfl⟩ := Nat.exists_eq_add_of_le' low
    exact decodeFrame_set_payload noEtx (getElem?_frameOf_payload high ▸ hx) hy hyEtx
  · obtain ⟨m, rfl⟩ := Nat.exists_eq_add_of_le' low
    simp only [f', hyEtx, Nat.add_sub_cancel, Nat.add_eq_right]
    exact decodeFrame_set_payload_etx noEtx high
  · subst hk
    obtain rfl := Option.some.inj (hx.symm.trans (getElem?_frameOf_etx p))
    exact decodeFrame_set_etx noEtx hy hbcc
  · subst hk
    obtain rfl := Option.some.inj (hx.symm.trans (getElem?_frameOf_etx p))
    exact decodeFrame_set_etx_of_bcc_eq noEtx hy hbcc
  · subst hk
    obtain rfl := Option.some.inj (hx.symm.trans (getElem?_frameOf_bcc p))
    exact decodeFrame_set_bcc noEtx hy
  · subst hk
    obtain rfl : Config.stx = x := Option.some.inj hx
    exact decodeFrame_set_stx hy noStx hbcc

end Sys2Proof.Machine
end

section
/-! The commands ENCODE and DECODE (R96, R97): the outcome of each branch, and the bytes delivered in DOUT. -/

namespace Sys2Proof.Machine

theorem exec_encode_of_fits {s : State} (h : s.len + 3 ≤ Config.maxFrame) :
    exec .encode s = .next ((s.writeDout (frameOf (s.dinBytes s.len))).done (s.len + 3)) := by
  have encoded : encodeFrame (s.dinBytes s.len) = .ok (frameOf (s.dinBytes s.len)) :=
    (encodeFrame_eq_ok_iff _ _).mpr ⟨by rwa [State.dinBytes, Memory.length_readBytes], rfl⟩
  simp only [exec, execEncode, encoded, if_neg (Nat.not_lt.mpr h)]

theorem exec_encode_of_too_large {s : State} (h : Config.maxFrame < s.len + 3) :
    exec .encode s = .next (s.raise .frameTooLarge) :=
  if_pos h

theorem exec_decode_of_ok {s : State} {r : List Byte} (h : s.len ≤ Config.dinCap)
    (decoded : decodeFrame (s.dinBytes s.len) = .ok r) :
    exec .decode s = .next ((s.writeDout (r.take (min s.cap Config.doutCap))).done
      (r.take (min s.cap Config.doutCap)).length) := by
  simp only [exec, execDecode, decoded, if_neg (Nat.not_lt.mpr h), truncate]

theorem exec_decode_of_error {s : State} {c : Failure} (h : s.len ≤ Config.dinCap)
    (decoded : decodeFrame (s.dinBytes s.len) = .error c) : exec .decode s = .next (s.raise c) := by
  simp only [exec, execDecode, decoded, if_neg (Nat.not_lt.mpr h)]

/-- A command that ends by delivering result bytes: they and `RES_LEN` are all it changes beside `STATUS` (R28, R172). -/
theorem State.done_writeDout_delivers (s : State) {p : List Byte} {n : Nat} (hn : p.length = n) (h : n < 2 ^ 16) :
    Completed ((s.writeDout p).done n) .none n ∧
    ((s.writeDout p).done n).doutBytes n = p ∧
    (∀ a, (a < doutBase ∨ doutBase + n ≤ a) → ((s.writeDout p).done n).mem.read a = s.mem.read a) ∧
    (s.writeDout p).done n =
      { s with
        mem := ((s.writeDout p).done n).mem
        resLen := ((s.writeDout p).done n).resLen
        fail := .none
        err := .none
        busy := false } := by
  subst hn
  exact ⟨Completed.done _ h, State.doutBytes_writeDout s p, fun _ outside => State.read_writeDout outside, rfl⟩

/-- Settles O19: the result bytes are `frameOf` of DIN, whose four parts the statement writes out. -/
theorem encodeBuildsTheFrame : Obligations.EncodeBuildsTheFrame := by
  refine fun s => ⟨fun fits => ⟨_, exec_encode_of_fits fits, ?_⟩, fun large => exec_encode_of_too_large large⟩
  have length : (frameOf (s.dinBytes s.len)).length = s.len + 3 := by
    rw [length_frameOf, State.dinBytes, Memory.length_readBytes]
  exact s.done_writeDout_delivers length (Nat.lt_of_le_of_lt fits (by decide))

/-- Settles O20: the result bytes are the payload cut to the capacity, which the bound by DOUT_CAP lets fit RES_LEN. -/
theorem decodeReturnsThePayload : Obligations.DecodeReturnsThePayload := by
  refine fun s => ⟨fun r short decoded => ?_, fun c short decoded => exec_decode_of_error short decoded,
    fun long => exec_decode_of_too_long long⟩
  have length : (r.take (min s.cap Config.doutCap)).length = min r.length (min s.cap Config.doutCap) := by
    rw [List.length_take, Nat.min_comm]
  have fits : min r.length (min s.cap Config.doutCap) < 2 ^ 16 :=
    calc min r.length (min s.cap Config.doutCap) ≤ Config.doutCap :=
          (Nat.min_le_right _ _).trans (Nat.min_le_right _ _)
      _ < 2 ^ 16 := by decide
  exact ⟨_, length ▸ exec_decode_of_ok short decoded, s.done_writeDout_delivers length fits⟩

end Sys2Proof.Machine
end

section
/-! The check of a configuration tuple (R117). -/

namespace Sys2Proof.Machine

theorem five_le_toNat_and_le_eight_iff (b : BitVec 4) :
    (5 ≤ b.toNat ∧ b.toNat ≤ 8) ↔ (b = 5#4 ∨ b = 6#4 ∨ b = 7#4 ∨ b = 8#4) := by
  revert b
  decide

theorem Tuple.valid_iff (c : Tuple) :
    c.valid = true ↔
      (c.dataBits = 5#4 ∨ c.dataBits = 6#4 ∨ c.dataBits = 7#4 ∨ c.dataBits = 8#4) ∧
      (c.stopBits = 1#2 ∨ c.stopBits = 2#2) ∧
      (c.parity = 0x4E#8 ∨ c.parity = 0x45#8 ∨ c.parity = 0x4F#8) ∧
      c.nameLen.toNat ≤ Config.nameMax := by
  have dataBits := five_le_toNat_and_le_eight_iff c.dataBits
  simp only [Tuple.valid, Bool.and_eq_true, Bool.or_eq_true, decide_eq_true_eq, beq_iff_eq, dataBits, and_assoc,
    or_assoc]

/-- Settles O22: the accessors of the line word are the bits the statement writes out. -/
theorem tupleCheckedByItsMembers : Obligations.TupleCheckedByItsMembers :=
  Tuple.valid_iff

end Sys2Proof.Machine
end

section
/-! The end of a command that returns no bytes, and the close of an open Session (R118 step 1, R126). -/

namespace Sys2Proof.Machine

/-- A command that completes has kept within its Session (R171, R172). -/
theorem Run.Keeps.finish {k : SessId} {s : State} {r : Run Unit} (h : r.Keeps k s) (ended : r.finish.busy = false) :
    LeavesAlone k s r.finish ∧ r.finish.mem = s.mem := by
  cases r with
  | ok _ u =>
    obtain ⟨within, host, -⟩ := h
    exact ⟨(LeavesAlone.of_within within host).done 0, within.mem⟩
  | fail f u =>
    obtain ⟨within, host, -⟩ := h
    exact ⟨(LeavesAlone.of_within within host).raise f, within.mem⟩
  | waits u =>
    obtain ⟨-, busy, -⟩ := h
    cases busy.symm.trans ended

/-- The state once turn `t` has answered the `T.close` of Session `k` and its `STATE` is `Closed`. -/
def State.closedIn (k : SessId) (t : Turn) (rest : List Turn) (s : State) : State :=
  (((s.beginTurn k t rest).elapse t.lasts).endCall k .closePort
    { ((s.session k).transport.world t).discard t.dropTx t.dropRx with held := false }).setSess k .closed

section
variable (k : SessId) (t : Turn) (rest : List Turn) (s : State)

@[simp] theorem State.closedIn_scratch : (s.closedIn k t rest).scratch = s.scratch := by simp [State.closedIn]

@[simp] theorem State.closedIn_turns : (s.closedIn k t rest).world.turns = rest := by simp [State.closedIn]

@[simp] theorem State.closedIn_log : (s.closedIn k t rest).world.log = (k, .closePort) :: s.world.log := by
  simp [State.closedIn]

@[simp] theorem State.closedIn_state : ((s.closedIn k t rest).session k).state = .closed := by simp [State.closedIn]

@[simp] theorem State.closedIn_acfg : ((s.closedIn k t rest).session k).acfg = (s.session k).acfg := by
  simp [State.closedIn]

@[simp] theorem State.closedIn_held : ((s.closedIn k t rest).session k).transport.held = false := by
  simp [State.closedIn]

end

theorem disconnect_of_not_opened {k : SessId} {s : State} (h : (s.session k).state ≠ .opened) :
    disconnect k s = .ok () s :=
  if_neg h

theorem disconnect_of_opened {k : SessId} {s : State} {t : Turn} {rest : List Turn}
    (h : (s.session k).state = .opened) (ht : s.world.turns = t :: rest) (hr : t.ready = true) :
    disconnect k s = .ok () (s.closedIn k t rest) := by
  rw [disconnect, if_pos h, callClose_ready ht hr]
  rfl

/-- Settles O34: an open Session ends in `State.closedIn`; what is left alone is the frame of Disconnect. -/
theorem disconnectReleasesOnce : Obligations.DisconnectReleasesOnce := by
  intro s k i addresses hi
  rw [exec_disconnect_of addresses hi]
  refine ⟨fun notOpened => ?_, fun t rest isOpened ht hr => ?_⟩
  · rw [disconnect_of_not_opened notOpened]
    rfl
  · have keeps := disconnect_keeps k s
    rw [disconnect_of_opened isOpened ht hr] at keeps ⊢
    obtain ⟨alone, mem⟩ := keeps.finish rfl
    exact ⟨_, rfl, Completed.done _ (by decide), by simp [Calls], by simp, by simp, by simp, by simp, alone, mem,
      by simp⟩

end Sys2Proof.Machine
end

section
/-! Connect follows the rows of R130: the rows of `openRow` by steps 2 to 5 of R118, then those with a close in front. -/

namespace Sys2Proof.Machine

/-! ## The rows -/

/-- The `STATE` that Connect ends in after an answer of `T.open` (R118 step 5). -/
def OpenAnswer.after : OpenAnswer → SessState
  | .ok => .opened
  | .unavailable => .unconfigured
  | .rejected => .unconfigured

/-- The result of Connect after an answer of `T.open` (R118 step 5). -/
def OpenAnswer.result : OpenAnswer → Failure
  | .ok => .none
  | .unavailable => .portUnavailable
  | .rejected => .configRejected

theorem OpenAnswer.after_eq_opened_iff (a : OpenAnswer) : a.after = .opened ↔ a = .ok := by
  cases a <;> decide

/-- The rows of a Session that is not open: an invalid tuple, or one for the answer of `T.open`. -/
theorem openRow_cases {cfg : Tuple} {turns : List Turn} {r : ConnectRow} (h : openRow cfg turns = some r) :
    (cfg.valid = false ∧ r = ⟨[], .unconfigured, .configRejected, turns⟩) ∨
    (cfg.valid = true ∧ ∃ t rest, turns = t :: rest ∧ t.ready = true ∧
      r = ⟨[.openPort cfg t.answer], t.answer.after, t.answer.result, rest⟩) := by
  unfold openRow at h
  split at h
  · next valid =>
    split at h
    · cases h
    · next t rest =>
      split at h
      · next hr =>
        refine .inr ⟨valid, t, rest, rfl, hr, ?_⟩
        cases e : t.answer <;> rw [e] at h <;> exact (Option.some.inj h).symm
      · cases h
  · next invalid => exact .inl ⟨eq_false_of_ne_true invalid, (Option.some.inj h).symm⟩

/-- The rows of an open Session are those of one that is not, with the close in front. -/
theorem connectRow_of_opened {cfg : Tuple} {turns : List Turn} {r : ConnectRow}
    (h : connectRow .opened cfg turns = some r) :
    ∃ t rest r', turns = t :: rest ∧ t.ready = true ∧ openRow cfg rest = some r' ∧
      r = { r' with calls := .closePort :: r'.calls } := by
  unfold connectRow at h
  rw [if_pos rfl] at h
  split at h
  · cases h
  · next t rest =>
    split at h
    · next hr =>
      obtain ⟨r', hr', e⟩ := Option.map_eq_some_iff.mp h
      exact ⟨t, rest, r', rfl, hr, hr', e.symm⟩
    · cases h

theorem connectRow_of_not_opened {before : SessState} (h : before ≠ .opened) (cfg : Tuple) (turns : List Turn) :
    connectRow before cfg turns = openRow cfg turns :=
  if_neg h

/-! ## Connect -/

/-- What row `r` says of the state `u` in which a Connect of Session `k` with `cfg` completes, from `s`. -/
structure ConnectRow.Describes (r : ConnectRow) (k : SessId) (cfg : Tuple) (s u : State) : Prop where
  completed : Completed u r.result 0
  calls : Calls k s u r.calls
  turns : u.world.turns = r.turns
  after : (u.session k).state = r.after
  acfg : (u.session k).acfg = if cfg.valid then cfg else (s.session k).acfg
  sound : (s.session k).sound → (u.session k).sound
  scratch : u.scratch = s.scratch

theorem connectTuple_of_invalid (k : SessId) {cfg : Tuple} (s : State) (h : cfg.valid = false) :
    connectTuple k cfg s = .fail .configRejected (s.setSess k .unconfigured) :=
  if_neg (Bool.eq_false_iff.mp h)

/-- The state once turn `t` has answered the `T.open` of Session `k` with the latched `cfg` (R118 steps 3 to 5). -/
def State.openedIn (k : SessId) (cfg : Tuple) (t : Turn) (rest : List Turn) (s : State) : State :=
  ((((s.latch k cfg).beginTurn k t rest).elapse t.lasts).endCall k (.openPort cfg t.answer)
    { (s.session k).transport.world t with held := t.answer == .ok }).setSess k t.answer.after

theorem connectTuple_finish_of_ready (k : SessId) {cfg : Tuple} {s : State} {t : Turn} {rest : List Turn}
    (h : cfg.valid = true) (ht : s.world.turns = t :: rest) (hr : t.ready = true) :
    (connectTuple k cfg s).finish = (s.openedIn k cfg t rest).raise t.answer.result := by
  have answered := callOpen_ready (k := k) (s := s.latch k cfg) cfg (by simpa using ht) hr
  simp only [State.session_latch_self] at answered
  simp only [connectTuple, if_pos h, State.session_latch_self, answered, Run.bind_ok, State.openedIn]
  cases t.answer <;> rfl

theorem connectTuple_describes {k : SessId} {cfg : Tuple} {s : State} {r : ConnectRow}
    (notOpened : (s.session k).state ≠ .opened) (h : openRow cfg s.world.turns = some r) :
    r.Describes k cfg s (connectTuple k cfg s).finish := by
  obtain ⟨invalid, rfl⟩ | ⟨valid, t, rest, ht, hr, rfl⟩ := openRow_cases h
  · rw [connectTuple_of_invalid k s invalid, Run.finish_fail]
    exact {
      completed := Completed.raise _ _
      calls := by simp [Calls]
      turns := by simp
      after := by simp
      acfg := by simp [invalid]
      sound := fun sound => by simpa [Session.sound, notOpened] using sound
      scratch := by simp }
  · rw [connectTuple_finish_of_ready k valid ht hr]
    exact {
      completed := Completed.raise _ _
      calls := by simp [Calls, State.openedIn]
      turns := by simp [State.openedIn]
      after := by simp [State.openedIn]
      acfg := by simp [State.openedIn, valid]
      sound := fun _ => by simp [Session.sound, State.openedIn, OpenAnswer.after_eq_opened_iff]
      scratch := by simp [State.openedIn] }

theorem connect_of_opened {k : SessId} (cfg : Tuple) {s : State} {t : Turn} {rest : List Turn}
    (h : (s.session k).state = .opened) (ht : s.world.turns = t :: rest) (hr : t.ready = true) :
    connect k cfg s = connectTuple k cfg (s.closedIn k t rest) := by
  rw [connect, if_pos h, callClose_ready ht hr]
  rfl

theorem connect_of_not_opened {k : SessId} (cfg : Tuple) {s : State} (h : (s.session k).state ≠ .opened) :
    connect k cfg s = connectTuple k cfg s :=
  if_neg h

theorem ConnectRow.Describes.after_close {r : ConnectRow} {k : SessId} {cfg : Tuple} {s u : State} {t : Turn}
    {rest : List Turn} (h : r.Describes k cfg (s.closedIn k t rest) u) :
    { r with calls := .closePort :: r.calls }.Describes k cfg s u where
  completed := h.completed
  calls := by simpa [Calls] using h.calls
  turns := h.turns
  after := h.after
  acfg := by simpa using h.acfg
  sound _ := h.sound (by simp [Session.sound])
  scratch := by simpa using h.scratch

theorem connect_describes {k : SessId} {cfg : Tuple} {s : State} {r : ConnectRow}
    (h : connectRow (s.session k).state cfg s.world.turns = some r) :
    r.Describes k cfg s (connect k cfg s).finish := by
  by_cases isOpened : (s.session k).state = .opened
  · rw [isOpened] at h
    obtain ⟨t, rest, r', ht, hr, row, rfl⟩ := connectRow_of_opened h
    rw [connect_of_opened cfg isOpened ht hr]
    exact (connectTuple_describes (by simp) (by simpa using row)).after_close
  · rw [connectRow_of_not_opened isOpened] at h
    rw [connect_of_not_opened cfg isOpened]
    exact connectTuple_describes isOpened h

/-- Settles O23: the row describes the end of Connect; what is left alone is the frame of Connect. -/
theorem connectFollowsTheTable : Obligations.ConnectFollowsTheTable := by
  intro s k i r addresses hi row
  have d := connect_describes row
  obtain ⟨alone, mem⟩ := (connect_keeps k s.tuple s).finish d.completed.notBusy
  exact ⟨_, exec_connect_of addresses hi, d.completed, d.calls, d.turns, d.after, d.acfg, d.sound, alone, mem,
    d.scratch⟩

end Sys2Proof.Machine
end

section
/-! The handles and the free slot of the registry table (R141, R142). -/

namespace Sys2Proof.Machine

/-- Settles O36: the three conjuncts of the test are those of the statement. -/
theorem validHandleIsAnOccupiedSlot : Obligations.ValidHandleIsAnOccupiedSlot := by
  intro s h
  simp only [State.validHandle, Bool.and_eq_true, decide_eq_true_eq, and_assoc]

/-- `NSLOTS_MAX` allows one slot more exactly when it is infinite or above the present size (R6). -/
theorem fits_succ_iff (n : Nat) (limit : Option Nat) : fits (n + 1) limit = true ↔ ∀ m, limit = some m → n < m := by
  cases limit with
  | none => simp [fits]
  | some m => simp [fits]

theorem not_fits_succ_iff (n : Nat) (limit : Option Nat) :
    ¬ fits (n + 1) limit = true ↔ ∃ m, limit = some m ∧ m ≤ n := by
  simp only [fits_succ_iff, not_forall, Nat.not_lt, exists_prop]

theorem State.least_empty_or_all_occupied (s : State) :
    (∃ h, h < s.regSize ∧ (slotAt s.slots h).occ = false ∧ ∀ j, j < h → (slotAt s.slots j).occ = true) ∨
      ∀ j, j < s.regSize → (slotAt s.slots j).occ = true := by
  by_cases empty : ∃ h, h < s.regSize ∧ (slotAt s.slots h).occ = false
  · obtain ⟨below, isEmpty⟩ := Nat.find_spec empty
    refine .inl ⟨Nat.find empty, below, isEmpty, fun j lt => ?_⟩
    exact eq_true_of_ne_false fun e => Nat.find_min empty lt ⟨lt.trans below, e⟩
  · exact .inr fun j lt => eq_true_of_ne_false fun e => empty ⟨j, lt, e⟩

theorem State.freeSlot_of_least_empty {s : State} {h : Nat} (below : h < s.regSize)
    (isEmpty : (slotAt s.slots h).occ = false) (least : ∀ j, j < h → (slotAt s.slots j).occ = true) :
    s.freeSlot = some h := by
  have found : (List.range s.regSize).find? (fun j => !(slotAt s.slots j).occ) = some h :=
    List.find?_range_eq_some.mpr
      ⟨by simp [isEmpty], List.mem_range.mpr below, fun j lt => by simp [least j lt]⟩
  rw [State.freeSlot, found]

theorem State.freeSlot_of_all_occupied {s : State} (occupied : ∀ j, j < s.regSize → (slotAt s.slots j).occ = true) :
    s.freeSlot = if fits (s.regSize + 1) s.params.nslotsMax then some s.regSize else none := by
  have missing : (List.range s.regSize).find? (fun j => !(slotAt s.slots j).occ) = none :=
    List.find?_range_eq_none.mpr fun j lt => by simp [occupied j lt]
  rw [State.freeSlot, missing]

theorem State.freeSlot_eq_some_iff (s : State) (h : Nat) :
    s.freeSlot = some h ↔
      (h < s.regSize ∧ (slotAt s.slots h).occ = false ∧ ∀ j, j < h → (slotAt s.slots j).occ = true) ∨
      (h = s.regSize ∧ (∀ j, j < s.regSize → (slotAt s.slots j).occ = true) ∧
        ∀ m, s.params.nslotsMax = some m → s.regSize < m) := by
  constructor
  · intro free
    obtain ⟨h₀, below, isEmpty, least⟩ | occupied := s.least_empty_or_all_occupied
    · rw [freeSlot_of_least_empty below isEmpty least] at free
      cases free
      exact .inl ⟨below, isEmpty, least⟩
    · rw [freeSlot_of_all_occupied occupied, Option.ite_none_right_eq_some, fits_succ_iff] at free
      obtain ⟨grows, same⟩ := free
      cases same
      exact .inr ⟨rfl, occupied, grows⟩
  · rintro (⟨below, isEmpty, least⟩ | ⟨rfl, occupied, grows⟩)
    · exact freeSlot_of_least_empty below isEmpty least
    · rw [freeSlot_of_all_occupied occupied, if_pos ((fits_succ_iff _ _).mpr grows)]

theorem State.freeSlot_eq_none_iff (s : State) :
    s.freeSlot = none ↔
      (∀ j, j < s.regSize → (slotAt s.slots j).occ = true) ∧ ∃ m, s.params.nslotsMax = some m ∧ m ≤ s.regSize := by
  constructor
  · intro noSlot
    obtain ⟨h, below, isEmpty, least⟩ | occupied := s.least_empty_or_all_occupied
    · cases (freeSlot_of_least_empty below isEmpty least).symm.trans noSlot
    · refine ⟨occupied, (not_fits_succ_iff _ _).mp fun grows => ?_⟩
      rw [freeSlot_of_all_occupied occupied, if_pos grows] at noSlot
      cases noSlot
  · rintro ⟨occupied, bound⟩
    rw [freeSlot_of_all_occupied occupied, if_neg ((not_fits_succ_iff _ _).mpr bound)]

/-- Settles O37: the two values of the search, each by whether there is a least empty slot or every slot is occupied. -/
theorem freeSlotIsTheLeastEmpty : Obligations.FreeSlotIsTheLeastEmpty :=
  fun s => ⟨s.freeSlot_eq_some_iff, s.freeSlot_eq_none_iff⟩

end Sys2Proof.Machine
end

section
/-! The `STATUS` word of each outcome (R160, R163, R164). -/

namespace Sys2Proof.Machine

/-- Settles O46: a closed table of sixteen rows, in which `FAIL` alone gives both codes of the word; each row is
evaluated. -/
theorem statusWordOfEachOutcome : Obligations.StatusWordOfEachOutcome := by
  unfold Obligations.StatusWordOfEachOutcome
  decide

end Sys2Proof.Machine
end

section
/-! A write to `CMD` while a command runs (R194). -/

namespace Sys2Proof.Machine

/-- The write to `CMD` is decided by `BUSY` alone: the word is neither decoded nor latched before the test. -/
theorem hostAct_write32_cmd (s : State) (w : Word) :
    hostAct (.write32 0x000 w) s = if s.busy then .refused .cmdWhileBusy else runWord w s := rfl

/-- Settles O43: the branch of the write to `CMD` that `BUSY` 1 takes. -/
theorem commandWhileBusyIsRefused : Obligations.CommandWhileBusyIsRefused := by
  intro s w busy
  rw [hostAct_write32_cmd, if_pos busy]

end Sys2Proof.Machine
end

section
/-! The decoder inverts the encoder (R71, R72), and the write of a word to `CMD` runs the command it decodes to (R47). -/

namespace Sys2Proof

theorem decodeOpcode_eq_command_iff (op : Byte) (i : Instr) : decodeOpcode op = .command i ↔ op = i.opcode := by
  constructor
  · intro h
    by_contra other
    by_cases listed : ∃ j : Instr, op = j.opcode
    · obtain ⟨j, rfl⟩ := listed
      rw [decodeOpcode_opcode, Decoded.command.injEq] at h
      exact other (congrArg Instr.opcode h)
    · rw [decodeOpcode_of_forall_ne (not_exists.mp listed)] at h
      cases h
  · rintro rfl
    exact decodeOpcode_opcode i

theorem cmdWordWf_encode (i : Instr) : cmdWordWf (encode i) = true :=
  beq_iff_eq.mpr BitVec.extractLsb'_append_eq_left

/-- Settles O6: an encoded word is 24 zero bits and the opcode, and the opcode map is injective. -/
theorem decodeReadsWhatEncodeWrites : Obligations.DecodeReadsWhatEncodeWrites :=
  ⟨fun i => ⟨decode_append_opcode 0#24 i, cmdWordWf_encode i⟩,
    fun _ i h => (decodeOpcode_eq_command_iff _ i).mp h⟩

namespace Machine

theorem runWord_of_command {w : Word} {i : Instr} (h : decode w = .command i) (s : State) :
    runWord w s = exec i (s.issue w) := by
  rw [runWord, h]

/-- Settles O7: the issue is the update the statement writes out. -/
theorem stepRunsTheDecodedCommand : Obligations.StepRunsTheDecodedCommand := by
  intro s w i rest idle next decoded
  rw [step_of_cmd_write idle next, runWord_of_command decoded]
  rfl

end Machine

end Sys2Proof
end

section
/-! What a command can do, said once: the end of each command is one of the constructors of `Does`. -/

namespace Sys2Proof.Machine

/-- Settles O40: the validation of the handle fails before the command does anything. -/
theorem invalidHandleChangesNothing : Obligations.InvalidHandleChangesNothing := by
  intro s i hr hv hi
  rcases hi with rfl | rfl | rfl | rfl | rfl | rfl <;> exact congrArg _ (withHandle_of_invalid hr hv _)

/-- A registry command on a handle is refused for want of a registry or of a valid handle, or addresses the slot (R141,
R74). -/
theorem exec_handle_cases {i : Instr}
    (hi : i = .ropen ∨ i = .rclose ∨ i = .rwrite ∨ i = .rread ∨ i = .rflush ∨ i = .rdeinit) (s : State) :
    ((∀ k, ¬ Addresses i s k) ∧ ∃ f, f ∈ failuresOf i ∧ exec i s = .next (s.raise f)) ∨
    Addresses i s (.slot s.ops.argHandle.toNat) := by
  have addresses_iff : ∀ k, Addresses i s k ↔
      s.params.hasRegistry = true ∧ s.validHandle s.ops.argHandle = true ∧ k = .slot s.ops.argHandle.toNat := by
    rcases hi with rfl | rfl | rfl | rfl | rfl | rfl <;> exact fun _ => Iff.rfl
  have listed : Failure.illegalCommand ∈ failuresOf i ∧ Failure.invalidHandle ∈ failuresOf i := by
    rcases hi with rfl | rfl | rfl | rfl | rfl | rfl <;> decide
  cases hr : s.params.hasRegistry with
  | false =>
    have registry : i.family = .registry := by rcases hi with rfl | rfl | rfl | rfl | rfl | rfl <;> rfl
    exact .inl ⟨by simp [addresses_iff, hr], _, listed.1, exec_registry_of_absent registry hr⟩
  | true =>
    cases hv : s.validHandle s.ops.argHandle with
    | false => exact .inl ⟨by simp [addresses_iff, hv], _, listed.2, invalidHandleChangesNothing s i hr hv hi⟩
    | true => exact .inr ((addresses_iff _).mpr ⟨hr, hv, rfl⟩)

theorem exec_rcreate_of_full {s : State} (hr : s.params.hasRegistry = true) (full : s.freeSlot = none) :
    exec .rcreate s = .next (s.noHandle.raise .registryFull) := by
  simp [exec, execRcreate, withRegistry, hr, full]

/-- Settles O39: the failure is the update the statement writes out. -/
theorem fullRegistryIsReported : Obligations.FullRegistryIsReported :=
  fun _ hr full => exec_rcreate_of_full hr full

/-- The ends of a command (R96, R97, R119 to R129, R143 to R149): it is refused before it does anything, it is a codec
command that delivers bytes, or it is a function of the Session it addresses. -/
inductive Does (i : Instr) (s : State) : State → Prop
  | refuses {f : Failure} (noAddress : ∀ k, ¬ Addresses i s k)
    (noTable : ¬ (i = .rcreate ∧ s.params.hasRegistry = true)) (listed : f ∈ failuresOf i) : Does i s (s.raise f)
  | delivers {p : List Byte} (hi : i = .encode ∨ i = .decode) (fits : p.length ≤ Config.doutCap) :
    Does i s ((s.writeDout p).done p.length)
  | connects {k : SessId} (addr : Addresses i s k) (hi : i = .connect ∨ i = .ropen) :
    Does i s (connect k s.tuple s).finish
  | sends {k : SessId} (addr : Addresses i s k) (hi : i = .sendcmd ∨ i = .rwrite) :
    Does i s (sendCommand k s.len s).finish
  | reads {k : SessId} (addr : Addresses i s k) (hi : i = .readrsp ∨ i = .rread) :
    Does i s (readResponse k s.cap s.timeoutMs s).finishPayload
  | disconnects {k : SessId} (addr : Addresses i s k) (hi : i = .disconnect ∨ i = .rclose) :
    Does i s (disconnect k s).finish
  | flushes {k : SessId} (addr : Addresses i s k) (hi : i = .flush ∨ i = .rflush) :
    Does i s (flushSession k s).finish
  | full (hi : i = .rcreate) (table : s.params.hasRegistry = true) (free : s.freeSlot = none) :
    Does i s (s.noHandle.raise .registryFull)
  | creates {h : Nat} (hi : i = .rcreate) (table : s.params.hasRegistry = true) (free : s.freeSlot = some h) :
    Does i s (finishCreate h (connect (.slot h) s.tuple s))
  | deinits {h : Nat} (hi : i = .rdeinit) (addr : Addresses i s (.slot h)) :
    Does i s ((disconnect (.slot h) s).complete fun _ s => (s.vacate h).done 0)

theorem does_encode (s : State) : ∃ u, exec .encode s = .next u ∧ Does .encode s u := by
  by_cases fits : s.len + 3 ≤ Config.maxFrame
  · have length : (frameOf (s.dinBytes s.len)).length = s.len + 3 := by
      rw [length_frameOf, State.dinBytes, Memory.length_readBytes]
    exact ⟨_, length ▸ exec_encode_of_fits fits, .delivers (.inl rfl) (length.trans_le fits)⟩
  · exact ⟨_, exec_encode_of_too_large (Nat.lt_of_not_le fits), .refuses (fun _ => id) nofun (by decide)⟩

theorem does_decode (s : State) : ∃ u, exec .decode s = .next u ∧ Does .decode s u := by
  by_cases short : s.len ≤ Config.dinCap
  · cases decoded : decodeFrame (s.dinBytes s.len) with
    | ok r => exact ⟨_, exec_decode_of_ok short decoded, .delivers (.inr rfl) (by rw [List.length_take]; omega)⟩
    | error c =>
      refine ⟨_, exec_decode_of_error short decoded, .refuses (fun _ => id) nofun ?_⟩
      rcases decodeFrame_error_cases decoded with rfl | rfl | rfl | rfl <;> decide
  · exact ⟨_, exec_decode_of_too_long (Nat.lt_of_not_le short), .refuses (fun _ => id) nofun (by decide)⟩

theorem does_rcreate (s : State) : ∃ u, exec .rcreate s = .next u ∧ Does .rcreate s u := by
  cases hr : s.params.hasRegistry with
  | false => exact ⟨_, exec_registry_of_absent rfl hr, .refuses (fun _ => id) (by simp [hr]) (by decide)⟩
  | true =>
    cases free : s.freeSlot with
    | none => exact ⟨_, exec_rcreate_of_full hr free, .full rfl hr free⟩
    | some h => exact ⟨_, exec_rcreate_of hr free, .creates rfl hr free⟩

theorem does_of_handle {i : Instr} {s : State}
    (hi : i = .ropen ∨ i = .rclose ∨ i = .rwrite ∨ i = .rread ∨ i = .rflush ∨ i = .rdeinit)
    (valid : Addresses i s (.slot s.ops.argHandle.toNat) → ∃ u, exec i s = .next u ∧ Does i s u) :
    ∃ u, exec i s = .next u ∧ Does i s u := by
  have noTable : ¬ (i = .rcreate ∧ s.params.hasRegistry = true) := by
    rintro ⟨rfl, -⟩
    simp at hi
  obtain ⟨noAddress, f, listed, e⟩ | addr := exec_handle_cases hi s
  · exact ⟨_, e, .refuses noAddress noTable listed⟩
  · exact valid addr

theorem exec_and_does (i : Instr) (s : State) : ∃ u, exec i s = .next u ∧ Does i s u := by
  cases i with
  | encode => exact does_encode s
  | decode => exact does_decode s
  | connect => exact ⟨_, rfl, .connects (k := .direct) rfl (.inl rfl)⟩
  | sendcmd => exact ⟨_, rfl, .sends (k := .direct) rfl (.inl rfl)⟩
  | readrsp => exact ⟨_, rfl, .reads (k := .direct) rfl (.inl rfl)⟩
  | disconnect => exact ⟨_, rfl, .disconnects (k := .direct) rfl (.inl rfl)⟩
  | flush => exact ⟨_, rfl, .flushes (k := .direct) rfl (.inl rfl)⟩
  | rcreate => exact does_rcreate s
  | ropen => exact does_of_handle (by decide) fun a => ⟨_, exec_connect_of a (.inr rfl), .connects a (.inr rfl)⟩
  | rclose => exact does_of_handle (by decide) fun a => ⟨_, exec_disconnect_of a (.inr rfl), .disconnects a (.inr rfl)⟩
  | rwrite => exact does_of_handle (by decide) fun a => ⟨_, exec_send_of a (.inr rfl), .sends a (.inr rfl)⟩
  | rread => exact does_of_handle (by decide) fun a => ⟨_, exec_read_of a (.inr rfl), .reads a (.inr rfl)⟩
  | rflush => exact does_of_handle (by decide) fun a => ⟨_, exec_flush_of a (.inr rfl), .flushes a (.inr rfl)⟩
  | rdeinit => exact does_of_handle (by decide) fun a => ⟨_, exec_rdeinit_of a, .deinits rfl a⟩

/-- Whatever the command, its next state is one of the ends of `Does`. -/
theorem exec_does {i : Instr} {s u : State} (h : exec i s = .next u) : Does i s u := by
  obtain ⟨v, e, does⟩ := exec_and_does i s
  cases e.symm.trans h
  exact does

/-! ## A command gone on with -/

theorem resume_of_command {i : Instr} {s : State} (h : decodeOpcode s.cmd = .command i)
    (notRead : i ≠ .readrsp ∧ i ≠ .rread) : resume s = exec i s := by
  obtain ⟨h1, h2⟩ := notRead
  rw [resume, h]
  cases i with
  | readrsp | rread => contradiction
  | encode | decode | connect | sendcmd | disconnect | flush => rfl
  | rcreate | ropen | rclose | rwrite | rflush | rdeinit => rfl

theorem resume_read_of {i : Instr} {s : State} {k : SessId} (h : decodeOpcode s.cmd = .command i)
    (addr : Addresses i s k) (hi : i = .readrsp ∨ i = .rread) :
    resume s = .next (resumeRead k s.cap s.timeoutMs s).finishPayload := by
  rw [resume, h]
  rcases hi with rfl | rfl
  · obtain rfl : k = .direct := addr
    rfl
  · obtain ⟨h1, h2, rfl⟩ := addr
    simp [resumeRread, withHandle_of_valid h1 h2]

/-- A RREAD gone on with validates its handle again, as at its issue. -/
theorem resume_rread_cases {s : State} (h : decodeOpcode s.cmd = .command .rread) :
    Addresses .rread s (.slot s.ops.argHandle.toNat) ∨
      ∃ f, (f = .illegalCommand ∨ f = .invalidHandle) ∧ resume s = .next (s.raise f) := by
  rw [resume, h]
  cases hr : s.params.hasRegistry with
  | false => exact .inr ⟨_, .inl rfl, congrArg _ (withHandle_of_absent hr _)⟩
  | true =>
    cases hv : s.validHandle s.ops.argHandle with
    | false => exact .inr ⟨_, .inr rfl, congrArg _ (withHandle_of_invalid hr hv _)⟩
    | true => exact .inl ⟨hr, hv, rfl⟩

/-- A command gone on with is run again, but for a READRSP or RREAD, which goes on in its loop. -/
theorem resume_cases {s u : State} (h : resume s = .next u) :
    (∃ i, decodeOpcode s.cmd = .command i ∧ (i ≠ .readrsp ∧ i ≠ .rread) ∧ exec i s = .next u) ∨
    (∃ i k, decodeOpcode s.cmd = .command i ∧ Addresses i s k ∧ (i = .readrsp ∨ i = .rread) ∧
      u = (resumeRead k s.cap s.timeoutMs s).finishPayload) ∨
    ((∀ i, decodeOpcode s.cmd = .command i → i = .rread) ∧
      ∃ f, (f = .illegalCommand ∨ f = .invalidHandle) ∧ u = s.raise f) := by
  cases decoded : decodeOpcode s.cmd with
  | illegalOpcode op =>
    rw [resume, decoded] at h
    cases h
    exact .inr (.inr ⟨nofun, _, .inl rfl, rfl⟩)
  | command i =>
    by_cases read : i = .readrsp ∨ i = .rread
    · rcases read with rfl | rfl
      · cases (resume_read_of (k := .direct) decoded rfl (.inl rfl)).symm.trans h
        exact .inr (.inl ⟨.readrsp, .direct, rfl, rfl, .inl rfl, rfl⟩)
      · obtain addr | ⟨f, hf, e⟩ := resume_rread_cases decoded
        · cases (resume_read_of decoded addr (.inr rfl)).symm.trans h
          exact .inr (.inl ⟨.rread, _, rfl, addr, .inr rfl, rfl⟩)
        · cases e.symm.trans h
          exact .inr (.inr ⟨fun j hj => (Decoded.command.inj hj).symm, f, hf, rfl⟩)
    · have notRead := not_or.mp read
      exact .inl ⟨i, rfl, notRead, resume_of_command decoded notRead ▸ h⟩

end Sys2Proof.Machine
end

section
/-! The ends of a command without the functions behind them: what holds of every command, whatever it does. -/

namespace Sys2Proof.Machine

/-- Command `i` acts on the Session `k`: the one it addresses, RCREATE on that of the free slot (R143). -/
def ActsOn (i : Instr) (s : State) (k : SessId) : Prop :=
  Addresses i s k ∨ (i = .rcreate ∧ s.freeSlot.map .slot = some k)

/-- How command `i` can leave the state `s`: by way of a state `v` within one Session `k`, the only one it can act on, it
waits, fails, or completes. -/
inductive Ends (i : Instr) (s : State) : State → Prop
  | waits {k : SessId} {v : State} (only : ∀ j, ActsOn i s j → j = k) (within : Within k s v) (busy : v.busy = true)
    (yielded : v.host.yielded = true) : Ends i s v
  | fails {k : SessId} {v : State} {f : Failure} (only : ∀ j, ActsOn i s j → j = k) (within : Within k s v)
    (host : v.host = s.host) (listed : f ∈ failuresOf i) (noTable : ¬ (i = .rcreate ∧ s.params.hasRegistry = true)) :
    Ends i s (v.raise f)
  | createFails {k : SessId} {v : State} {f : Failure} (only : ∀ j, ActsOn i s j → j = k) (within : Within k s v)
    (host : v.host = s.host) (listed : f ∈ failuresOf i) (hi : i = .rcreate) (table : s.params.hasRegistry = true) :
    Ends i s (v.noHandle.raise f)
  | delivers {k : SessId} {v : State} {p : List Byte} (only : ∀ j, ActsOn i s j → j = k) (within : Within k s v)
    (host : v.host = s.host) (fits : p.length ≤ Config.doutCap) : Ends i s ((v.writeDout p).done p.length)
  | occupies {h : Nat} {v : State} (only : ∀ j, ActsOn i s j → j = .slot h) (within : Within (.slot h) s v)
    (host : v.host = s.host) : Ends i s ((v.occupy h).done 0)
  | vacates {h : Nat} {v : State} (only : ∀ j, ActsOn i s j → j = .slot h) (within : Within (.slot h) s v)
    (host : v.host = s.host) (hi : i = .rdeinit) : Ends i s ((v.vacate h).done 0)

theorem Addresses.unique {i : Instr} {s : State} {j k : SessId} (hj : Addresses i s j) (hk : Addresses i s k) : j = k := by
  cases i with
  | encode | decode | rcreate => exact hj.elim
  | connect | sendcmd | readrsp | disconnect | flush => exact Eq.trans hj (Eq.symm hk)
  | ropen | rclose | rwrite | rread | rflush | rdeinit => exact hj.2.2.trans hk.2.2.symm

theorem ActsOn.unique {i : Instr} {s : State} {j k : SessId} (hj : ActsOn i s j) (hk : ActsOn i s k) : j = k := by
  obtain hj | ⟨rfl, hj⟩ := hj <;> obtain hk | ⟨hi, hk⟩ := hk
  · exact hj.unique hk
  · subst hi
    exact hj.elim
  · exact hk.elim
  · exact Option.some.inj (hj.symm.trans hk)

theorem exists_only_actsOn (i : Instr) (s : State) : ∃ k, ∀ j, ActsOn i s j → j = k := by
  by_cases acts : ∃ k, ActsOn i s k
  · obtain ⟨k, hk⟩ := acts
    exact ⟨k, fun j hj => hj.unique hk⟩
  · exact ⟨.direct, fun j hj => absurd ⟨j, hj⟩ acts⟩

theorem Ends.of_finish {i : Instr} {s : State} {k : SessId} {r : Run Unit} (addr : Addresses i s k) (keeps : r.Keeps k s)
    (fails : r.FailsIn (failuresOf i)) : Ends i s r.finish := by
  have only := fun j (hj : ActsOn i s j) => hj.unique (.inl addr)
  cases r with
  | ok _ v => exact .delivers (p := []) only keeps.1 keeps.2.1 (Nat.zero_le _)
  | fail f v => exact .fails only keeps.1 keeps.2.1 fails fun ⟨hi, _⟩ => by subst hi; exact addr
  | waits v => exact .waits only keeps.1 keeps.2.1 keeps.2.2

theorem Ends.of_finishPayload {i : Instr} {s : State} {k : SessId} {r : Run (List Byte)} (addr : Addresses i s k)
    (keeps : r.Keeps k s) (fails : r.FailsIn (failuresOf i)) (fits : ∀ p v, r = .ok p v → p.length ≤ Config.doutCap) :
    Ends i s r.finishPayload := by
  have only := fun j (hj : ActsOn i s j) => hj.unique (.inl addr)
  cases r with
  | ok p v => exact .delivers only keeps.1 keeps.2.1 (fits p v rfl)
  | fail f v => exact .fails only keeps.1 keeps.2.1 fails fun ⟨hi, _⟩ => by subst hi; exact addr
  | waits v => exact .waits only keeps.1 keeps.2.1 keeps.2.2

theorem Run.FailsIn.mono {α : Type} {l m : List Failure} {r : Run α} (h : r.FailsIn l) (sub : l ⊆ m) : r.FailsIn m := by
  cases r with
  | ok _ _ => trivial
  | fail f _ => exact sub h
  | waits _ => trivial

theorem readResponse_payload_fits {k : SessId} {cap timeout : Nat} {s u : State} {p : List Byte}
    (h : readResponse k cap timeout s = .ok p u) : p.length ≤ Config.doutCap := by
  unfold readResponse at h
  split at h
  · cases h
  · dsimp only at h
    split at h
    · cases h
    · exact readLoop_payload_fits h

theorem Does.ends {i : Instr} {s u : State} (does : Does i s u) : Ends i s u := by
  cases does with
  | refuses _ noTable listed =>
    obtain ⟨k, only⟩ := exists_only_actsOn i s
    exact .fails only (Within.refl k s) rfl listed noTable
  | delivers hi fits =>
    obtain ⟨k, only⟩ := exists_only_actsOn i s
    exact .delivers only (Within.refl k s) rfl fits
  | connects addr hi =>
    refine .of_finish addr (connect_keeps _ _ s) ((connect_failsIn _ _ s).mono ?_)
    rcases hi with rfl | rfl <;> decide
  | sends addr hi =>
    refine .of_finish addr (sendCommand_keeps _ _ s) ((sendCommand_failsIn _ _ s).mono ?_)
    rcases hi with rfl | rfl <;> decide
  | reads addr hi =>
    refine .of_finishPayload addr (readResponse_keeps _ _ _ s) ((readResponse_failsIn _ _ _ s).mono ?_)
      fun _ _ => readResponse_payload_fits
    rcases hi with rfl | rfl <;> decide
  | disconnects addr hi =>
    exact .of_finish addr (disconnect_keeps _ s) ((disconnect_failsIn _ s).mono (List.nil_subset _))
  | flushes addr hi =>
    refine .of_finish addr (flushSession_keeps _ s) ((flushSession_failsIn _ s).mono ?_)
    rcases hi with rfl | rfl <;> decide
  | full hi table free =>
    obtain ⟨k, only⟩ := exists_only_actsOn i s
    exact .createFails only (Within.refl k s) rfl (by rw [hi]; decide) hi table
  | @creates h hi table free =>
    subst hi
    have only := fun j (hj : ActsOn .rcreate s j) => hj.unique (.inr ⟨rfl, congrArg _ free⟩)
    have keeps := connect_keeps (.slot h) s.tuple s
    have fails := (connect_failsIn (.slot h) s.tuple s).mono (m := failuresOf .rcreate) (by decide)
    cases r : connect (.slot h) s.tuple s with
    | ok _ v => rw [r] at keeps; exact .occupies only keeps.1 keeps.2.1
    | fail f v => rw [r] at keeps fails; exact .createFails only keeps.1 keeps.2.1 fails rfl table
    | waits v => rw [r] at keeps; exact .waits only keeps.1 keeps.2.1 keeps.2.2
  | @deinits h hi addr =>
    have only := fun j (hj : ActsOn i s j) => hj.unique (.inl addr)
    have keeps := disconnect_keeps (.slot h) s
    have fails := disconnect_failsIn (.slot h) s
    cases r : disconnect (.slot h) s with
    | ok _ v => rw [r] at keeps; exact .vacates only keeps.1 keeps.2.1 hi
    | fail f v => rw [r] at fails; cases fails
    | waits v => rw [r] at keeps; exact .waits only keeps.1 keeps.2.1 keeps.2.2

/-- Whatever the command, its next state is one of the ends. -/
theorem exec_ends {i : Instr} {s u : State} (h : exec i s = .next u) : Ends i s u := (exec_does h).ends

/-- A command gone on with ends in the same ways, or is refused. -/
theorem resume_ends {s u : State} (h : resume s = .next u) :
    (∃ i, Ends i s u) ∨ ∃ f, u = s.raise f := by
  obtain ⟨i, -, -, e⟩ | ⟨i, k, -, addr, hi, rfl⟩ | ⟨-, f, -, rfl⟩ := resume_cases h
  · exact .inl ⟨i, exec_ends e⟩
  · refine .inl ⟨i, .of_finishPayload addr (resumeRead_keeps _ _ _ s) ((readLoop_failsIn _ _ _ _ s).mono ?_)
      fun _ _ => readLoop_payload_fits⟩
    rcases hi with rfl | rfl <;> decide
  · exact .inr ⟨f, rfl⟩

theorem none_notMem_failuresOf (i : Instr) : Failure.none ∉ failuresOf i := by
  cases i <;> decide

/-- The end of RCREATE, whatever `RES_HANDLE` holds then (log 8). -/
theorem State.occupy_eq (s : State) (h : Nat) : ∃ r n, s.occupy h = { s with
    slots := putSlot s.slots h { slotAt s.slots h with occ := true }
    regSize := if h = s.regSize then s.regSize + 1 else s.regSize
    resHandle := r
    host := { s.host with fresh := n } } := by
  by_cases fits : h < 2 ^ 31
  · exact ⟨_, s.host.fresh, State.occupy_of_lt s fits⟩
  · refine ⟨Config.freeWord s.host.fresh 0, s.host.fresh + 1, ?_⟩
    unfold State.occupy State.giveHandle
    rw [if_neg fits]
    by_cases e : h = s.regSize
    · rw [if_pos e, if_pos (by exact e)]; rfl
    · rw [if_neg e, if_neg (by exact e)]; rfl

@[simp] theorem State.session_occupy (s : State) (h : Nat) (k : SessId) : (s.occupy h).session k = s.session k := by
  obtain ⟨r, n, e⟩ := s.occupy_eq h
  have same := State.session_setOcc s h true k
  rw [← same]
  exact State.session_congr (by rw [e]; rfl) (by rw [e]; rfl) k

theorem State.session_vacate_ne (s : State) {h : Nat} {k : SessId} (e : k ≠ .slot h) :
    (s.vacate h).session k = s.session k := by
  rw [State.vacate, State.session_setOcc, State.session_setSess_ne _ _ e]

end Sys2Proof.Machine
end

section
/-! What every command leaves alone, and what it reports (R15, R24, R27, R32, R161, R171). -/

namespace Sys2Proof.Machine

/-! ## The operands -/

/-- What no command writes (R15): the operand registers, the parameters, `CMD`, the host's acts, and memory outside
DOUT. -/
def SameOperands (s u : State) : Prop :=
  u.ops = s.ops ∧ u.params = s.params ∧ u.cmd = s.cmd ∧ u.host.queue = s.host.queue ∧ u.host.rdata = s.host.rdata ∧
    ∀ a, a < doutBase ∨ doutBase + Config.doutCap ≤ a → u.mem.read a = s.mem.read a

theorem Within.sameOperands {k : SessId} {s v : State} (w : Within k s v) : SameOperands s v :=
  ⟨w.ops, w.params, w.cmd, (congrArg HostSide.queue w.host :), (congrArg HostSide.rdata w.host :),
    fun _ _ => by rw [w.mem]⟩

theorem SameOperands.writeDout {s v : State} {p : List Byte} (h : SameOperands s v) (fits : p.length ≤ Config.doutCap) :
    SameOperands s (v.writeDout p) := by
  obtain ⟨ops, params, cmd, queue, rdata, mem⟩ := h
  exact ⟨ops, params, cmd, queue, rdata, fun a outside => (State.read_writeDout (by omega)).trans (mem a outside)⟩

theorem SameOperands.occupy {s v : State} (same : SameOperands s v) (h : Nat) : SameOperands s (v.occupy h) := by
  obtain ⟨r, n, e⟩ := v.occupy_eq h
  rw [e]
  exact same

/-- Settles O55: all that a command does is within its Session or by an update that writes none of these. -/
theorem commandsLeaveTheOperandsAlone : Obligations.CommandsLeaveTheOperandsAlone := by
  intro i s u ran
  cases exec_ends ran with
  | waits _ within => exact within.sameOperands
  | fails _ within => exact within.sameOperands
  | createFails _ within => exact within.sameOperands
  | delivers _ within _ fits => exact within.sameOperands.writeDout fits
  | @occupies h _ _ within => exact within.sameOperands.occupy h
  | vacates _ within => exact within.sameOperands

/-! ## The report -/

/-- Settles O56: RES_HANDLE is touched only by RCREATE, and only in a block that has the registry. -/
theorem failureWritesNoResult : Obligations.FailureWritesNoResult := by
  intro i s u ran ended failed
  cases exec_ends ran with
  | waits _ _ busy => cases busy.symm.trans ended
  | fails _ within _ _ noTable => exact ⟨within.mem, rfl, rfl, within.resHandle.trans (if_neg noTable).symm⟩
  | createFails _ within _ _ hi table => exact ⟨within.mem, rfl, rfl, (if_pos ⟨hi, table⟩).symm⟩
  | delivers | occupies | vacates => exact absurd rfl failed

/-- Settles O57: the failing ends carry their membership. -/
theorem onlyTheListedFailuresAreReported : Obligations.OnlyTheListedFailuresAreReported := by
  intro i s u ran ended
  cases exec_ends ran with
  | waits _ _ busy => cases busy.symm.trans ended
  | fails _ _ _ listed => exact .inr listed
  | createFails _ _ _ listed => exact .inr listed
  | delivers | occupies | vacates => exact .inl rfl

/-! ## The other Sessions -/

/-- Settles O59: every end is within the one Session the command can act on. -/
theorem sessionsAreIndependent : Obligations.SessionsAreIndependent := by
  intro i s u k j ran acts other
  cases exec_ends ran with
  | waits only within | fails only within | createFails only within | delivers only within =>
    obtain rfl := only k acts
    exact ⟨within.others j other, within.log⟩
  | @occupies h v only within =>
    obtain rfl := only k acts
    obtain ⟨r, n, e⟩ := v.occupy_eq h
    exact ⟨(State.session_done _ 0 j).trans ((v.session_occupy h j).trans (within.others j other)),
      by rw [e]; exact within.log⟩
  | @vacates h v only within =>
    obtain rfl := only k acts
    exact ⟨(State.session_done _ 0 j).trans ((v.session_vacate_ne other).trans (within.others j other)), within.log⟩

/-! ## The table -/

theorem Within.occ_of_occ {k : SessId} {s v : State} (w : Within k s v) {h : Nat} (occ : (slotAt s.slots h).occ = true) :
    (slotAt v.slots h).occ = true := (w.occ h).trans occ

/-- Settles O60: of the ends, only the success of RCREATE and of RDEINIT touch the table. -/
theorem registryOnlyGrows : Obligations.RegistryOnlyGrows := by
  intro i s u ran
  cases exec_ends ran with
  | waits _ within | fails _ within | createFails _ within | delivers _ within =>
    exact ⟨within.regSize.ge, fun _ _ => within.occ_of_occ⟩
  | @occupies h v _ within =>
    obtain ⟨r, n, e⟩ := v.occupy_eq h
    rw [e]
    have grows : s.regSize ≤ if h = v.regSize then v.regSize + 1 else v.regSize := by
      rw [within.regSize]
      split <;> omega
    refine ⟨grows, fun _ j occ => ?_⟩
    change (slotAt (putSlot v.slots h _) j).occ = true
    rw [slotAt_putSlot]
    split
    · rfl
    · exact within.occ_of_occ occ
  | vacates _ within _ hi => exact ⟨within.regSize.ge, fun notDeinit => absurd hi notDeinit⟩

/-! ## The STATE and the tuple of every Session -/

theorem Run.session_finish (r : Run Unit) (j : SessId) : r.finish.session j = r.after.session j := by
  cases r with
  | ok _ v => exact State.session_done v 0 j
  | fail f v => exact State.session_raise v f j
  | waits v => rfl

theorem Run.session_finishPayload (r : Run (List Byte)) (j : SessId) : r.finishPayload.session j = r.after.session j := by
  cases r with
  | ok p v => exact (State.session_done _ _ j).trans (State.session_writeDout v p j)
  | fail f v => exact State.session_raise v f j
  | waits v => rfl

theorem Run.Keeps.within {α : Type} {k : SessId} {s : State} {r : Run α} (h : r.Keeps k s) : Within k s r.after := by
  cases r <;> exact h.1

/-- A function that leaves `STATE` and `ACFG` of its Session leaves those of every Session. -/
theorem Run.Keeps.same_state_acfg {α : Type} {k : SessId} {s : State} {r : Run α} (keeps : r.Keeps k s)
    (link : (r.after.session k).link = (s.session k).link) (acfg : (r.after.session k).acfg = (s.session k).acfg)
    (j : SessId) : (r.after.session j).state = (s.session j).state ∧ (r.after.session j).acfg = (s.session j).acfg := by
  by_cases e : j = k
  · subst e
    exact ⟨(congrArg Prod.fst link :), acfg⟩
  · rw [keeps.within.others j e]
    exact ⟨rfl, rfl⟩

/-- Settles O58: the functions behind these commands leave both of their own Session. -/
theorem exchangeKeepsEverySessionState : Obligations.ExchangeKeepsEverySessionState := by
  intro i s u ran exchange k
  cases exec_does ran with
  | refuses => exact ⟨congrArg _ (State.session_raise s _ k), congrArg _ (State.session_raise s _ k)⟩
  | delivers =>
    rw [State.session_done, State.session_writeDout]
    exact ⟨rfl, rfl⟩
  | connects _ hi | disconnects _ hi => rcases hi with rfl | rfl <;> exact absurd exchange (by decide)
  | full hi | creates hi | deinits hi => subst hi; exact absurd exchange (by decide)
  | @sends j =>
    obtain ⟨-, link, acfg⟩ := sendCommand_after j s.len s
    rw [Run.session_finish]
    exact (sendCommand_keeps j s.len s).same_state_acfg link acfg k
  | @reads j =>
    obtain ⟨-, link, acfg⟩ := readResponse_after j s.cap s.timeoutMs s
    rw [Run.session_finishPayload]
    exact (readResponse_keeps j s.cap s.timeoutMs s).same_state_acfg link acfg k
  | @flushes j =>
    obtain ⟨-, link, acfg⟩ := flushSession_after j s
    rw [Run.session_finish]
    exact (flushSession_keeps j s).same_state_acfg link acfg k

/-! ## A command in progress -/

/-- A command that has not completed is still running, as at its issue. -/
theorem Ends.stillRunning {i : Instr} {s u : State} (ends : Ends i s u) (busy : u.busy = true) : StillRunning s u := by
  cases ends with
  | waits _ within busy yielded => exact .of_waits ⟨within, busy, yielded⟩
  | fails | createFails | delivers | occupies | vacates => cases busy

theorem resume_stillRunning {s u : State} (h : resume s = .next u) (busy : u.busy = true) : StillRunning s u := by
  obtain ⟨i, ends⟩ | ⟨f, rfl⟩ := resume_ends h
  · exact ends.stillRunning busy
  · cases busy

end Sys2Proof.Machine
end

section
/-! Reset (R35, R190 to R192): the Sessions and slots it leaves, and the closes it makes. -/

namespace Sys2Proof.Machine

/-- Settles O2: after reset the memories are empty, every slot is `Slot.empty` and every Session is as `State.session_reset`
says. -/
theorem resetMeetsTheInvariant : Obligations.ResetMeetsTheInvariant where
  memWf := rfl
  txbufWf := rfl
  accWf := rfl
  errTranslates := rfl
  failNoBytes := nofun
  resFits := by decide
  txFits := by decide
  accFits := by decide
  tableFits := rfl
  occBelow h _ := by rw [State.slotAt_reset]; rfl
  sound k := by rw [State.session_reset]; simp [Session.sound, Session.atReset, Transport.idle]
  settled k configured := by rw [State.session_reset] at configured; cases configured
  emptySlots h _ := by rw [State.session_reset]; exact .inl rfl
  shownDirect := nofun
  shownSettled := nofun

/-- A slot after reset: one past the end of the list, or one whose Session was reset. -/
theorem slotAt_slotsAfterReset (draw : Nat) (frame : Nat → List Byte) (n : Nat) (l : List Slot) (j : Nat) :
    slotAt (slotsAfterReset draw frame n l) j = Slot.empty ∨
    ∃ item f, slotAt (slotsAfterReset draw frame n l) j =
      { occ := false, session := (slotAt l j).session.afterReset draw item f } := by
  induction l generalizing n j with
  | nil => exact .inl (slotAt_nil j)
  | cons x xs ih =>
    cases j with
    | zero => exact .inr ⟨_, _, rfl⟩
    | succ j => exact ih (n + 1) j

theorem State.occ_afterReset (s : State) (h : Nat) : (slotAt s.afterReset.slots h).occ = false := by
  obtain e | ⟨item, f, e⟩ :=
    slotAt_slotsAfterReset s.host.fresh (fun h => s.abandonedFrame (.slot h)) 0 s.slots h
  · exact congrArg Slot.occ e
  · exact congrArg Slot.occ e

theorem State.session_afterReset (s : State) (k : SessId) :
    s.afterReset.session k = Session.atReset ∨
    ∃ draw item f, s.afterReset.session k = (s.session k).afterReset draw item f := by
  cases k with
  | direct => exact .inr ⟨_, _, _, rfl⟩
  | slot h =>
    obtain e | ⟨item, f, e⟩ :=
      slotAt_slotsAfterReset s.host.fresh (fun h => s.abandonedFrame (.slot h)) 0 s.slots h
    · exact .inl (congrArg Slot.session e)
    · exact .inr ⟨_, item, f, congrArg Slot.session e⟩

theorem State.state_afterReset (s : State) (k : SessId) : (s.afterReset.session k).state = .unconfigured := by
  obtain e | ⟨draw, item, f, e⟩ := s.session_afterReset k <;> rw [e] <;> rfl

/-- A Transport that was held is released by the reset, and one that was not stays so (R192). -/
theorem State.held_afterReset {s : State} {k : SessId} (sound : (s.session k).sound) :
    (s.afterReset.session k).transport.held = false := by
  obtain e | ⟨draw, item, f, e⟩ := s.session_afterReset k
  · rw [e]
    rfl
  · rw [e, Session.afterReset]
    split
    · rfl
    · next notOpened => exact eq_false_of_ne_true fun held => notOpened (sound.mp held)

/-! ## The closes -/

theorem mem_slotCloses (n : Nat) (l : List Slot) (k : SessId) (c : Call) :
    (k, c) ∈ slotCloses n l ↔
      ∃ j, k = .slot (n + j) ∧ c = .closePort ∧ (slotAt l j).session.state = .opened := by
  induction l generalizing n with
  | nil => simp [slotCloses, Slot.empty, Session.atReset]
  | cons x xs ih =>
    have later : (k, c) ∈ slotCloses (n + 1) xs ↔
        ∃ j, k = .slot (n + (j + 1)) ∧ c = .closePort ∧ (slotAt (x :: xs) (j + 1)).session.state = .opened := by
      simp only [ih, Nat.add_assoc, Nat.add_comm 1, slotAt]
    rw [← Nat.or_exists_add_one, ← later, slotCloses]
    split
    · next isOpened => simp [slotAt, isOpened, or_comm]
    · next notOpened => simp [slotAt, notOpened]

theorem nodup_slotCloses (n : Nat) (l : List Slot) : (slotCloses n l).Nodup := by
  induction l generalizing n with
  | nil => exact List.nodup_nil
  | cons x xs ih =>
    have notLater : (SessId.slot n, Call.closePort) ∉ slotCloses (n + 1) xs := by
      rw [mem_slotCloses]
      rintro ⟨j, e, -⟩
      rw [SessId.slot.injEq] at e
      omega
    rw [slotCloses]
    split
    · exact List.nodup_append'.mpr ⟨ih (n + 1), List.nodup_singleton _, by simpa using notLater⟩
    · exact ih (n + 1)

theorem State.mem_resetCloses (s : State) (k : SessId) (c : Call) :
    (k, c) ∈ s.resetCloses ↔ c = .closePort ∧ (s.session k).state = .opened := by
  rw [State.resetCloses, List.mem_append, mem_slotCloses]
  cases k with
  | direct => by_cases isOpened : s.direct.state = .opened <;> simp [isOpened]
  | slot h => by_cases isOpened : s.direct.state = .opened <;> simp [isOpened]

theorem State.nodup_resetCloses (s : State) : s.resetCloses.Nodup := by
  have notSlot : (SessId.direct, Call.closePort) ∉ slotCloses 0 s.slots := by
    rw [mem_slotCloses]
    rintro ⟨j, e, -⟩
    cases e
  rw [State.resetCloses]
  split
  · exact List.nodup_append'.mpr ⟨nodup_slotCloses 0 _, List.nodup_singleton _, by simpa using notSlot⟩
  · simpa using nodup_slotCloses 0 s.slots

/-- Settles O4: the scalars are fields of the literal; slots, Sessions and closes are read by the lemmas above. -/
theorem resetReleasesEveryTransport : Obligations.ResetReleasesEveryTransport := by
  intro s
  have noHandle : (0xFFFFFFFF#32).toInt = -1 := by decide
  exact ⟨s.afterReset, rfl, ⟨rfl, rfl, rfl, rfl⟩, rfl, rfl, noHandle, rfl, rfl, rfl, s.occ_afterReset, s.state_afterReset,
    fun _ sound => State.held_afterReset sound,
    ⟨s.resetCloses, rfl, s.nodup_resetCloses, s.mem_resetCloses⟩, rfl, rfl⟩

end Sys2Proof.Machine
end

section
/-! The clauses of the invariant that hold at every moment of a command (R36), and what keeps them. -/

namespace Sys2Proof.Machine

/-- The invariant without the clauses that speak of a command in progress. -/
structure State.Sane (s : State) : Prop where
  memWf : s.mem.wf = true
  scratchFits : s.scratch.Fits
  errTranslates : s.err = Failure.translate s.fail
  failNoBytes : s.fail ≠ .none → s.resLen = 0
  resFits : s.resLen.toNat ≤ Config.doutCap
  tableFits : fits s.regSize s.params.nslotsMax = true
  occBelow : ∀ h, s.regSize ≤ h → (slotAt s.slots h).occ = false
  sound : ∀ k, (s.session k).sound
  emptySlots : ∀ h, (slotAt s.slots h).occ = false →
    (s.session (.slot h)).state = .unconfigured ∨ (s.session (.slot h)).state = .configured

theorem State.Inv.sane {s : State} (inv : s.Inv) : s.Sane where
  memWf := inv.memWf
  scratchFits := ⟨inv.txbufWf, inv.accWf, inv.txFits, inv.accFits⟩
  errTranslates := inv.errTranslates
  failNoBytes := inv.failNoBytes
  resFits := inv.resFits
  tableFits := inv.tableFits
  occBelow := inv.occBelow
  sound := inv.sound
  emptySlots := inv.emptySlots

theorem State.Sane.inv {s : State} (sane : s.Sane)
    (settled : ∀ k, (s.session k).state = .configured → s.connecting = some k)
    (shownDirect : s.busy = true → s.connecting ≠ some .direct → s.host.shown = s.direct.state)
    (shownSettled : s.busy = true → s.host.shown ≠ .configured) : s.Inv where
  memWf := sane.memWf
  txbufWf := sane.scratchFits.txbufWf
  accWf := sane.scratchFits.accWf
  errTranslates := sane.errTranslates
  failNoBytes := sane.failNoBytes
  resFits := sane.resFits
  txFits := sane.scratchFits.tx
  accFits := sane.scratchFits.acc
  tableFits := sane.tableFits
  occBelow := sane.occBelow
  sound := sane.sound
  settled := settled
  emptySlots := sane.emptySlots
  shownDirect := shownDirect
  shownSettled := shownSettled

theorem State.connecting_of_idle {s : State} (idle : s.busy = false) : s.connecting = none := by
  simp [State.connecting, idle]

/-- Between commands the invariant adds only that no Session is `Configured`. -/
theorem State.Sane.inv_of_idle {s : State} (sane : s.Sane) (idle : s.busy = false)
    (settled : ∀ k, (s.session k).state ≠ .configured) : s.Inv :=
  sane.inv (fun k configured => absurd configured (settled k)) (fun busy => by cases idle.symm.trans busy)
    (fun busy => by cases idle.symm.trans busy)

theorem State.Inv.settled_of_idle {s : State} (inv : s.Inv) (idle : s.busy = false) (k : SessId) :
    (s.session k).state ≠ .configured := by
  intro configured
  cases (State.connecting_of_idle idle).symm.trans (inv.settled k configured)

/-! ## The updates that complete a command -/

/-- `u` is the state `v` with a command completed in it (R171, R172). -/
structure Closes (v u : State) : Prop where
  sane : v.Sane → u.Sane
  idle : u.busy = false
  sessions : ∀ j, u.session j = v.session j

theorem Closes.raise (v : State) (f : Failure) : Closes v (v.raise f) where
  sane h := { h with
    errTranslates := rfl
    failNoBytes _ := rfl
    resFits := Nat.zero_le _
    sound k := (State.session_raise v f k).symm ▸ h.sound k }
  idle := rfl
  sessions := State.session_raise v f

theorem Closes.deliver (v : State) {p : List Byte} (fits : p.length ≤ Config.doutCap) :
    Closes v ((v.writeDout p).done p.length) where
  sane h := { h with
    memWf := Memory.wf_writeBytes h.memWf _ _
    errTranslates := rfl
    failNoBytes failed := absurd rfl failed
    resFits := (Nat.mod_le _ _).trans fits
    sound k := by rw [State.session_done, State.session_writeDout]; exact h.sound k }
  idle := rfl
  sessions j := by rw [State.session_done, State.session_writeDout]

theorem Closes.done (v : State) : Closes v (v.done 0) := Closes.deliver (p := []) v (Nat.zero_le _)

theorem Closes.noHandle_raise (v : State) (f : Failure) : Closes v (v.noHandle.raise f) where
  sane h := (Closes.raise _ f).sane { h with sound k := (State.session_noHandle v k).symm ▸ h.sound k }
  idle := rfl
  sessions j := (State.session_raise _ f j).trans (State.session_noHandle v j)

/-! ## The functions of a Session -/

/-- Within a Session the clauses are kept if its scratch state, its soundness and, where it is that of an empty slot, its
`STATE` are. -/
theorem State.Sane.of_within {k : SessId} {s v : State} (sane : s.Sane) (w : Within k s v) (scratchFits : v.scratch.Fits)
    (sound : (v.session k).sound)
    (empty : ∀ h, k = .slot h → (slotAt s.slots h).occ = false →
      (v.session k).state = .unconfigured ∨ (v.session k).state = .configured) : v.Sane where
  memWf := w.mem ▸ sane.memWf
  scratchFits := scratchFits
  errTranslates := by rw [w.err, w.fail]; exact sane.errTranslates
  failNoBytes := by rw [w.fail, w.resLen]; exact sane.failNoBytes
  resFits := w.resLen ▸ sane.resFits
  tableFits := by rw [w.regSize, w.params]; exact sane.tableFits
  occBelow h past := (w.occ h).trans (sane.occBelow h (w.regSize ▸ past))
  sound j := by
    by_cases e : j = k
    · exact e ▸ sound
    · exact w.others j e ▸ sane.sound j
  emptySlots h isEmpty := by
    rw [w.occ h] at isEmpty
    by_cases e : .slot h = k
    · exact e ▸ empty h e.symm isEmpty
    · exact w.others _ e ▸ sane.emptySlots h isEmpty

theorem Session.state_of_link_eq {x y : Session} (h : x.link = y.link) : x.state = y.state := (Prod.mk.inj h).1

theorem Session.sound_of_link_eq {x y : Session} (h : x.link = y.link) (sound : y.sound) : x.sound := by
  obtain ⟨state, held⟩ := Prod.mk.inj h
  rwa [Session.sound, state, held]

theorem Session.sound_of_link {x : Session} {v : SessState} {b : Bool} (h : x.link = (v, b))
    (agree : b = true ↔ v = .opened) :
    x.sound := by
  obtain ⟨state, held⟩ := Prod.mk.inj h
  rwa [Session.sound, state, held]

/-- A function that leaves `STATE` and the Transport's hold of its Session keeps the clauses. -/
theorem State.Sane.of_same_link {k : SessId} {s v : State} (sane : s.Sane) (w : Within k s v)
    (scratchFits : s.scratch.Fits → v.scratch.Fits) (link : (v.session k).link = (s.session k).link) : v.Sane := by
  refine sane.of_within w (scratchFits sane.scratchFits) (Session.sound_of_link_eq link (sane.sound k)) ?_
  rintro h rfl isEmpty
  rw [Session.state_of_link_eq link]
  exact sane.emptySlots h isEmpty

theorem Addresses.occ {i : Instr} {s : State} {h : Nat} (addr : Addresses i s (.slot h)) :
    (slotAt s.slots h).occ = true := by
  cases i with
  | encode | decode | rcreate => exact addr.elim
  | connect | sendcmd | readrsp | disconnect | flush => cases addr
  | ropen | rclose | rwrite | rread | rflush | rdeinit =>
    obtain ⟨-, valid, e⟩ := addr
    rw [SessId.slot.injEq] at e
    rw [e]
    exact ((validHandleIsAnOccupiedSlot s _).mp valid).2.2

/-- On the Session of an addressed slot, which is occupied, any sound `STATE` will do. -/
theorem State.Sane.of_addresses {i : Instr} {k : SessId} {s v : State} (sane : s.Sane) (addr : Addresses i s k)
    (w : Within k s v) (scratch : v.scratch = s.scratch) (sound : (v.session k).sound) : v.Sane :=
  sane.of_within w (scratch ▸ sane.scratchFits) sound fun h e isEmpty => by
    subst e
    cases addr.occ.symm.trans isEmpty

end Sys2Proof.Machine
end

section
/-! A command in progress: the Session it may leave `Configured` (R23, R118), and what the host is shown (R48). -/

namespace Sys2Proof.Machine

theorem State.freeSlot_congr {s v : State} (regSize : v.regSize = s.regSize) (params : v.params = s.params)
    (occ : ∀ h, (slotAt v.slots h).occ = (slotAt s.slots h).occ) : v.freeSlot = s.freeSlot := by
  simp only [State.freeSlot, regSize, params, occ]

theorem State.validHandle_congr {s v : State} (regSize : v.regSize = s.regSize)
    (occ : ∀ h, (slotAt v.slots h).occ = (slotAt s.slots h).occ) (h : Word) : v.validHandle h = s.validHandle h := by
  simp only [State.validHandle, regSize, occ]

theorem Within.freeSlot {k : SessId} {s v : State} (w : Within k s v) : v.freeSlot = s.freeSlot :=
  State.freeSlot_congr w.regSize w.params w.occ

theorem Within.validHandle {k : SessId} {s v : State} (w : Within k s v) (h : Word) : v.validHandle h = s.validHandle h :=
  State.validHandle_congr w.regSize w.occ h

theorem Within.connecting {k : SessId} {s v : State} (w : Within k s v) (busy : v.busy = s.busy) :
    v.connecting = s.connecting := by
  simp only [State.connecting, busy, w.cmd, w.params, w.ops, w.freeSlot, w.validHandle]

section
variable {s : State} {i : Instr} (busy : s.busy = true) (decoded : decodeOpcode s.cmd = .command i)
include busy decoded

/-- Only CONNECT, RCREATE and ROPEN pass through `Configured`. -/
theorem State.connecting_eq_none (quiet : i ≠ .connect ∧ i ≠ .rcreate ∧ i ≠ .ropen) : s.connecting = none := by
  obtain ⟨h1, h2, h3⟩ := quiet
  rw [State.connecting, if_pos busy, decoded]
  cases i with
  | connect | rcreate | ropen => contradiction
  | encode | decode | sendcmd | readrsp | disconnect | flush => rfl
  | rclose | rwrite | rread | rflush | rdeinit => rfl

theorem State.connecting_of_addresses {k : SessId} (addr : Addresses i s k) (hi : i = .connect ∨ i = .ropen) :
    s.connecting = some k := by
  rw [State.connecting, if_pos busy, decoded]
  rcases hi with rfl | rfl
  · exact congrArg _ (Eq.symm addr)
  · obtain ⟨table, valid, rfl⟩ := addr
    simp [table, valid]

theorem State.connecting_of_refused (noAddress : ∀ k, ¬ Addresses i s k)
    (noTable : ¬ (i = .rcreate ∧ s.params.hasRegistry = true)) : s.connecting = none := by
  by_cases quiet : i ≠ .connect ∧ i ≠ .rcreate ∧ i ≠ .ropen
  · exact State.connecting_eq_none busy decoded quiet
  · rw [State.connecting, if_pos busy, decoded]
    cases i with
    | connect => exact absurd rfl (noAddress .direct)
    | rcreate => exact if_neg fun table => noTable ⟨rfl, table⟩
    | ropen =>
      refine if_neg fun valid => noAddress _ ⟨?_, ?_, rfl⟩
      · exact (Bool.and_eq_true_iff.mp valid).1
      · exact (Bool.and_eq_true_iff.mp valid).2
    | _ => exact absurd (by decide) quiet

theorem State.connecting_of_free {h : Nat} (hi : i = .rcreate) (table : s.params.hasRegistry = true)
    (free : s.freeSlot = some h) : s.connecting = some (.slot h) := by
  subst hi
  simp [State.connecting, busy, decoded, table, free]

end

/-- The state in which a function of Session `k` has returned, with the command completed in it. -/
theorem State.Inv.of_ended {k : SessId} {s v u : State} (inv : s.Inv) (w : Within k s v)
    (only : ∀ j, s.connecting = some j → j = k) (sane : u.Sane) (idle : u.busy = false)
    (sessions : ∀ j, j ≠ k → u.session j = v.session j) (settled : (u.session k).state ≠ .configured) : u.Inv := by
  refine sane.inv_of_idle idle fun j => ?_
  by_cases e : j = k
  · exact e ▸ settled
  · intro configured
    rw [sessions j e, w.others j e] at configured
    exact e (only j (inv.settled j configured))

/-- The state in which a function of Session `k` waits. -/
theorem State.Inv.of_waits {k : SessId} {s v : State} (inv : s.Inv) (busy : s.busy = true) (w : Within k s v)
    (vbusy : v.busy = true) (sane : v.Sane)
    (settled : (v.session k).state = .configured → s.connecting = some k)
    (shown : k = .direct → s.connecting ≠ some .direct → v.direct.state = s.direct.state) : v.Inv := by
  have connecting := w.connecting (vbusy.trans busy.symm)
  have shownEq : v.host.shown = s.host.shown := (congrArg HostSide.shown w.host :)
  refine sane.inv (fun j configured => ?_) (fun _ notDirect => ?_) (fun _ => shownEq ▸ inv.shownSettled busy)
  · rw [connecting]
    by_cases e : j = k
    · subst e
      exact settled configured
    · exact inv.settled j (w.others j e ▸ configured)
  · rw [connecting] at notDirect
    rw [shownEq, inv.shownDirect busy notDirect]
    by_cases e : SessId.direct = k
    · exact (shown e.symm notDirect).symm
    · exact congrArg Session.state (w.others .direct e).symm

/-- The end of a function of Session `k` in a command, whichever it is. -/
theorem State.Inv.complete {α : Type} {k : SessId} {s : State} {r : Run α} {onOk : α → State → State} (inv : s.Inv)
    (busy : s.busy = true) (keeps : r.Keeps k s) (only : ∀ j, s.connecting = some j → j = k) (sane : r.after.Sane)
    (closes : ∀ a v, r = .ok a v → Closes v (onOk a v)) (settled : (r.after.session k).state = .configured →
      s.connecting = some k ∧ ∃ v, r = .waits v)
    (shown : ∀ v, r = .waits v → k = .direct → s.connecting ≠ some .direct → v.direct.state = s.direct.state) :
    (r.complete onOk).Inv := by
  cases r with
  | ok a v =>
    have c := closes a v rfl
    refine inv.of_ended (u := onOk a v) keeps.1 only (c.sane sane) c.idle (fun j _ => c.sessions j) fun configured => ?_
    rw [c.sessions] at configured
    obtain ⟨-, w, e⟩ := settled configured
    cases e
  | fail f v =>
    have c := Closes.raise v f
    refine inv.of_ended (u := v.raise f) keeps.1 only (c.sane sane) c.idle (fun j _ => c.sessions j) fun configured => ?_
    rw [c.sessions] at configured
    obtain ⟨-, w, e⟩ := settled configured
    cases e
  | waits v => exact inv.of_waits busy keeps.1 keeps.2.1 sane (fun configured => (settled configured).1) (shown v rfl)

end Sys2Proof.Machine
end

section
/-! Every command keeps the invariant, from its issue or from where it is gone on with (R36). -/

namespace Sys2Proof.Machine

section
variable {s : State} {i : Instr} (inv : s.Inv)
include inv

/-- A command that is over before it does anything, while no Session is being connected. -/
theorem State.Inv.of_closes {u : State} (quiet : s.connecting = none) (c : Closes s u) : u.Inv := by
  refine inv.of_ended (Within.refl .direct s) (by simp [quiet]) (c.sane inv.sane) c.idle (fun j _ => c.sessions j) ?_
  intro configured
  rw [c.sessions] at configured
  cases quiet.symm.trans (inv.settled _ configured)

variable (busy : s.busy = true)
include busy

/-- A function that leaves `STATE` and the Transport's hold of its Session, in a command that never connects. -/
theorem State.Inv.complete_of_same_link {α : Type} {k : SessId} {r : Run α} {onOk : α → State → State}
    (quiet : s.connecting = none) (keeps : r.Keeps k s) (scratchFits : s.scratch.Fits → r.after.scratch.Fits)
    (link : (r.after.session k).link = (s.session k).link) (closes : ∀ a v, r = .ok a v → Closes v (onOk a v)) :
    (r.complete onOk).Inv := by
  refine inv.complete busy keeps (by simp [quiet]) (inv.sane.of_same_link keeps.within scratchFits link) closes
    (fun configured => ?_) fun v e isDirect _ => ?_
  · rw [Session.state_of_link_eq link] at configured
    cases quiet.symm.trans (inv.settled k configured)
  · subst isDirect
    rw [e] at link
    exact Session.state_of_link_eq link

theorem connect_keeps_inv {k : SessId} (addr : Addresses i s k) (connecting : s.connecting = some k) (c : Tuple) :
    (connect k c s).finish.Inv := by
  have keeps := connect_keeps k c s
  refine inv.complete busy keeps (fun j e => Option.some.inj (e.symm.trans connecting)) ?_ (fun _ v _ => Closes.done v) ?_
    (fun v _ isDirect other => absurd (isDirect ▸ connecting) other)
  · obtain ⟨u, e, scratch, link⟩ | ⟨f, u, e, scratch, link⟩ | ⟨u, e, scratch, link | link⟩ :=
      connect_cases k c (inv.sound k)
    all_goals
      rw [e] at keeps ⊢
      exact inv.sane.of_addresses addr keeps.within scratch (Session.sound_of_link link (by decide))
  · intro configured
    obtain ⟨u, e, -, link⟩ | ⟨f, u, e, -, link⟩ | ⟨u, e, -⟩ := connect_cases k c (inv.sound k)
    · rw [e] at configured
      cases configured.symm.trans (Prod.mk.inj link).1
    · rw [e] at configured
      cases configured.symm.trans (Prod.mk.inj link).1
    · exact ⟨connecting, u, e⟩

/-- Disconnect, whatever completes the command on the Session it leaves, which is sound and not open. -/
theorem disconnect_keeps_inv {k : SessId} (addr : Addresses i s k) (quiet : s.connecting = none)
    {onOk : Unit → State → State}
    (closes : ∀ v, disconnect k s = .ok () v → v.Sane → (v.session k).transport.held = false →
      (v.session k).state ≠ .configured → (onOk () v).Sane ∧ (onOk () v).busy = false ∧
        (∀ j, j ≠ k → (onOk () v).session j = v.session j) ∧ ((onOk () v).session k).state ≠ .configured) :
    ((disconnect k s).complete onOk).Inv := by
  have keeps := disconnect_keeps k s
  have settled : (s.session k).state ≠ .configured := fun configured => by
    cases quiet.symm.trans (inv.settled k configured)
  obtain ⟨v, e, scratch, link⟩ | ⟨v, e, scratch, sessions⟩ := disconnect_cases k s
  · rw [e] at keeps
    obtain ⟨held, notConfigured⟩ :
        (v.session k).transport.held = false ∧ (v.session k).state ≠ .configured := by
      split at link
      · obtain ⟨state, held⟩ := Prod.mk.inj link
        exact ⟨held, state ▸ nofun⟩
      · next notOpened =>
        obtain ⟨state, held⟩ := Prod.mk.inj link
        exact ⟨held ▸ eq_false_of_ne_true fun h => notOpened ((inv.sound k).mp h), state ▸ settled⟩
    have sound : (v.session k).sound := by
      split at link
      · exact Session.sound_of_link link (by decide)
      · exact Session.sound_of_link_eq link (inv.sound k)
    obtain ⟨sane, idle, others, notConfigured⟩ :=
      closes v e (inv.sane.of_addresses addr keeps.within scratch sound) held notConfigured
    rw [e]
    exact inv.of_ended keeps.1 (by simp [quiet]) sane idle others notConfigured
  · rw [e] at keeps ⊢
    refine inv.of_waits busy keeps.within keeps.2.1
      (inv.sane.of_same_link keeps.within (scratch ▸ id) (congrArg _ (sessions k)))
      (fun configured => ?_) fun _ _ => congrArg Session.state (sessions .direct)
    exact absurd (sessions k ▸ configured) settled

end

/-! ## RCREATE and RDEINIT -/

theorem State.slotAt_vacate (v : State) (h j : Nat) : slotAt (v.vacate h).slots j =
    if j = h then { occ := false, session := { v.session (.slot h) with state := .unconfigured } }
    else slotAt v.slots j := by
  rw [State.vacate_eq]
  exact slotAt_putSlot _ _ _ _

theorem State.session_vacate_self (v : State) (h : Nat) :
    (v.vacate h).session (.slot h) = { v.session (.slot h) with state := .unconfigured } := by
  rw [State.session_slot, State.slotAt_vacate, if_pos rfl]

theorem State.Sane.vacate {v : State} {h : Nat} (sane : v.Sane)
    (held : (v.session (.slot h)).transport.held = false) : (v.vacate h).Sane where
  memWf := sane.memWf
  scratchFits := sane.scratchFits
  errTranslates := sane.errTranslates
  failNoBytes := sane.failNoBytes
  resFits := sane.resFits
  tableFits := sane.tableFits
  occBelow j past := by
    rw [State.slotAt_vacate]
    split
    · rfl
    · exact sane.occBelow j past
  sound k := by
    by_cases e : k = .slot h
    · rw [e, State.session_vacate_self]
      exact ⟨fun h => (Bool.false_ne_true (held.symm.trans h)).elim, nofun⟩
    · rw [State.session_vacate_ne v e]
      exact sane.sound k
  emptySlots j isEmpty := by
    by_cases e : j = h
    · rw [e, State.session_vacate_self]
      exact .inl rfl
    · rw [State.slotAt_vacate, if_neg e] at isEmpty
      rw [State.session_vacate_ne v (by simp [e])]
      exact sane.emptySlots j isEmpty

theorem rdeinit_keeps_inv {s : State} {h : Nat} (inv : s.Inv) (busy : s.busy = true) (quiet : s.connecting = none)
    (addr : Addresses .rdeinit s (.slot h)) :
    ((disconnect (.slot h) s).complete fun _ s => (s.vacate h).done 0).Inv := by
  refine disconnect_keeps_inv inv busy addr quiet fun v _ sane held _ => ?_
  have c := Closes.done (v.vacate h)
  refine ⟨c.sane (sane.vacate held), c.idle, fun j e => (c.sessions j).trans (v.session_vacate_ne e), ?_⟩
  rw [c.sessions, State.session_vacate_self]
  exact nofun

/-- The free slot is empty, listed or not (R142, R27). -/
theorem State.Inv.occ_of_free {s : State} (inv : s.Inv) {h : Nat} (free : s.freeSlot = some h) :
    (slotAt s.slots h).occ = false := by
  obtain ⟨-, isEmpty, -⟩ | ⟨rfl, -⟩ := (s.freeSlot_eq_some_iff h).mp free
  · exact isEmpty
  · exact inv.occBelow _ (Nat.le_refl _)

/-- The success of RCREATE on the free slot. -/
theorem State.Sane.occupy {s v : State} {h : Nat} (sane : s.Sane) (w : Within (.slot h) s v) (free : s.freeSlot = some h)
    (scratch : v.scratch = s.scratch) (sound : (v.session (.slot h)).sound) : (v.occupy h).Sane := by
  have sessions := v.session_occupy h
  obtain ⟨r, n, e⟩ := v.occupy_eq h
  rw [e] at sessions ⊢
  exact {
    memWf := w.mem ▸ sane.memWf
    scratchFits := scratch ▸ sane.scratchFits
    errTranslates := by
      change v.err = Failure.translate v.fail
      rw [w.err, w.fail]
      exact sane.errTranslates
    failNoBytes := by
      change v.fail ≠ .none → v.resLen = 0
      rw [w.fail, w.resLen]
      exact sane.failNoBytes
    resFits := w.resLen ▸ sane.resFits
    tableFits := by
      change fits (if h = v.regSize then v.regSize + 1 else v.regSize) v.params.nslotsMax = true
      rw [w.regSize, w.params]
      obtain ⟨below, -⟩ | ⟨rfl, -, grows⟩ := (s.freeSlot_eq_some_iff h).mp free
      · rw [if_neg (by omega)]
        exact sane.tableFits
      · rw [if_pos rfl]
        exact (fits_succ_iff _ _).mpr grows
    occBelow j past := by
      change (if h = v.regSize then v.regSize + 1 else v.regSize) ≤ j at past
      change (slotAt (putSlot v.slots h _) j).occ = false
      rw [w.regSize] at past
      have notBelow : ¬ s.regSize < h := by
        obtain ⟨below, -⟩ | ⟨rfl, -⟩ := (s.freeSlot_eq_some_iff h).mp free <;> omega
      rw [slotAt_putSlot, if_neg (by split at past <;> omega), w.occ]
      exact sane.occBelow j (by split at past <;> omega)
    sound k := by
      rw [sessions]
      by_cases e : k = .slot h
      · exact e ▸ sound
      · exact w.others k e ▸ sane.sound k
    emptySlots j isEmpty := by
      change (slotAt (putSlot v.slots h _) j).occ = false at isEmpty
      rw [slotAt_putSlot] at isEmpty
      split at isEmpty
      · cases isEmpty
      · next e =>
        rw [sessions, w.others _ (by simp [e])]
        exact sane.emptySlots j (w.occ j ▸ isEmpty) }

theorem rcreate_keeps_inv {s : State} {h : Nat} (inv : s.Inv) (busy : s.busy = true) (free : s.freeSlot = some h)
    (connecting : s.connecting = some (.slot h)) (c : Tuple) : (finishCreate h (connect (.slot h) c s)).Inv := by
  have keeps := connect_keeps (.slot h) c s
  have only : ∀ j, s.connecting = some j → j = .slot h := fun j e => Option.some.inj (e.symm.trans connecting)
  have notOpened : (s.session (.slot h)).state ≠ .opened := by
    obtain e | e := inv.emptySlots h (inv.occ_of_free free) <;> rw [e] <;> exact nofun
  have notHeld : (s.session (.slot h)).transport.held = false :=
    eq_false_of_ne_true fun held => notOpened ((inv.sound _).mp held)
  rw [connect_of_not_opened c notOpened] at keeps ⊢
  obtain ⟨v, e, scratch, link⟩ | ⟨f, v, e, scratch, link⟩ | ⟨v, e, scratch, link⟩ := connectTuple_cases (.slot h) c notHeld
  all_goals
    rw [e] at keeps ⊢
    have sound := Session.sound_of_link link (by decide)
    have state := (Prod.mk.inj link).1
  · have closes := Closes.done (v.occupy h)
    refine inv.of_ended (u := (v.occupy h).done 0) keeps.1 only
      (closes.sane (inv.sane.occupy keeps.1 free scratch sound)) closes.idle
      (fun j _ => (closes.sessions j).trans (v.session_occupy h j)) ?_
    rw [closes.sessions, v.session_occupy, state]
    exact nofun
  · have closes := Closes.noHandle_raise v f
    have sane := inv.sane.of_within keeps.1 (scratch ▸ inv.sane.scratchFits) sound fun _ _ _ => .inl state
    refine inv.of_ended (u := v.noHandle.raise f) keeps.1 only (closes.sane sane) closes.idle
      (fun j _ => closes.sessions j) ?_
    rw [closes.sessions, state]
    exact nofun
  · have sane := inv.sane.of_within keeps.1 (scratch ▸ inv.sane.scratchFits) sound fun _ _ _ => .inr state
    exact inv.of_waits busy keeps.1 keeps.2.1 sane (fun _ => connecting) nofun

/-! ## The command -/

theorem Does.keeps_inv {s u : State} {i : Instr} (inv : s.Inv) (busy : s.busy = true)
    (decoded : decodeOpcode s.cmd = .command i) (does : Does i s u) : u.Inv := by
  have quiet := State.connecting_eq_none busy decoded
  cases does with
  | refuses noAddress noTable =>
    exact inv.of_closes (State.connecting_of_refused busy decoded noAddress noTable) (Closes.raise s _)
  | delivers hi fits =>
    exact inv.of_closes (quiet (by rcases hi with rfl | rfl <;> decide)) (Closes.deliver s fits)
  | connects addr hi => exact connect_keeps_inv inv busy addr (State.connecting_of_addresses busy decoded addr hi) _
  | @sends k addr hi =>
    obtain ⟨scratchFits, link, -⟩ := sendCommand_after k s.len s
    exact inv.complete_of_same_link busy (quiet (by rcases hi with rfl | rfl <;> decide)) (sendCommand_keeps k _ s)
      scratchFits link fun _ v _ => Closes.done v
  | @reads k addr hi =>
    obtain ⟨scratchFits, link, -⟩ := readResponse_after k s.cap s.timeoutMs s
    exact inv.complete_of_same_link busy (quiet (by rcases hi with rfl | rfl <;> decide)) (readResponse_keeps k _ _ s)
      scratchFits link fun _ v e => Closes.deliver v (readResponse_payload_fits e)
  | @disconnects k addr hi =>
    refine disconnect_keeps_inv inv busy addr (quiet (by rcases hi with rfl | rfl <;> decide)) fun v _ sane _ settled => ?_
    have c := Closes.done v
    exact ⟨c.sane sane, c.idle, fun j _ => c.sessions j, (c.sessions k).symm ▸ settled⟩
  | @flushes k addr hi =>
    obtain ⟨scratch, link, -⟩ := flushSession_after k s
    exact inv.complete_of_same_link busy (quiet (by rcases hi with rfl | rfl <;> decide)) (flushSession_keeps k s)
      (fun fits => scratch ▸ fits) link fun _ v _ => Closes.done v
  | full hi _ free =>
    subst hi
    have none : s.connecting = none := by simp [State.connecting, busy, decoded, free]
    exact inv.of_closes none (Closes.noHandle_raise s _)
  | creates hi table free =>
    exact rcreate_keeps_inv inv busy free (State.connecting_of_free busy decoded hi table free) _
  | deinits hi addr =>
    subst hi
    exact rdeinit_keeps_inv inv busy (quiet (by decide)) addr

theorem resume_keeps_inv {s u : State} (inv : s.Inv) (busy : s.busy = true) (h : resume s = .next u) : u.Inv := by
  obtain ⟨i, decoded, -, ran⟩ | ⟨i, k, decoded, addr, hi, rfl⟩ | ⟨only, f, -, rfl⟩ := resume_cases h
  · exact (exec_does ran).keeps_inv inv busy decoded
  · have quiet := State.connecting_eq_none busy decoded (by rcases hi with rfl | rfl <;> decide)
    obtain ⟨scratchFits, link, -⟩ := readLoop_after k s.cap s.timeoutMs s.world.turns s
    exact inv.complete_of_same_link busy quiet (resumeRead_keeps k _ _ s) scratchFits link
      fun _ v e => Closes.deliver v (readLoop_payload_fits e)
  · refine inv.of_closes ?_ (Closes.raise s f)
    cases decoded : decodeOpcode s.cmd with
    | command i =>
      obtain rfl := only i decoded
      exact State.connecting_eq_none busy decoded (by decide)
    | illegalOpcode op => rw [State.connecting, if_pos busy, decoded]

end Sys2Proof.Machine
end

section
/-! One act of the host, said once (R41, R42, R46, R47, R116, R190): what each kind of act can do to the state. -/

namespace Sys2Proof.Machine

theorem hostRead32_next {off : Nat} {s u : State} (h : hostRead32 off s = .next u) : ∃ v, u = s.returnRead v := by
  unfold hostRead32 at h
  split at h
  · cases h
    exact ⟨_, rfl⟩
  · split at h <;> cases h
    exact ⟨_, rfl⟩
  all_goals cases h

theorem hostRead8_next {off : Nat} {s u : State} (h : hostRead8 off s = .next u) : ∃ v, u = s.returnRead v := by
  unfold hostRead8 at h
  split at h <;> cases h
  · exact ⟨_, rfl⟩
  · exact ⟨_, rfl⟩

/-- Settles O54: a read that completes is `State.returnRead`. -/
theorem readsHaveNoSideEffect : Obligations.ReadsHaveNoSideEffect := by
  intro s u off h
  obtain ⟨v, rfl⟩ := h.elim hostRead32_next hostRead8_next
  rfl

theorem hostWrite32_next {off : Nat} {v : Word} {s u : State} (h : hostWrite32 off v s = .next u) :
    u = s ∨ (s.busy = false ∧ ∃ r, u = { s with ops := s.ops.put v r }) := by
  unfold hostWrite32 at h
  split at h
  · next r _ =>
    split at h
    · split at h
      · cases h
      · next idle =>
        cases h
        exact .inr ⟨eq_false_of_ne_true idle, r, rfl⟩
    · cases h
      exact .inl rfl
  · split at h <;> cases h
    exact .inl rfl
  all_goals cases h

theorem hostWrite8_next {off : Nat} {v : Byte} {s u : State} (h : hostWrite8 off v s = .next u) :
    u = s ∨ (s.busy = false ∧ u = { s with mem := s.mem.write off v }) := by
  have buffer : ∀ u, (if s.busy then .refused (.operandWriteWhileBusy off)
      else .next { s with mem := s.mem.write off v } : Host.Outcome State Fault Refusal) = .next u →
      u = s ∨ (s.busy = false ∧ u = { s with mem := s.mem.write off v }) := by
    intro u h
    split at h
    · cases h
    · next idle =>
      cases h
      exact .inr ⟨eq_false_of_ne_true idle, rfl⟩
  unfold hostWrite8 at h
  split at h
  · cases h
    exact .inl rfl
  · exact buffer u h
  · exact buffer u h
  · cases h
    exact .inl rfl
  all_goals cases h

theorem hostPoll_frame (s : State) : ∃ h, hostPoll s = { s with host := h } ∧ h.shown = s.host.shown := by
  unfold hostPoll
  dsimp only
  split <;> exact ⟨_, rfl, rfl⟩

theorem hostSkip_frame (codes : List Failure) (n : Nat) (s : State) :
    ∃ h, hostSkip codes n s = { s with host := h } ∧ h.shown = s.host.shown := by
  unfold hostSkip
  split <;> exact ⟨_, rfl, rfl⟩

/-- All an act of the host can do: look on, write while the block is idle, issue a command, reset, let time pass. -/
inductive Acts (s : State) : State → Prop
  | looks (h : HostSide) (shown : h.shown = s.host.shown) : Acts s { s with host := h }
  | writes (idle : s.busy = false) (o : OperandRegs) (m : Memory) (wf : s.mem.wf = true → m.wf = true) :
    Acts s { s with ops := o, mem := m }
  | issues {u : State} (idle : s.busy = false) (w : Word) (ran : runWord w s = .next u) : Acts s u
  | resets : Acts s s.afterReset
  | elapses (ms : Nat) : Acts s (hostElapse ms s)

theorem hostAct_acts {a : HostAct} {s u : State} (h : hostAct a s = .next u) : Acts s u := by
  cases a with
  | read32 off =>
    obtain ⟨v, rfl⟩ := hostRead32_next h
    exact .looks _ rfl
  | read8 off =>
    obtain ⟨v, rfl⟩ := hostRead8_next h
    exact .looks _ rfl
  | write32 off v =>
    by_cases cmd : off = 0
    · subst cmd
      rw [hostAct_write32_cmd] at h
      split at h
      · cases h
      · next idle => exact .issues (eq_false_of_ne_true idle) v h
    · obtain rfl | ⟨idle, r, rfl⟩ := hostWrite32_next ((if_neg cmd).symm.trans h)
      · exact .looks _ rfl
      · exact .writes idle _ _ id
  | write8 off v =>
    obtain rfl | ⟨idle, rfl⟩ := hostWrite8_next h
    · exact .looks _ rfl
    · exact .writes idle _ _ fun wf => Memory.wf_write wf off v
  | poll =>
    obtain ⟨host, e, shown⟩ := hostPoll_frame s
    cases h
    rw [e]
    exact .looks host shown
  | skipUnless codes n =>
    obtain ⟨host, e, shown⟩ := hostSkip_frame codes n s
    cases h
    rw [e]
    exact .looks host shown
  | reset =>
    cases h
    exact .resets
  | elapse ms =>
    cases h
    exact .elapses ms

theorem hostTurn_cases {otherwise : State → Host.Outcome State Fault Refusal} {s u : State}
    (h : hostTurn otherwise s = .next u) :
    otherwise s = .next u ∨
      ∃ a rest, hostAct a { s with host := { s.host with queue := rest, yielded := false } } = .next u := by
  unfold hostTurn at h
  split at h
  · exact .inl h
  · exact .inr ⟨_, _, h⟩

end Sys2Proof.Machine
end

section
/-! Every step keeps the invariant (R36): the acts of the host, and with the commands the whole step. -/

namespace Sys2Proof.Machine

section
variable {s : State} (inv : s.Inv)
include inv

/-- Nothing in the invariant is about the environment or the host but what the host is shown. -/
theorem State.Inv.of_env (w : World) {h : HostSide} (shown : h.shown = s.host.shown) :
    ({ s with world := w, host := h } : State).Inv := by
  have sessions : ∀ k, ({ s with world := w, host := h } : State).session k = s.session k := State.session_congr rfl rfl
  exact { inv with
    sound k := (sessions k).symm ▸ inv.sound k
    settled k configured := inv.settled k (sessions k ▸ configured)
    shownDirect busy notDirect := shown.trans (inv.shownDirect busy notDirect)
    shownSettled busy := shown.symm ▸ inv.shownSettled busy }

theorem State.Inv.of_write (idle : s.busy = false) (o : OperandRegs) {m : Memory} (wf : m.wf = true) :
    ({ s with ops := o, mem := m } : State).Inv := by
  have sessions : ∀ k, ({ s with ops := o, mem := m } : State).session k = s.session k := State.session_congr rfl rfl
  have sane : ({ s with ops := o, mem := m } : State).Sane :=
    { inv.sane with memWf := wf, sound k := (sessions k).symm ▸ inv.sound k }
  exact sane.inv_of_idle idle fun k => (sessions k).symm ▸ inv.settled_of_idle idle k

theorem State.Inv.issue (idle : s.busy = false) (w : Word) : (s.issue w).Inv := by
  have sessions : ∀ k, (s.issue w).session k = s.session k := State.session_congr rfl rfl
  have settled := inv.settled_of_idle idle
  have sane : (s.issue w).Sane := { inv.sane with sound k := (sessions k).symm ▸ inv.sound k }
  exact sane.inv (fun k configured => absurd (sessions k ▸ configured) (settled k)) (fun _ _ => rfl)
    (fun _ => settled .direct)

theorem runWord_keeps_inv {u : State} (idle : s.busy = false) (w : Word) (h : runWord w s = .next u) : u.Inv := by
  have issued := inv.issue idle w
  cases decoded : decode w with
  | command i =>
    rw [runWord_of_command decoded] at h
    exact (exec_does h).keeps_inv issued rfl decoded
  | illegalOpcode op =>
    rw [runWord_of_illegalOpcode decoded] at h
    cases h
    have illegal : decodeOpcode (s.issue w).cmd = .illegalOpcode op := decoded
    exact issued.of_closes (by rw [State.connecting, illegal]; rfl) (Closes.raise _ _)

theorem State.Inv.afterReset : s.afterReset.Inv := by
  have sane : s.afterReset.Sane := {
    memWf := Memory.wf_freed _ _ _ _
    scratchFits := ⟨Memory.wf_freed _ _ _ _, Memory.wf_freed _ _ _ _, Nat.zero_le _, Nat.zero_le _⟩
    errTranslates := rfl
    failNoBytes := nofun
    resFits := Nat.zero_le _
    tableFits := by cases h : s.params.nslotsMax <;> simp [State.afterReset, h, fits]
    occBelow h _ := s.occ_afterReset h
    sound k := by simp [Session.sound, s.state_afterReset k, State.held_afterReset (inv.sound k)]
    emptySlots h _ := .inl (s.state_afterReset (.slot h)) }
  exact sane.inv_of_idle rfl fun k => by rw [s.state_afterReset k]; exact nofun

theorem Acts.keeps_inv {u : State} (acts : Acts s u) : u.Inv := by
  cases acts with
  | looks h shown => exact inv.of_env s.world shown
  | writes idle o m wf => exact inv.of_write idle o (wf inv.memWf)
  | issues idle w ran => exact runWord_keeps_inv inv idle w ran
  | resets => exact inv.afterReset
  | elapses ms =>
    obtain ⟨n, m, q, e⟩ := hostElapse_frame ms s
    rw [e]
    exact inv.of_env _ rfl

theorem hostTurn_keeps_inv {otherwise : State → Host.Outcome State Fault Refusal} {u : State}
    (kept : otherwise s = .next u → u.Inv) (h : hostTurn otherwise s = .next u) : u.Inv := by
  obtain h | ⟨a, rest, h⟩ := hostTurn_cases h
  · exact kept h
  · refine Acts.keeps_inv ?_ (hostAct_acts h)
    exact inv.of_env s.world rfl

end

/-- Settles O3: a step is an act of the host, the command going on, or nothing. -/
theorem stepKeepsTheInvariant : Obligations.StepKeepsTheInvariant := by
  intro s t inv h
  unfold step at h
  split at h
  · next busy =>
    split at h
    · exact hostTurn_keeps_inv inv (resume_keeps_inv inv busy) h
    · exact resume_keeps_inv inv busy h
  · refine hostTurn_keeps_inv inv (fun stays => ?_) h
    cases stays
    exact inv

end Sys2Proof.Machine
end

section
/-! The BCC under reordering and one changed byte, scans under appending, noise and tails (R93, R101, R103), and the
loopback of ENCODE through DECODE. -/

namespace Sys2Proof.Machine

theorem xorAll_perm {p q : List Byte} (h : p.Perm q) : xorAll p = xorAll q := by
  induction h with
  | nil => rfl
  | cons b _ ih => rw [xorAll_cons, xorAll_cons, ih]
  | swap a b l => simp only [xorAll_cons, ← BitVec.xor_assoc, BitVec.xor_comm b a]
  | trans _ _ ih₁ ih₂ => exact ih₁.trans ih₂

/-- Settles O12: the XOR is commutative, and the one byte is changed in place. -/
theorem bccIgnoresOrderAndSeesOneByte : Obligations.BccIgnoresOrderAndSeesOneByte := by
  refine ⟨fun p q perm => congrArg (· ^^^ Config.etx) (xorAll_perm perm), fun p q a b differ => ?_⟩
  have changed := bcc_set_ne (p := p ++ b :: q) (m := p.length) (by simp) differ
  simpa using changed

/-! ## Scans -/

theorem decodeFrame_error_of_scan_none {raw : List Byte} (h : scan raw = none) :
    decodeFrame raw = .error .noStartMarker ∨ decodeFrame raw = .error .noEndMarker ∨
      decodeFrame raw = .error .checksumMismatch := by
  cases hi : findStx raw with
  | none => exact .inl (decodeFrame_of_findStx_none hi)
  | some i =>
    cases hj : findEtx raw i with
    | none => exact .inr (.inl (decodeFrame_of_findEtx_none hi hj))
    | some j =>
      cases hr : raw[j + 1]? with
      | none => exact .inr (.inr (decodeFrame_of_no_bcc hi hj hr))
      | some r =>
        have complete := (scan_eq_some_iff raw i j).mpr ⟨hi, hj, (List.getElem?_eq_some_iff.mp hr).1⟩
        cases h.symm.trans complete

/-- Settles O15: a buffer that needs more lacks STX, ETX or the BCC. -/
theorem scanIsStable : Obligations.ScanIsStable :=
  ⟨fun _ tail _ _ complete => scan_append complete tail, fun _ => decodeFrame_error_of_scan_none⟩

/-! ## Noise and tails -/

section
variable {noise : List Byte} (noStx : Config.stx ∉ noise) (raw : List Byte)

include noStx in
theorem findStx_noise_append : findStx (noise ++ raw) = (findStx raw).map (· + noise.length) :=
  findByte_append_of_notMem noStx raw

theorem drop_append_add (noise : List Byte) (i : Nat) : (noise ++ raw).drop (i + noise.length) = raw.drop i := by
  rw [Nat.add_comm, List.drop_append]
  simp

theorem findEtx_noise_append (noise : List Byte) (i : Nat) :
    findEtx (noise ++ raw) (i + noise.length) = (findEtx raw i).map (· + noise.length) := by
  have behind := drop_append_add raw noise (i + 1)
  rw [Nat.add_right_comm] at behind
  rw [findEtx, findEtx, behind, Option.map_map]
  congr 1
  funext a
  simp only [Function.comp]
  omega

theorem slice_noise_append (noise : List Byte) (a b : Nat) :
    slice (noise ++ raw) (a + noise.length) (b + noise.length) = slice raw a b := by
  have count : b + noise.length + 1 - (a + noise.length) = b + 1 - a := by omega
  rw [slice, drop_append_add, count, slice]

include noStx in
/-- Every index DecodeFrame computes is moved by the length of the noise. -/
theorem decodeFrame_noise_append : decodeFrame (noise ++ raw) = decodeFrame raw := by
  have stx := findStx_noise_append noStx raw
  cases hi : findStx raw with
  | none =>
    rw [hi] at stx
    rw [decodeFrame_of_findStx_none hi, decodeFrame_of_findStx_none stx]
  | some i =>
    rw [hi] at stx
    have etx := findEtx_noise_append raw noise i
    cases hj : findEtx raw i with
    | none =>
      rw [hj] at etx
      rw [decodeFrame_of_findEtx_none hi hj, decodeFrame_of_findEtx_none stx etx]
    | some j =>
      rw [hj] at etx
      have bccAt : (noise ++ raw)[j + noise.length + 1]? = raw[j + 1]? := by
        rw [List.getElem?_append_right (by omega)]
        congr 1
        omega
      cases hr : raw[j + 1]? with
      | none => rw [decodeFrame_of_no_bcc hi hj hr, decodeFrame_of_no_bcc stx etx (bccAt.trans hr)]
      | some r =>
        have order : i < j := ((findEtx_eq_some_iff raw i j).mp hj).1
        have body := slice_noise_append raw noise (i + 1) j
        have payload := slice_noise_append raw noise (i + 1) (j - 1)
        rw [Nat.add_right_comm] at body payload
        rw [show j - 1 + noise.length = j + noise.length - 1 by omega] at payload
        rw [decodeFrame_of_markers hi hj hr, decodeFrame_of_markers stx etx (bccAt.trans hr), body, payload]
        simp only [Nat.add_right_comm i, Nat.add_right_cancel_iff]

end

theorem slice_append {raw : List Byte} {a b : Nat} (h : b < raw.length) (tail : List Byte) :
    slice (raw ++ tail) a b = slice raw a b := by
  rw [slice, slice]
  rcases Nat.lt_or_ge b a with empty | order
  · rw [show b + 1 - a = 0 by omega, List.take_zero, List.take_zero]
  · rw [List.drop_append_of_le_length (by omega), List.take_append_of_le_length (by rw [List.length_drop]; omega)]

/-- A complete frame is decoded from the bytes up to its BCC. -/
theorem decodeFrame_append_of_scan {raw : List Byte} {i j : Nat} (h : scan raw = some (i, j)) (tail : List Byte) :
    decodeFrame (raw ++ tail) = decodeFrame raw := by
  obtain ⟨hi, hj, bccIn⟩ := (scan_eq_some_iff raw i j).mp h
  have bccAt : (raw ++ tail)[j + 1]? = some raw[j + 1] := by
    rw [List.getElem?_append_left bccIn, List.getElem?_eq_getElem bccIn]
  rw [decodeFrame_of_markers (findStx_append hi tail) (findEtx_append hj tail) bccAt,
    decodeFrame_of_markers hi hj (List.getElem?_eq_getElem bccIn), slice_append (by omega), slice_append (by omega)]

/-- Settles O18: noise only shifts the markers, and the tail lies behind the BCC. -/
theorem noiseAndTailAreIgnored : Obligations.NoiseAndTailAreIgnored := by
  refine ⟨fun noise f tail noStx => ?_, fun f tail i j complete => decodeFrame_append_of_scan complete tail⟩
  rw [List.append_assoc]
  exact decodeFrame_noise_append noStx _

/-! ## Loopback -/

/-- Settles O21: DECODE finds in DIN the frame that ENCODE left in DOUT, and the capacity does not cut its payload. -/
theorem loopbackReturnsThePayload : Obligations.LoopbackReturnsThePayload := by
  intro s u v nonempty fits noEtx encoded len cap copied
  have fitsFrame : s.len + 3 ≤ Config.maxFrame := by
    simp only [Config.maxPayload, Config.maxFrame] at fits ⊢
    omega
  cases (exec_encode_of_fits fitsFrame).symm.trans encoded
  have payloadLength : (s.dinBytes s.len).length = s.len := Memory.length_readBytes _ _ _
  obtain ⟨-, frame, -⟩ := s.done_writeDout_delivers (p := frameOf (s.dinBytes s.len)) (n := s.len + 3)
    (by rw [length_frameOf, payloadLength]) (Nat.lt_of_le_of_lt fitsFrame (by decide))
  rw [frame] at copied
  have decoded : decodeFrame (v.dinBytes v.len) = .ok (s.dinBytes s.len) := by
    rw [len, copied, decodeFrame_frameOf noEtx, if_neg (List.ne_nil_of_length_pos (by omega))]
  have uncut : (s.dinBytes s.len).take (min v.cap Config.doutCap) = s.dinBytes s.len := by
    refine List.take_of_length_le ?_
    simp only [Config.doutCap, Config.maxPayload, Config.maxFrame] at fits ⊢
    omega
  have run := exec_decode_of_ok (len ▸ fitsFrame) decoded
  rw [uncut, payloadLength] at run
  obtain ⟨completed, bytes, -⟩ :=
    v.done_writeDout_delivers payloadLength (Nat.lt_of_le_of_lt fits (by decide))
  exact ⟨_, run, completed, bytes, rfl⟩

end Sys2Proof.Machine
end

section
/-! The register map (R41): what stands where, and the accesses that are taken, ignored, refused or stop. -/

namespace Sys2Proof.Machine

/-! ## What stands at an offset -/

section
variable {off : Nat}

theorem place_insideWord (low : off < 0x034) (misaligned : off % 4 ≠ 0) : place off = .insideWord := by
  rw [place, if_pos low, if_neg misaligned]

theorem place_of_low (low : off < 0x034) : (∃ r, place off = .word r) ∨ place off = .insideWord := by
  rw [place, if_pos low]
  split
  · split
    · exact .inl ⟨_, rfl⟩
    · exact .inr rfl
  · exact .inr rfl

theorem place_reserved (h : (0x034 ≤ off ∧ off ≤ 0x0FF) ∨ (0x1FF ≤ off ∧ off ≤ 0x3FF)) :
    place off = .reserved := by
  rw [place, if_neg (by omega)]
  obtain h | h := h
  · rw [if_pos (by omega)]
  · rw [if_neg (by omega), if_neg (by omega), if_pos (by omega)]

theorem place_cfgName (h : 0x100 ≤ off ∧ off ≤ 0x1FE) : place off = .byte .cfgName (off - 0x100) := by
  rw [place, if_neg (by omega), if_neg (by omega), if_pos (by omega)]

theorem place_din (h : 0x400 ≤ off ∧ off ≤ 0x7FF) : place off = .byte .din (off - 0x400) := by
  rw [place, if_neg (by omega), if_neg (by omega), if_neg (by omega), if_neg (by omega), if_pos (by omega)]

theorem place_dout (h : 0x800 ≤ off ∧ off ≤ 0xBFF) : place off = .byte .dout (off - 0x800) := by
  rw [place, if_neg (by omega), if_neg (by omega), if_neg (by omega), if_neg (by omega), if_neg (by omega),
    if_pos (by omega)]

theorem place_outside (h : 0xC00 ≤ off) : place off = .outside := by
  rw [place, if_neg (by omega), if_neg (by omega), if_neg (by omega), if_neg (by omega), if_neg (by omega),
    if_neg (by omega)]

theorem place_buffer (h : (0x100 ≤ off ∧ off ≤ 0x1FE) ∨ (0x400 ≤ off ∧ off ≤ 0xBFF)) :
    ∃ b i, place off = .byte b i := by
  obtain h | h := h
  · exact ⟨_, _, place_cfgName h⟩
  · rcases Nat.lt_or_ge off 0x800 with low | high
    · exact ⟨_, _, place_din ⟨h.1, by omega⟩⟩
    · exact ⟨_, _, place_dout ⟨high, h.2⟩⟩

end

/-! ## The accesses, by what stands there -/

section
variable {off : Nat} (s : State) (v : Word) (b : Byte)

theorem hostAct_write32_of_ne_zero (notCmd : off ≠ 0) : hostAct (.write32 off v) s = hostWrite32 off v s :=
  if_neg notCmd

theorem hostAct_write32_operand {r : WordReg} (there : place off = .word r) (writable : r.writable = true)
    (notCmd : off ≠ 0) : hostAct (.write32 off v) s =
      if s.busy then .refused (.operandWriteWhileBusy off) else .next { s with ops := s.ops.put v r } := by
  rw [hostAct_write32_of_ne_zero s v notCmd, hostWrite32, there]
  simp only [writable, if_true]

theorem hostAct_write32_readOnly {r : WordReg} (there : place off = .word r) (readOnly : r.writable = false)
    (notCmd : off ≠ 0) : hostAct (.write32 off v) s = .next s := by
  rw [hostAct_write32_of_ne_zero s v notCmd, hostWrite32, there]
  simp [readOnly]

theorem hostAct_read32_word {r : WordReg} (there : place off = .word r) :
    hostAct (.read32 off) s = .next (s.returnRead (s.wordReg s.freeNow r)) := by
  rw [hostAct, hostRead32, there]

theorem hostAct_write8_operand (h : (0x100 ≤ off ∧ off ≤ 0x1FE) ∨ (0x400 ≤ off ∧ off ≤ 0x7FF)) :
    hostAct (.write8 off b) s =
      if s.busy then .refused (.operandWriteWhileBusy off) else .next { s with mem := s.mem.write off b } := by
  obtain h | h := h
  · rw [hostAct, hostWrite8, place_cfgName h]
  · rw [hostAct, hostWrite8, place_din h]

theorem hostAct_read8_byte {buffer : Buffer} {i : Nat} (there : place off = .byte buffer i) :
    hostAct (.read8 off) s = .next (s.returnRead ((s.bufferByte s.freeNow buffer i).setWidth 32)) := by
  rw [hostAct, hostRead8, there]

end

/-- The host's read of a word register at its offset (R41). -/
theorem readsWord_of_place {off : Nat} {r : WordReg} {s : State} {v : Word} (there : place off = .word r)
    (shown : s.wordReg s.freeNow r = v) : ReadsWord off s v :=
  ⟨_, hostAct_read32_word s there, shown⟩

/-! ## Ignored and refused accesses -/

/-- Settles O50: DOUT and the read-only registers answer without looking at the value, as the reserved offsets do. -/
theorem readOnlyAndReservedOffsetsIgnoreWrites : Obligations.ReadOnlyAndReservedOffsetsIgnoreWrites := by
  intro s v b
  refine ⟨fun off readOnly => ?_, fun off low high => ?_, fun off h => ?_⟩
  · simp only [List.mem_cons, List.not_mem_nil, or_false] at readOnly
    obtain rfl | rfl | rfl | rfl | rfl := readOnly <;> exact hostAct_write32_readOnly s v rfl rfl nofun
  · rw [hostAct, hostWrite8, place_dout ⟨low, high⟩]
  · have there := place_reserved h
    refine ⟨by rw [hostAct, hostWrite8, there], ⟨_, by rw [hostAct, hostRead8, there], rfl⟩,
      fun aligned => ⟨?_, ?_⟩⟩
    · rw [hostAct_write32_of_ne_zero s v (by omega), hostWrite32, there]
      exact if_pos aligned
    · rw [hostAct, hostRead32, there]
      exact ⟨_, if_pos aligned, rfl⟩

/-- Settles O53: each range by what stands there. -/
theorem wrongAccessesAreRefused : Obligations.WrongAccessesAreRefused := by
  intro s off v b
  refine ⟨fun low misaligned => ?_, fun low => ?_, fun h => ?_, fun high => ?_⟩
  · have there := place_insideWord low misaligned
    rw [hostAct_write32_of_ne_zero s v (by omega), hostWrite32, hostAct, hostRead32, there]
    exact ⟨rfl, rfl⟩
  · rw [hostAct, hostAct, hostRead8, hostWrite8]
    obtain ⟨r, there⟩ | there := place_of_low low <;> rw [there] <;> exact ⟨rfl, rfl⟩
  · obtain ⟨buffer, i, there⟩ := place_buffer h
    rw [hostAct_write32_of_ne_zero s v (by omega), hostWrite32, hostAct, hostRead32, there]
    exact ⟨rfl, rfl⟩
  · have there := place_outside high
    rw [hostAct_write32_of_ne_zero s v (by omega), hostWrite32, hostAct, hostRead32, hostAct, hostRead8, hostAct,
      hostWrite8, there]
    exact ⟨rfl, rfl, rfl, rfl⟩

/-- Settles O44: the operand registers and the buffers the host writes are the places that `BUSY` guards. -/
theorem operandWriteWhileBusyIsRefused : Obligations.OperandWriteWhileBusyIsRefused := by
  intro s busy
  refine ⟨fun off v operand => ?_, fun off b h => (hostAct_write8_operand s b h).trans (if_pos busy)⟩
  simp only [List.mem_cons, List.not_mem_nil, or_false] at operand
  obtain rfl | rfl | rfl | rfl | rfl | rfl | rfl := operand <;>
    exact (hostAct_write32_operand s v (by rfl) rfl (by decide)).trans (if_pos busy)

/-! ## Buffers -/

/-- Settles O51: the byte is written at its offset in the one memory, from which host and commands read it. -/
theorem bufferBytesReadBack : Obligations.BufferBytesReadBack := by
  intro s off b idle h
  have written := (hostAct_write8_operand s b h).trans (if_neg (Bool.eq_false_iff.mp idle))
  have readBack : ∀ base, base ≤ off → (s.mem.write off b).read (base + (off - base)) = b := fun base le => by
    rw [Nat.add_sub_cancel' le, Memory.read_write_self]
  obtain low | high := h
  · have seen : ({ s with mem := s.mem.write off b } : State).cfgName (off - 0x100) = b := readBack 0x100 low.1
    refine ⟨_, _, written, hostAct_read8_byte _ (place_cfgName low), congrArg (BitVec.setWidth 32) seen,
      fun a other => Memory.read_write_ne _ _ other, fun _ => seen, fun high => ?_, rfl⟩
    omega
  · have seen : ({ s with mem := s.mem.write off b } : State).din (off - 0x400) = b := readBack 0x400 high.1
    refine ⟨_, _, written, hostAct_read8_byte _ (place_din high), congrArg (BitVec.setWidth 32) seen,
      fun a other => Memory.read_write_ne _ _ other, fun low => ?_, fun _ => seen, rfl⟩
    omega

/-- Settles O52: below `RES_LEN` and while idle the byte shown is the one in memory. -/
theorem resultBytesAreReadable : Obligations.ResultBytesAreReadable := by
  intro s i idle below inCap
  have there : place (0x800 + i) = .byte .dout i := by
    have inDout : i < 0x400 := inCap
    rw [place_dout (by omega), Nat.add_sub_cancel_left]
  have shown : s.bufferByte s.freeNow .dout i = s.dout i := if_pos ⟨idle, below⟩
  exact ⟨_, hostAct_read8_byte s there, congrArg (BitVec.setWidth 32) shown⟩

/-! ## Word registers -/

theorem setWidth_extractLsb'_low (v : Word) (n : Nat) :
    (v.extractLsb' 0 n).setWidth 32 = v &&& BitVec.ofNat 32 (2 ^ n - 1) := by
  refine BitVec.eq_of_getLsbD_eq fun i hi => ?_
  rw [BitVec.getLsbD_and, BitVec.getLsbD_ofNat, BitVec.getLsbD_setWidth, BitVec.getLsbD_extractLsb',
    Nat.testBit_two_pow_sub_one, Nat.zero_add, decide_eq_true hi, Bool.true_and, Bool.true_and, Bool.and_comm]

/-- Settles O47: the seven operand registers, each written in full or in its low bits and shown as it is held. -/
theorem operandRegistersReadBack : Obligations.OperandRegistersReadBack := by
  intro s v idle
  have written : ∀ (off : Nat) (r : WordReg), place off = .word r → r.writable = true → off ≠ 0 →
      hostAct (.write32 off v) s = .next { s with ops := s.ops.put v r } := fun off r there writable notCmd =>
    (hostAct_write32_operand s v there writable notCmd).trans (if_neg (Bool.eq_false_iff.mp idle))
  have readsBack : ∀ (off : Nat) (r : WordReg) (shown : Word), place off = .word r → r.writable = true → off ≠ 0 →
      (∀ free, ({ s with ops := s.ops.put v r } : State).wordReg free r = shown) →
      ∃ u, hostAct (.write32 off v) s = .next u ∧ ReadsWord off u shown := fun off r _ there writable notCmd held =>
    ⟨_, written off r there writable notCmd, readsWord_of_place there (held _)⟩
  have low16 := setWidth_extractLsb'_low v 16
  have low8 := setWidth_extractLsb'_low v 8
  refine ⟨⟨written _ .argLen rfl rfl (by decide), written _ .argCap rfl rfl (by decide),
    written _ .argTimeout rfl rfl (by decide), written _ .argHandle rfl rfl (by decide),
    written _ .cfgBaud rfl rfl (by decide), written _ .cfgLine rfl rfl (by decide),
    written _ .cfgNameLen rfl rfl (by decide)⟩, fun off whole => ?_, fun off half => ?_, ?_⟩
  · simp only [List.mem_cons, List.not_mem_nil, or_false] at whole
    obtain rfl | rfl | rfl | rfl := whole
    · exact readsBack _ .argTimeout v rfl rfl (by decide) fun _ => rfl
    · exact readsBack _ .argHandle v rfl rfl (by decide) fun _ => rfl
    · exact readsBack _ .cfgBaud v rfl rfl (by decide) fun _ => rfl
    · exact readsBack _ .cfgLine v rfl rfl (by decide) fun _ => rfl
  · simp only [List.mem_cons, List.not_mem_nil, or_false] at half
    obtain rfl | rfl := half
    · exact readsBack _ .argLen _ rfl rfl (by decide) fun _ => low16
    · exact readsBack _ .argCap _ rfl rfl (by decide) fun _ => low16
  · exact readsBack _ .cfgNameLen _ rfl rfl (by decide) fun _ => low8

end Sys2Proof.Machine
end

section
/-! The fields of the packed words: STATUS (R41) and `CFG_LINE` (R75), each peeled off from the low end. -/

namespace Sys2Proof.Machine

theorem extractLsb'_above {v w start n : Nat} {hi : BitVec v} {lo : BitVec w} {x : BitVec n} (above : w ≤ start)
    (h : hi.extractLsb' (start - w) n = x) : (hi ++ lo).extractLsb' start n = x :=
  (BitVec.extractLsb'_append_eq_of_le above).trans h

theorem getLsbD_above {v w i : Nat} {hi : BitVec v} {lo : BitVec w} {b : Bool} (above : w ≤ i)
    (h : hi.getLsbD (i - w) = b) : (hi ++ lo).getLsbD i = b :=
  (BitVec.getLsbD_append.trans (if_neg (Nat.not_lt.mpr above))).trans h

theorem getLsbD_append_ofBool {v : Nat} (hi : BitVec v) (b : Bool) : (hi ++ BitVec.ofBool b).getLsbD 0 = b := by
  rw [BitVec.getLsbD_append, if_pos (by decide)]
  simp

theorem statusWord_fields (busy : Bool) (err : ErrCode) (fail : Failure) :
    (statusWord busy err fail).getLsbD 31 = busy ∧ (statusWord busy err fail).extractLsb' 8 4 = err.code ∧
    (statusWord busy err fail).extractLsb' 0 5 = fail.code ∧ (statusWord busy err fail).extractLsb' 5 3 = 0#3 ∧
    (statusWord busy err fail).extractLsb' 12 19 = 0#19 := by
  unfold statusWord
  refine ⟨?_, ?_, BitVec.extractLsb'_append_eq_right, ?_, ?_⟩
  · iterate 4 refine getLsbD_above (by decide) ?_
    cases busy <;> rfl
  · iterate 2 refine extractLsb'_above (by decide) ?_
    exact BitVec.extractLsb'_append_eq_right
  · refine extractLsb'_above (by decide) ?_
    exact BitVec.extractLsb'_append_eq_right
  · iterate 3 refine extractLsb'_above (by decide) ?_
    exact BitVec.extractLsb'_append_eq_right

/-- Settles O45: STATUS is shown while a command runs too, and its fields are those of the word. -/
theorem statusReadsItsFields : Obligations.StatusReadsItsFields := fun s =>
  ⟨_, hostAct_read32_word s rfl, statusWord_fields s.busy s.err s.fail⟩

section
variable (c : WrittenCfg)

theorem WrittenCfg.line_data : c.line.extractLsb' 0 4 = c.data := BitVec.extractLsb'_append_eq_right

theorem WrittenCfg.line_stop : c.line.extractLsb' 4 2 = c.stop :=
  extractLsb'_above (by decide) BitVec.extractLsb'_append_eq_right

theorem WrittenCfg.line_rts : c.line.getLsbD 8 = c.rts := by
  unfold WrittenCfg.line
  iterate 3 refine getLsbD_above (by decide) ?_
  exact getLsbD_append_ofBool _ _

theorem WrittenCfg.line_dtr : c.line.getLsbD 9 = c.dtr := by
  unfold WrittenCfg.line
  iterate 4 refine getLsbD_above (by decide) ?_
  exact getLsbD_append_ofBool _ _

theorem WrittenCfg.line_parity : c.line.extractLsb' 16 8 = c.parity := by
  unfold WrittenCfg.line
  iterate 6 refine extractLsb'_above (by decide) ?_
  exact BitVec.extractLsb'_append_eq_right

theorem WrittenCfg.line_reserved : c.line.extractLsb' 6 2 = 0#2 ∧ c.line.extractLsb' 10 6 = 0#6 ∧
    c.line.extractLsb' 24 8 = 0#8 := by
  unfold WrittenCfg.line
  refine ⟨?_, ?_, ?_⟩
  · iterate 2 refine extractLsb'_above (by decide) ?_
    exact BitVec.extractLsb'_append_eq_right
  · iterate 5 refine extractLsb'_above (by decide) ?_
    exact BitVec.extractLsb'_append_eq_right
  · iterate 7 refine extractLsb'_above (by decide) ?_
    exact BitVec.extractLsb'_eq_self

end

/-- Settles O48: the accessors of a tuple with that line word are the fields above. -/
theorem lineWordHoldsItsMembers : Obligations.LineWordHoldsItsMembers := by
  intro c t line
  simp only [Tuple.dataBits, Tuple.stopBits, Tuple.parity, Tuple.rts, Tuple.dtr, line]
  exact ⟨c.line_data, c.line_stop, c.line_parity, c.line_rts, c.line_dtr, c.line_reserved⟩

end Sys2Proof.Machine
end

section
/-! What the host reads of the results, and while a command runs (R23, R41, R48). -/

namespace Sys2Proof.Machine

theorem readsWord_sessState_of_idle {s : State} (idle : s.busy = false) {v : SessState} (state : s.direct.state = v) :
    ReadsWord 0x020 s (v.code.setWidth 32) := by
  rw [readsWord_sessState, if_neg (Bool.eq_false_iff.mp idle), state]

/-- A command that is still running shows the `STATE` it was issued at, and the size of the table as it was. -/
theorem StillRunning.reads {s u : State} (running : StillRunning s u) (v : Word) :
    (ReadsWord 0x020 u v ↔ s.host.shown.code.setWidth 32 = v) ∧
    (s.regSize < 2 ^ 32 →
      (ReadsWord 0x024 u v ↔ (if s.params.hasRegistry = false then 0 else BitVec.ofNat 32 s.regSize) = v)) := by
  refine ⟨?_, fun small => ?_⟩
  · rw [readsWord_sessState, if_pos running.busy, running.host]
  · rw [readsWord_regSize (running.regSize ▸ small), running.regSize, running.params]

theorem runWord_stillRunning {s u : State} {w : Word} (h : runWord w s = .next u) (busy : u.busy = true) :
    StillRunning (s.issue w) u := by
  cases decoded : decode w with
  | command i =>
    rw [runWord_of_command decoded] at h
    exact (exec_ends h).stillRunning busy
  | illegalOpcode op =>
    rw [runWord_of_illegalOpcode decoded] at h
    cases h
    cases busy

/-- The codes of `STATE` tell `Configured` from the others (R23). -/
theorem SessState.code_setWidth_eq_one_iff (v : SessState) : v.code.setWidth 32 = (1 : Word) ↔ v = .configured := by
  cases v <;> decide

theorem State.Inv.not_reads_configured {s : State} (inv : s.Inv) : ¬ ReadsWord 0x020 s 1 := by
  rw [readsWord_sessState, SessState.code_setWidth_eq_one_iff]
  cases busy : s.busy with
  | false => exact inv.settled_of_idle busy .direct
  | true => exact inv.shownSettled busy

/-- Settles O49: the reads while idle, those while a command runs, and the invariant. -/
theorem resultRegistersAreReadable : Obligations.ResultRegistersAreReadable := by
  refine ⟨fun s idle => ?_, fun s u w v idle ran busy => ?_, fun s u v busy ran still => ?_,
    fun s inv => inv.not_reads_configured⟩
  · have notBusy := Bool.eq_false_iff.mp idle
    refine ⟨readsWord_of_place (r := .cmd) rfl rfl, readsWord_of_place (r := .resLen) rfl (if_neg notBusy),
      readsWord_of_place (r := .resHandle) rfl (if_neg notBusy), readsWord_sessState_of_idle idle,
      readsWord_sessState_of_idle idle, readsWord_sessState_of_idle idle, readsWord_sessState_of_idle idle,
      fun absent => readsWord_of_place (r := .regSize) rfl (if_pos absent), fun table small => ?_⟩
    rw [readsWord_regSize small, table]
    rfl
  · rw [hostAct_write32_cmd, if_neg (Bool.eq_false_iff.mp idle)] at ran
    obtain ⟨state, size⟩ := (runWord_stillRunning ran busy).reads v
    refine ⟨?_, fun small => (size small).trans (readsWord_regSize small v).symm⟩
    rw [state, readsWord_sessState, if_neg (Bool.eq_false_iff.mp idle)]
    rfl
  · obtain ⟨state, size⟩ := (resume_stillRunning ran still).reads v
    refine ⟨?_, fun small => (size small).trans (readsWord_regSize small v).symm⟩
    rw [state, readsWord_sessState, if_pos busy]

end Sys2Proof.Machine
end

section
/-! SENDCMD, FLUSH and the first test of every exchange (R120, R128, R113, R130). -/

namespace Sys2Proof.Machine

/-! ## A Session that is not open -/

section
variable {k : SessId} {s : State} (notOpened : (s.session k).state ≠ .opened)
include notOpened

theorem sendCommand_of_not_opened (n : Nat) : sendCommand k n s = .fail .notConnected s := if_pos notOpened

theorem readResponse_of_not_opened (cap timeout : Nat) : readResponse k cap timeout s = .fail .notConnected s :=
  if_pos notOpened

theorem flushSession_of_not_opened : flushSession k s = .fail .notConnected s := if_pos notOpened

end

/-- Settles O27: each of the three functions tests the `STATE` first. -/
theorem exchangeNeedsAnOpenSession : Obligations.ExchangeNeedsAnOpenSession := by
  intro s k i addr notOpened hi
  obtain hi | hi | hi :
      (i = .sendcmd ∨ i = .rwrite) ∨ (i = .readrsp ∨ i = .rread) ∨ (i = .flush ∨ i = .rflush) := by
    tauto
  · rw [exec_send_of addr hi, sendCommand_of_not_opened notOpened]
    rfl
  · rw [exec_read_of addr hi, readResponse_of_not_opened notOpened]
    rfl
  · rw [exec_flush_of addr hi, flushSession_of_not_opened notOpened]
    rfl

/-! ## SendCommand -/

theorem sendCommand_of_too_large {k : SessId} {n : Nat} {s : State} (isOpened : (s.session k).state = .opened)
    (large : Config.maxFrame < n + 3) : sendCommand k n s = .fail .payloadTooLarge s := by
  rw [sendCommand, if_neg (not_not_intro isOpened), if_pos large]

/-- Settles O26: the size is tested right after the `STATE`. -/
theorem oversizedPayloadIsNotSent : Obligations.OversizedPayloadIsNotSent := by
  intro s k i addr hi isOpened large
  rw [exec_send_of addr hi, sendCommand_of_too_large isOpened large]
  rfl

theorem State.txBytes_loadTx (s : State) (f : List Byte) : (s.loadTx f).txBytes = f :=
  Memory.readBytes_writeBytes _ _ _

/-- The state once turn `t` has answered the `T.write` of the frame `f` on Session `k` (R120 steps 3 and 4). -/
def State.sentIn (k : SessId) (f : List Byte) (t : Turn) (rest : List Turn) (s : State) : State :=
  (((s.loadTx f).beginTurn k t rest).elapse t.lasts).endCall k (.write f t.count)
    { (s.session k).transport.world t with
      unsent := ((s.session k).transport.world t).unsent ++ f.take (accepted t f.length) }

/-- SendCommand ends by the count that its one write returns (R120 step 5). -/
theorem sendCommand_finish_of_ready {k : SessId} {n : Nat} {s : State} {t : Turn} {rest : List Turn}
    (isOpened : (s.session k).state = .opened) (fits : n + 3 ≤ Config.maxFrame) (ht : s.world.turns = t :: rest)
    (hr : t.ready = true) :
    (sendCommand k n s).finish = (s.sentIn k (frameOf (s.dinBytes n)) t rest).raise
      (if t.count = ((n + 3 : Nat) : Int) then .none else .writeIncomplete) := by
  have answered := callWrite_ready (k := k) (s := s.loadTx (frameOf (s.dinBytes n))) (frameOf (s.dinBytes n)) ht hr
  rw [State.session_loadTx] at answered
  have txLen : (s.sentIn k (frameOf (s.dinBytes n)) t rest).scratch.txLen = n + 3 := by
    simp [State.sentIn, State.dinBytes]
  rw [sendCommand, if_neg (not_not_intro isOpened), if_neg (Nat.not_lt.mpr fits)]
  dsimp only
  rw [State.txBytes_loadTx, answered, Run.bind_ok]
  change (if t.count ≠ ((s.sentIn k (frameOf (s.dinBytes n)) t rest).scratch.txLen : Int) then _ else _ :
    Run Unit).finish = _
  rw [txLen]
  by_cases whole : t.count = ((n + 3 : Nat) : Int)
  · rw [if_neg (not_not_intro whole), if_pos whole]
    rfl
  · rw [if_pos whole, if_neg whole]
    rfl

/-- Settles O24: the command ends in `State.sentIn`; what is left alone is the frame of SendCommand. -/
theorem sendWritesTheFrameOnce : Obligations.SendWritesTheFrameOnce := by
  intro s k i t rest addr hi isOpened fits ht hr
  have keeps := sendCommand_keeps k s.len s
  have ended := sendCommand_finish_of_ready isOpened fits ht hr
  obtain ⟨alone, mem⟩ := keeps.finish (by rw [ended]; rfl)
  rw [ended] at alone mem
  exact ⟨_, (exec_send_of addr hi).trans (congrArg _ ended), Completed.raise _ _,
    by simp [Calls, State.sentIn, frameOf, Config.stx, Config.etx],
    by simp [State.sentIn], by simpa [State.sentIn] using isOpened, by simp [State.sentIn], alone, mem,
    by simp [State.sentIn], by simp [State.sentIn], by simp [State.sentIn]⟩

theorem accepted_of_count {t : Turn} {n len : Nat} (count : t.count = (n : Int)) (le : n ≤ len) : accepted t len = n := by
  rw [accepted, count, if_pos ⟨by omega, by omega⟩, Int.toNat_natCast]

/-- The bytes that leave during the turn stay in the transmit stream (R33, R113). -/
theorem Transport.stream_world (t : Turn) (x : Transport) :
    (x.world t).wire ++ (x.world t).unsent = x.wire ++ x.unsent := by
  simp [Transport.world]

/-- Settles O25: in `State.sentIn` the accepted bytes stand behind those of the turn, which moves none out of the stream. -/
theorem writeAppendsTheCountedBytes : Obligations.WriteAppendsTheCountedBytes := by
  intro s k i t rest n u addr hi isOpened fits ht hr count le ran
  have ended := sendCommand_finish_of_ready isOpened fits ht hr
  cases ((exec_send_of addr hi).trans (congrArg _ ended)).symm.trans ran
  have length : n ≤ (frameOf (s.dinBytes s.len)).length := by
    rwa [length_frameOf, State.dinBytes, Memory.length_readBytes]
  have stream := Transport.stream_world t (s.session k).transport
  simp only [State.sentIn, State.session_raise, State.session_endCall_self, accepted_of_count count length]
  rw [← List.append_assoc, stream]
  rfl

/-! ## Flush -/

theorem flushSession_of_ready {k : SessId} {s : State} {t : Turn} {rest : List Turn}
    (isOpened : (s.session k).state = .opened) (ht : s.world.turns = t :: rest) (hr : t.ready = true) :
    flushSession k s =
      .ok () (((s.beginTurn k t rest).elapse t.lasts).endCall k .flush
        (((s.session k).transport.world t).discard t.dropTx t.dropRx)) := by
  rw [flushSession, if_neg (not_not_intro isOpened), callFlush_ready ht hr]

/-- Settles O35: what a flush discards is in the Transport's queues, which the statement leaves open (U3). -/
theorem flushCallsTheTransportOnce : Obligations.FlushCallsTheTransportOnce := by
  intro s k i t rest addr hi isOpened ht hr
  have keeps := flushSession_keeps k s
  rw [exec_flush_of addr hi]
  rw [flushSession_of_ready isOpened ht hr] at keeps ⊢
  obtain ⟨alone, mem⟩ := keeps.finish rfl
  exact ⟨_, rfl, Completed.done _ (by decide), by simp [Calls], by simp, by simpa using isOpened, by simp,
    by simp [Transport.discard, Transport.world], alone, mem, by simp⟩

end Sys2Proof.Machine
end

section
/-! RCREATE and RDEINIT on the table (R143, R149, R151). -/

namespace Sys2Proof.Machine

/-- A function of a slot's Session that leaves the host's side and the scratch state changes only `BUSY`, the slots and the
environment. -/
theorem Within.eq_of_slot {h : Nat} {s v : State} (w : Within (.slot h) s v) (host : v.host = s.host)
    (scratch : v.scratch = s.scratch) : ∃ b l x, v = { s with busy := b, slots := l, world := x } := by
  have direct : v.direct = s.direct := w.others .direct nofun
  obtain ⟨params, cmd, fail, err, ops, resLen, resHandle, mem, regSize, -, -, -, -⟩ := w
  refine ⟨v.busy, v.slots, v.world, ?_⟩
  cases v
  cases s
  simp_all

theorem toInt_ofNat_of_lt {h : Nat} (lt : h < 2 ^ 31) : (BitVec.ofNat 32 h).toInt = h := by
  rw [BitVec.toInt_eq_toNat_of_lt (by rw [BitVec.toNat_ofNat]; omega), BitVec.toNat_ofNat, Nat.mod_eq_of_lt (by omega)]

/-- The two ends of RCREATE on a free slot whose Connect follows a row of R130. -/
theorem rcreate_cases {s : State} {h : Nat} {r : ConnectRow}
    (row : connectRow (s.session (.slot h)).state s.tuple s.world.turns = some r) :
    ∃ v, Within (.slot h) s v ∧ v.host = s.host ∧ r.Describes (.slot h) s.tuple s (v.raise r.result) ∧
      ((r.result = .none ∧ finishCreate h (connect (.slot h) s.tuple s) = (v.occupy h).done 0) ∨
        (r.result ≠ .none ∧ finishCreate h (connect (.slot h) s.tuple s) = v.noHandle.raise r.result)) := by
  have describes := connect_describes row
  have keeps := connect_keeps (.slot h) s.tuple s
  have fails := connect_failsIn (.slot h) s.tuple s
  cases e : connect (.slot h) s.tuple s with
  | ok _ v =>
    rw [e] at describes keeps
    have result : Failure.none = r.result := describes.completed.fail
    exact ⟨v, keeps.1, keeps.2.1, result ▸ describes, .inl ⟨result.symm, rfl⟩⟩
  | fail f v =>
    rw [e] at describes keeps fails
    obtain rfl : f = r.result := describes.completed.fail
    refine ⟨v, keeps.1, keeps.2.1, describes, .inr ⟨fun none => ?_, rfl⟩⟩
    rw [Run.FailsIn, none] at fails
    exact absurd fails (by decide)
  | waits v =>
    rw [e] at describes keeps
    cases keeps.2.1.symm.trans describes.completed.notBusy

/-- Settles O38: the row describes the Session of the slot; beside it stand the table and `RES_HANDLE`. -/
theorem rcreateStoresInTheFreeSlot : Obligations.RcreateStoresInTheFreeSlot := by
  intro s h r table free lt row
  obtain ⟨v, within, host, d, ends⟩ := rcreate_cases row
  have others : ∀ j, j ≠ h → slotAt v.slots j = slotAt s.slots j := fun j => within.slotAt_eq
  have occ := within.occ h
  have after := d.after
  have acfg := d.acfg
  rw [State.session_raise] at after acfg
  obtain ⟨calls, turns⟩ : Calls (.slot h) s v r.calls ∧ v.world.turns = r.turns := ⟨d.calls, d.turns⟩
  obtain ⟨b, l, x, rfl⟩ := within.eq_of_slot host d.scratch
  rw [exec_rcreate_of table free]
  obtain ⟨result, e⟩ | ⟨result, e⟩ := ends
  · have session := State.session_occupy { s with busy := b, slots := l, world := x } h (.slot h)
    rw [State.occupy_of_lt _ lt] at e session
    rw [e]
    refine ⟨_, rfl, result ▸ Completed.done _ (by decide), calls, turns, ?_, fun valid => ?_, fun _ => ⟨?_, ?_, rfl⟩,
      fun failed => absurd result failed, fun j other => ?_, rfl⟩
    · rw [State.session_done, session]
      exact after
    · rw [State.session_done, session, acfg, if_pos valid]
    · exact toInt_ofNat_of_lt lt
    · exact congrArg Slot.occ (slotAt_putSlot_self _ _ _)
    · exact (slotAt_putSlot_ne _ other).trans (others j other)
  · rw [e]
    refine ⟨_, rfl, Completed.raise _ _, calls, turns, ?_, fun valid => ?_, fun none => absurd none result,
      fun _ => ⟨(by decide : (0xFFFFFFFF#32).toInt = -1), rfl, occ⟩, others, rfl⟩
    · rw [State.session_raise, State.session_noHandle]
      exact after
    · rw [State.session_raise, State.session_noHandle, acfg, if_pos valid]

/-! ## RDEINIT -/

theorem State.validHandle_of_empty {s : State} {h : Word} (isEmpty : (slotAt s.slots h.toNat).occ = false) :
    s.validHandle h = false := by
  rw [State.validHandle, isEmpty, Bool.and_false]

/-- RDEINIT completes on the Session that Disconnect leaves, after one close if it was open (R126, R149). -/
theorem disconnect_answered {k : SessId} {s : State} {t : Turn} {rest : List Turn}
    (answered : (s.session k).state = .opened → s.world.turns = t :: rest ∧ t.ready = true) :
    ∃ v, disconnect k s = .ok () v ∧ v.scratch = s.scratch ∧
      Calls k s v (if (s.session k).state = .opened then [.closePort] else []) := by
  by_cases isOpened : (s.session k).state = .opened
  · obtain ⟨ht, hr⟩ := answered isOpened
    exact ⟨_, disconnect_of_opened isOpened ht hr, by simp, by simp [Calls, isOpened]⟩
  · exact ⟨s, disconnect_of_not_opened isOpened, rfl, by simp [Calls, isOpened]⟩

/-- Settles O41: `State.slotAt_vacate` reads the table after it. -/
theorem rdeinitEmptiesTheSlot : Obligations.RdeinitEmptiesTheSlot := by
  intro s h t rest addr answered
  obtain ⟨v, e, scratch, calls⟩ := disconnect_answered answered
  have keeps := disconnect_keeps (.slot h) s
  rw [exec_rdeinit_of addr]
  rw [e] at keeps ⊢
  obtain ⟨within, host, -⟩ := keeps
  have handle : h = s.ops.argHandle.toNat := SessId.slot.inj addr.2.2
  have isEmpty : (slotAt (v.vacate h).slots h).occ = false := by rw [State.slotAt_vacate, if_pos rfl]
  have others : ∀ j, j ≠ h → slotAt (v.vacate h).slots j = slotAt s.slots j := fun j other => by
    rw [State.slotAt_vacate, if_neg other, within.slotAt_eq other]
  refine ⟨_, rfl, Completed.done _ (by decide), calls, ?_, isEmpty, ?_, others, ?_⟩
  · exact congrArg Session.state ((State.session_done _ _ _).trans (v.session_vacate_self h))
  · refine State.validHandle_of_empty ?_
    change (slotAt (v.vacate h).slots v.ops.argHandle.toNat).occ = false
    rw [within.ops, ← handle, isEmpty]
  · obtain ⟨b, l, x, rfl⟩ := within.eq_of_slot host scratch
    rfl

/-! ## A freed handle -/

/-- What a valid handle is as a slot number (R141): it is not negative, so its two readings agree. -/
theorem State.lt_of_validHandle {s : State} {w : Word} (valid : s.validHandle w = true) :
    w.toNat < s.regSize ∧ w.toNat < 2 ^ 31 := by
  obtain ⟨nonneg, below, -⟩ := (validHandleIsAnOccupiedSlot s w).mp valid
  have sign := BitVec.toInt_eq_toNat_cond w
  have bound := w.isLt
  split at sign <;> omega

/-- After RDEINIT of a slot below which none is empty, that slot is the free one (R142). -/
theorem State.freeSlot_vacate {v : State} {h : Nat} (below : h < v.regSize)
    (occupied : ∀ j, j < h → (slotAt v.slots j).occ = true) : (v.vacate h).freeSlot = some h := by
  refine State.freeSlot_of_least_empty below (by rw [State.slotAt_vacate, if_pos rfl]) fun j lt => ?_
  rw [State.slotAt_vacate, if_neg (by omega)]
  exact occupied j lt

/-- A RCREATE that succeeds on a slot below the end of the table. -/
theorem rcreate_success {u v : State} {h : Nat} (table : u.params.hasRegistry = true) (free : u.freeSlot = some h)
    (below : h < u.regSize) (lt : h < 2 ^ 31) (ran : exec .rcreate u = .next v) (ended : v.busy = false)
    (success : v.fail = .none) : v.resHandle = BitVec.ofNat 32 h ∧ v.regSize = u.regSize := by
  cases (exec_rcreate_of table free).symm.trans ran
  have keeps := connect_keeps (.slot h) u.tuple u
  have fails := connect_failsIn (.slot h) u.tuple u
  cases e : connect (.slot h) u.tuple u with
  | ok _ w =>
    rw [e] at keeps
    have size := keeps.1.regSize
    rw [finishCreate, State.occupy_of_lt w lt]
    exact ⟨rfl, (if_neg (by omega)).trans size⟩
  | fail f w =>
    rw [e] at fails success
    rw [Run.FailsIn, show f = .none from success] at fails
    exact absurd fails (by decide)
  | waits w =>
    rw [e] at keeps ended
    cases keeps.2.1.symm.trans ended

/-- Settles O42: RDEINIT makes its slot the free one, which lies below the end of the table. -/
theorem freedHandleIsReused : Obligations.FreedHandleIsReused := by
  intro s u v h addr occupied ran ended ran' ended' success
  obtain ⟨table, valid, isHandle⟩ := addr
  obtain rfl := SessId.slot.inj isHandle
  obtain ⟨below, lt⟩ := State.lt_of_validHandle valid
  cases (exec_rdeinit_of ⟨table, valid, rfl⟩).symm.trans ran
  have keeps := disconnect_keeps (.slot s.ops.argHandle.toNat) s
  obtain ⟨w, e, -⟩ | ⟨w, e, -⟩ := disconnect_cases (.slot s.ops.argHandle.toNat) s
  · rw [e] at keeps ran'
    have within := keeps.1
    have free := State.freeSlot_vacate (v := w) (within.regSize ▸ below) fun j lt => within.occ_of_occ (occupied j lt)
    obtain ⟨handle, size⟩ :=
      rcreate_success (u := (w.vacate _).done 0) (within.params ▸ table) free (within.regSize ▸ below) lt
        ran' ended' success
    exact ⟨handle.trans (by simp), size.trans within.regSize⟩
  · rw [e] at keeps ended
    cases keeps.2.1.symm.trans ended

end Sys2Proof.Machine
end

section
/-! The clock (R116), and the reads of a ReadResponse that turns answer one after another (R122). -/

namespace Sys2Proof.Machine

/-! ## The clock -/

theorem elapsed_add (t0 now : Time) (ms : Nat) :
    elapsed t0 (now + BitVec.ofNat Config.timerW ms) = (elapsed t0 now + ms) % 2 ^ Config.timerW := by
  have later : now + BitVec.ofNat Config.timerW ms - t0 = (now - t0) + BitVec.ofNat Config.timerW ms := by
    rw [BitVec.sub_eq_add_neg, BitVec.sub_eq_add_neg, BitVec.add_assoc, BitVec.add_assoc,
      BitVec.add_comm (-t0)]
  rw [elapsed, later, BitVec.toNat_add, BitVec.toNat_ofNat, Nat.add_mod_mod, elapsed]

theorem elapsed_add_of_lt {t0 now : Time} {ms : Nat} (small : elapsed t0 now + ms < 2 ^ Config.timerW) :
    elapsed t0 (now + BitVec.ofNat Config.timerW ms) = elapsed t0 now + ms := by
  rw [elapsed_add, Nat.mod_eq_of_lt small]

@[simp] theorem elapsed_self (t : Time) : elapsed t t = 0 := by simp [elapsed]

theorem State.timeoutMs_lt (s : State) : s.timeoutMs < 2 ^ Config.timerW := s.ops.argTimeout.isLt

theorem State.lead_le (s : State) : s.lead ≤ 1 := by
  unfold State.lead
  split <;> omega

theorem one_le_chunkTimeoutMs (p : Params) : 1 ≤ p.chunkTimeoutMs := by
  have legal := p.isLegal
  simp only [ParamTable.legal, Bool.and_eq_true, decide_eq_true_eq] at legal
  exact legal.1.2

/-! ## Many reads -/

/-- The state after the reads that the turns `ts` answer, `more` being the turns that follow them. -/
def State.readMany (k : SessId) (more : List Turn) : List Turn → State → State
  | [], s => s
  | t :: ts, s => State.readMany k more ts (s.readOnce k t (ts ++ more))

theorem State.readMany_append (k : SessId) (more ts us : List Turn) (s : State) :
    s.readMany k more (ts ++ us) = (s.readMany k (us ++ more) ts).readMany k more us := by
  induction ts generalizing s with
  | nil => rfl
  | cons t ts ih => rw [List.cons_append, State.readMany, State.readMany, ih, List.append_assoc]

@[simp] theorem State.length_accBytes (s : State) : s.accBytes.length = s.scratch.accLen :=
  Memory.length_readBytes _ _ _

/-- What the reads answered by the turns `ts` have done from `s` to `v`, no read being half waited for in `s`. -/
structure ReadsTo (k : SessId) (ts : List Turn) (s v : State) : Prop where
  within : Within k s v
  host : v.host = s.host
  busy : v.busy = s.busy
  link : (v.session k).link = (s.session k).link
  acfg : (v.session k).acfg = (s.session k).acfg
  stream : streamAfter s.params.chunkLen ts (s.accBytes, (s.session k).transport.unread) =
    (v.accBytes, (v.session k).transport.unread)
  now : v.world.now = s.world.now + BitVec.ofNat Config.timerW (s.readTime ts)
  waited : v.world.waited = 0
  t0 : v.scratch.t0 = s.scratch.t0
  txbuf : v.scratch.txbuf = s.scratch.txbuf
  txLen : v.scratch.txLen = s.scratch.txLen
  log : ∃ calls, v.world.log = calls ++ s.world.log ∧ calls.length = ts.length ∧
    v.accBytes = s.accBytes ++ gotBytes calls

theorem ReadsTo.refl (k : SessId) {s : State} (fresh : s.world.waited = 0) : ReadsTo k [] s s where
  within := Within.refl k s
  host := rfl
  busy := rfl
  link := rfl
  acfg := rfl
  stream := rfl
  now := by simp [State.readTime]
  waited := fresh
  t0 := rfl
  txbuf := rfl
  txLen := rfl
  log := ⟨[], rfl, rfl, by simp [gotBytes]⟩

theorem State.readLasts_of_fresh {s : State} (fresh : s.world.waited = 0) (t : Turn) :
    s.readLasts t = t.time s.params.chunkTimeoutMs := by
  rw [State.readLasts, fresh, Nat.sub_zero, Turn.time]

theorem State.readTime_cons (s : State) (t : Turn) (ts : List Turn) :
    s.readTime (t :: ts) = t.time s.params.chunkTimeoutMs + s.readTime ts := rfl

theorem gotBytes_append (c d : List (SessId × Call)) : gotBytes (c ++ d) = gotBytes d ++ gotBytes c := by
  induction c with
  | nil => simp [gotBytes]
  | cons c cs ih =>
    obtain ⟨j, call⟩ := c
    cases call <;> simp [gotBytes, ih]

/-- One read in front of others. -/
theorem ReadsTo.cons {k : SessId} {t : Turn} {ts rest : List Turn} {s v : State} (fresh : s.world.waited = 0)
    (h : ReadsTo k ts (s.readOnce k t rest) v) : ReadsTo k (t :: ts) s v where
  within := (Within.readOnce k t rest s).trans h.within
  host := h.host.trans (s.readOnce_host k t rest)
  busy := h.busy.trans (s.readOnce_busy k t rest)
  link := by rw [h.link, State.readOnce_session]; rfl
  acfg := by rw [h.acfg, State.readOnce_session]
  stream := by
    rw [State.readOnce_stream rest ts rfl (by simp), ← h.stream, State.readOnce_params]
  now := by
    rw [h.now, State.readOnce_now, State.readLasts_of_fresh fresh, State.readTime_cons, BitVec.ofNat_add, BitVec.add_assoc,
      State.readTime, State.readOnce_params, State.readTime]
  waited := h.waited
  t0 := h.t0.trans (s.readOnce_t0 k t rest)
  txbuf := h.txbuf.trans (s.readOnce_txbuf k t rest)
  txLen := h.txLen.trans (s.readOnce_txLen k t rest)
  log := by
    obtain ⟨calls, log, length, bytes⟩ := h.log
    rw [State.readOnce_log] at log
    refine ⟨calls ++ [_], by rw [log, List.append_assoc, List.singleton_append], by simp [length], ?_⟩
    rw [bytes, State.readOnce_accBytes, gotBytes_append, List.append_assoc]
    simp [gotBytes]

theorem State.readMany_readsTo (k : SessId) (more ts : List Turn) {s : State} (fresh : s.world.waited = 0) :
    ReadsTo k ts s (s.readMany k more ts) := by
  induction ts generalizing s with
  | nil => exact .refl k fresh
  | cons t ts ih => exact .cons fresh (ih (s.readOnce_waited k t (ts ++ more)))

theorem State.readMany_turns {k : SessId} {more ts : List Turn} {s : State} (h : s.world.turns = ts ++ more) :
    (s.readMany k more ts).world.turns = more := by
  induction ts generalizing s with
  | nil => exact h
  | cons t ts ih => exact ih (s.readOnce_turns k t (ts ++ more))

/-! ## The loop over turns that are ready -/

/-- ReadResponse goes on after a read while the bytes hold no complete frame, ACC is not full and the time has not run
out. -/
theorem readEnd_eq_none {cap timeout : Nat} {s : State} (incomplete : scan s.accBytes = none)
    (room : s.scratch.accLen < Config.accCap) (inTime : elapsed s.scratch.t0 s.world.now ≤ timeout) :
    readEnd cap timeout s = none := by
  rw [readEnd, (received_eq_none_iff _ _).mpr incomplete]
  simp only [if_neg room.ne, if_neg (Nat.not_lt.mpr inTime)]

theorem scan_eq_none_of_append {p q : List Byte} (h : scan (p ++ q) = none) : scan p = none := by
  cases complete : scan p with
  | none => rfl
  | some ij => cases h.symm.trans (scan_append complete q)

/-- If the bytes, the room and the time allow the loop to go on after the last of some reads, they did before. -/
theorem readLoop_append {k : SessId} {cap timeout : Nat} {ts more : List Turn} {s : State} (fresh : s.world.waited = 0)
    (ready : ∀ t ∈ ts, t.ready = true) (small : timeout < 2 ^ Config.timerW)
    (incomplete : scan (s.readMany k more ts).accBytes = none)
    (room : (s.readMany k more ts).scratch.accLen < Config.accCap)
    (inTime : elapsed s.scratch.t0 s.world.now + s.readTime ts ≤ timeout) :
    readLoop k cap timeout (ts ++ more) s = readLoop k cap timeout more (s.readMany k more ts) := by
  induction ts generalizing s with
  | nil => rfl
  | cons t ts ih =>
    rw [State.readTime_cons] at inTime
    have next := s.readOnce_waited k t (ts ++ more)
    obtain ⟨calls, -, -, bytes⟩ := (State.readMany_readsTo k more ts next).log
    have grown := congrArg List.length bytes
    rw [State.length_accBytes, List.length_append, State.length_accBytes] at grown
    have time : elapsed (s.readOnce k t (ts ++ more)).scratch.t0 (s.readOnce k t (ts ++ more)).world.now =
        elapsed s.scratch.t0 s.world.now + t.time s.params.chunkTimeoutMs := by
      rw [State.readOnce_t0, State.readOnce_now, State.readLasts_of_fresh fresh, elapsed_add_of_lt (by omega)]
    have goesOn : readEnd cap timeout (s.readOnce k t (ts ++ more)) = none :=
      readEnd_eq_none (scan_eq_none_of_append (bytes ▸ incomplete)) (by rw [State.readMany] at room; omega)
        (by omega)
    rw [List.cons_append, readLoop_ready _ _ _ _ _ (ready t List.mem_cons_self), goesOn]
    refine ih next (fun t' h => ready t' (List.mem_cons_of_mem t h)) incomplete room ?_
    rw [time, State.readTime, State.readOnce_params]
    exact (Nat.add_assoc _ _ _).trans_le inTime

end Sys2Proof.Machine
end

section
/-! READRSP and RREAD by the turns that answer their reads (R122 to R124, R170): the bytes received, the last read, and what
it ends in. -/

namespace Sys2Proof.Machine

/-- The state of a ReadResponse on Session `k` after the reads that the turns `ts` answer. -/
def State.readFrom (k : SessId) (more ts : List Turn) (s : State) : State := s.beginRead.readMany k more ts

/-- What the reads of a ReadResponse on Session `k`, answered by the turns `ts`, have done from its issue in `s` to `v`. -/
structure Received (k : SessId) (ts : List Turn) (s v : State) : Prop where
  within : Within k s v
  host : v.host = s.host
  link : (v.session k).link = (s.session k).link
  acfg : (v.session k).acfg = (s.session k).acfg
  bytes : v.accBytes = (s.receives k ts).1
  unread : (v.session k).transport.unread = (s.receives k ts).2
  now : v.world.now = s.world.now + BitVec.ofNat Config.timerW (s.lead + s.readTime ts)
  waited : v.world.waited = 0
  t0 : v.scratch.t0 = s.world.now
  txbuf : v.scratch.txbuf = s.scratch.txbuf
  txLen : v.scratch.txLen = s.scratch.txLen
  log : ∃ calls, v.world.log = calls ++ s.world.log ∧ calls.length = ts.length ∧ gotBytes calls = (s.receives k ts).1

@[simp] theorem State.accBytes_beginRead (s : State) : s.beginRead.accBytes = [] := rfl

theorem State.readFrom_received (k : SessId) (more ts : List Turn) (s : State) :
    Received k ts s (s.readFrom k more ts) := by
  have reads := State.readMany_readsTo k more ts (s := s.beginRead) rfl
  have stream : s.receives k ts = _ := reads.stream
  have bytes := (congrArg Prod.fst stream).symm
  obtain ⟨calls, log, length, got⟩ := reads.log
  exact {
    within := (Within.beginRead k s).trans reads.within
    host := reads.host
    link := reads.link.trans (congrArg Session.link (s.session_beginRead k))
    acfg := reads.acfg.trans (congrArg Session.acfg (s.session_beginRead k))
    bytes := bytes
    unread := (congrArg Prod.snd stream).symm
    now := by
      rw [State.readFrom, reads.now, State.beginRead_world, BitVec.ofNat_add, BitVec.add_assoc]
      rfl
    waited := reads.waited
    t0 := reads.t0
    txbuf := reads.txbuf
    txLen := reads.txLen
    log := ⟨calls, log, length, got.symm.trans bytes⟩ }

theorem Received.length_bytes {k : SessId} {ts : List Turn} {s v : State} (h : Received k ts s v) :
    v.scratch.accLen = (s.receives k ts).1.length := by
  rw [← h.bytes, State.length_accBytes]

theorem elapsed_beginRead (s : State) : elapsed s.beginRead.scratch.t0 s.beginRead.world.now = s.lead := by
  have lead := s.lead_le
  change elapsed s.world.now (s.world.now + BitVec.ofNat Config.timerW s.lead) = s.lead
  rw [elapsed_add_of_lt] <;> simp only [elapsed_self, Config.timerW] <;> omega

theorem Received.elapsed {k : SessId} {ts : List Turn} {s v : State} (h : Received k ts s v)
    (small : s.lead + s.readTime ts < 2 ^ Config.timerW) :
    elapsed v.scratch.t0 v.world.now = s.lead + s.readTime ts := by
  rw [h.t0, h.now, elapsed_add_of_lt (by rwa [elapsed_self, Nat.zero_add]), elapsed_self, Nat.zero_add]

theorem State.readFrom_turns {k : SessId} {more ts : List Turn} {s : State} (h : s.world.turns = ts ++ more) :
    (s.readFrom k more ts).world.turns = more :=
  State.readMany_turns (s := s.beginRead) h

section
variable {k : SessId} {cap timeout : Nat} {ts : List Turn} {s : State}

/-- The first test is passed, when the clock has not moved past the timeout (R122 lines 5 and 6). -/
theorem readResponse_of_opened (isOpened : (s.session k).state = .opened) (begun : s.lead ≤ timeout) :
    readResponse k cap timeout s = readLoop k cap timeout s.world.turns s.beginRead := by
  rw [readResponse, if_neg (not_not_intro isOpened)]
  dsimp only
  rw [elapsed_beginRead, if_neg (Nat.not_lt.mpr begun)]
  rfl

theorem readResponse_of_late (isOpened : (s.session k).state = .opened) (late : timeout < s.lead) :
    readResponse k cap timeout s = .fail .timeout s.beginRead := by
  rw [readResponse, if_neg (not_not_intro isOpened)]
  dsimp only
  rw [elapsed_beginRead, if_pos late]

/-- ReadResponse is in its loop after the reads of `ts`, if these leave it incomplete, with room, and in time. -/
theorem readResponse_after_reads {more : List Turn} (isOpened : (s.session k).state = .opened)
    (turns : s.world.turns = ts ++ more) (ready : ∀ t ∈ ts, t.ready = true) (small : timeout < 2 ^ Config.timerW)
    (incomplete : scan (s.receives k ts).1 = none) (room : (s.receives k ts).1.length < Config.accCap)
    (inTime : s.lead + s.readTime ts ≤ timeout) :
    readResponse k cap timeout s = readLoop k cap timeout more (s.readFrom k more ts) := by
  have received := s.readFrom_received k more ts
  rw [readResponse_of_opened isOpened (by omega), turns]
  refine readLoop_append rfl ready small ?_ ?_ ?_
  · exact (congrArg scan received.bytes).trans incomplete
  · exact received.length_bytes.trans_lt room
  · rw [elapsed_beginRead]
    exact inTime

/-- The read after those of `ts`, if it ends ReadResponse. -/
theorem readResponse_of_last {last : Turn} {rest : List Turn} {e : Except Failure (List Byte)}
    (isOpened : (s.session k).state = .opened) (turns : s.world.turns = ts ++ last :: rest)
    (ready : ∀ t ∈ ts ++ [last], t.ready = true) (small : timeout < 2 ^ Config.timerW)
    (incomplete : scan (s.receives k ts).1 = none) (room : (s.receives k ts).1.length < Config.accCap)
    (inTime : s.lead + s.readTime ts ≤ timeout)
    (ends : readEnd cap timeout (s.readFrom k rest (ts ++ [last])) = some e) (goOn : Run (List Byte)) :
    readResponse k cap timeout s = endRead (some e) (s.readFrom k rest (ts ++ [last])) goOn := by
  have lastRead : s.readFrom k rest (ts ++ [last]) = (s.readFrom k (last :: rest) ts).readOnce k last rest :=
    State.readMany_append k rest ts [last] s.beginRead
  rw [readResponse_after_reads isOpened turns (fun t h => ready t (List.mem_append_left _ h)) small incomplete room inTime,
    readLoop_ready _ _ _ _ _ (ready last (by simp)), ← lastRead, ends]
  cases e <;> rfl

end

/-! ## The end of a read -/

section
variable {cap timeout : Nat} {s : State}

theorem received_of_ok {a r : List Byte} {i j : Nat} (complete : scan a = some (i, j)) (decoded : decodeFrame a = .ok r) :
    received a cap = some (.ok (r.take (min cap Config.doutCap))) := by
  simp only [received, complete, decoded, truncate]

theorem received_of_error {a : List Byte} {i j : Nat} {c : Failure} (complete : scan a = some (i, j))
    (decoded : decodeFrame a = .error c) :
    received a cap = some (.error (if c = .checksumMismatch then .checksumMismatch else .malformed)) := by
  simp only [received, complete, decoded]
  cases c <;> rfl

theorem readEnd_of_received {e : Except Failure (List Byte)} (h : received s.accBytes cap = some e) :
    readEnd cap timeout s = some e := by
  rw [readEnd, h]

theorem readEnd_of_full (incomplete : scan s.accBytes = none) (full : s.scratch.accLen = Config.accCap) :
    readEnd cap timeout s = some (.error .malformed) := by
  rw [readEnd, (received_eq_none_iff _ _).mpr incomplete]
  exact if_pos full

theorem readEnd_of_late (incomplete : scan s.accBytes = none) (room : s.scratch.accLen < Config.accCap)
    (late : timeout < elapsed s.scratch.t0 s.world.now) : readEnd cap timeout s = some (.error .timeout) := by
  rw [readEnd, (received_eq_none_iff _ _).mpr incomplete]
  exact (if_neg room.ne).trans (if_pos late)

end

/-! ## A failure after the last read -/

section
variable {s : State} {k : SessId} {i : Instr} {ts rest : List Turn} {last : Turn}

section
variable (addr : Addresses i s k) (hi : i = .readrsp ∨ i = .rread) (isOpened : (s.session k).state = .opened)
  (turns : s.world.turns = ts ++ last :: rest) (ready : ∀ t ∈ ts ++ [last], t.ready = true)
  (incomplete : scan (s.receives k ts).1 = none) (room : (s.receives k ts).1.length < Config.accCap)
  (inTime : s.lead + s.readTime ts ≤ s.timeoutMs) {f : Failure}
  (ends : readEnd s.cap s.timeoutMs (s.readFrom k rest (ts ++ [last])) = some (.error f))
include addr hi isOpened turns ready incomplete room inTime ends

theorem exec_read_of_failing_last : exec i s = .next ((s.readFrom k rest (ts ++ [last])).raise f) := by
  rw [exec_read_of addr hi,
    readResponse_of_last isOpened turns ready s.timeoutMs_lt incomplete room inTime ends (.waits s)]
  rfl

/-- READRSP and RREAD fail at once after the read that shows why, and no byte of the result is written; all that the reads
did stands (R170). -/
theorem exec_read_fails_after_last :
    ∃ u calls, exec i s = .next u ∧ Completed u f 0 ∧ u.mem = s.mem ∧
      u.world.log = calls ++ s.world.log ∧ calls.length = ts.length + 1 ∧
      gotBytes calls = (s.receives k (ts ++ [last])).1 ∧
      (u.session k).transport.unread = (s.receives k (ts ++ [last])).2 ∧ u.world.turns = rest ∧
      u.world.now = s.world.now + BitVec.ofNat 32 (s.lead + s.readTime (ts ++ [last])) ∧
      (u.session k).state = .opened ∧ (u.session k).acfg = (s.session k).acfg ∧ LeavesAlone k s u ∧
      u.scratch.txbuf = s.scratch.txbuf ∧ u.scratch.txLen = s.scratch.txLen := by
  have r := s.readFrom_received k rest (ts ++ [last])
  obtain ⟨calls, log, length, got⟩ := r.log
  refine ⟨_, calls, exec_read_of_failing_last addr hi isOpened turns ready incomplete room inTime ends,
    Completed.raise _ f,
    r.within.mem, log, by rw [length, List.length_append]; rfl, got, ?_,
    State.readFrom_turns (by rw [turns, List.append_assoc]; rfl), r.now, ?_, ?_,
    (LeavesAlone.of_within r.within r.host).raise f, r.txbuf, r.txLen⟩
  all_goals rw [State.session_raise]
  · exact r.unread
  · exact (Session.state_of_link_eq r.link).trans isOpened
  · exact r.acfg

end

end

/-- Settles O33: the end after the last read, for a wrong frame and for a full ACC. -/
theorem garbageIsNotATimeout : Obligations.GarbageIsNotATimeout := by
  intro s k i c ts rest last addr hi isOpened _ turns ready incomplete room garbage inTime
  refine exec_read_fails_after_last addr hi isOpened turns ready incomplete room inTime ?_
  have r := s.readFrom_received k rest (ts ++ [last])
  obtain ⟨a, b, complete, decoded⟩ | ⟨full, incomplete', rfl⟩ := garbage
  · exact readEnd_of_received (by rw [r.bytes]; exact received_of_error complete decoded)
  · exact readEnd_of_full ((congrArg scan r.bytes).trans incomplete') (r.length_bytes.trans full)

/-! ## The receive stream -/

theorem streamAfter_append (chunk : Nat) (ts us : List Turn) (x : List Byte × List Byte) :
    streamAfter chunk (ts ++ us) x = streamAfter chunk us (streamAfter chunk ts x) := by
  induction ts generalizing x with
  | nil => rfl
  | cons t ts ih => exact ih _

/-- The bytes taken never pass the capacity of ACC (R122 line 7). -/
theorem length_streamAfter_le {chunk : Nat} {ts : List Turn} {x : List Byte × List Byte}
    (fits : x.1.length ≤ Config.accCap) :
    (streamAfter chunk ts x).1.length ≤ Config.accCap := by
  induction ts generalizing x with
  | nil => exact fits
  | cons t ts ih =>
    refine ih ?_
    rw [List.length_append, List.length_take]
    omega

theorem State.length_receives_le (s : State) (k : SessId) (ts : List Turn) :
    (s.receives k ts).1.length ≤ Config.accCap :=
  length_streamAfter_le (Nat.zero_le _)

/-- The last read appends to the bytes before it. -/
theorem State.receives_snoc (s : State) (k : SessId) (ts : List Turn) (last : Turn) :
    ∃ c, (s.receives k (ts ++ [last])).1 = (s.receives k ts).1 ++ c :=
  ⟨_, congrArg Prod.fst (streamAfter_append _ ts [last] _)⟩

/-! ## The payload, cut to the capacity -/

theorem length_take_doutCap (p : List Byte) (cap : Nat) :
    (p.take (min cap Config.doutCap)).length = min p.length (min cap Config.doutCap) := by
  rw [List.length_take, Nat.min_comm]

theorem min_doutCap_lt (n cap : Nat) : min n (min cap Config.doutCap) < 2 ^ 16 :=
  Nat.lt_of_le_of_lt ((Nat.min_le_right _ _).trans (Nat.min_le_right _ _)) (by decide)

/-! ## A frame behind noise -/

theorem scan_frame_behind_noise {noise p : List Byte} (noStx : Config.stx ∉ noise) (noEtx : Config.etx ∉ p)
    (after : List Byte) :
    scan (noise ++ frameOf p ++ after) = some (noise.length, noise.length + p.length + 1) := by
  have stx : findStx (frameOf p ++ after) = some 0 := by simp [frameOf, findStx, findByte]
  have etx : findEtx (frameOf p ++ after) 0 = some (p.length + 1) := by
    rw [frameOf_eq, findEtx, List.cons_append, List.drop_succ_cons, List.drop_zero, List.append_assoc,
      findByte_append_of_notMem noEtx]
    simp [findByte]
  rw [List.append_assoc, scan_eq_some_iff]
  refine ⟨?_, ?_, by simp; omega⟩
  · rw [findStx_noise_append noStx, stx]
    simp
  · have moved := findEtx_noise_append (frameOf p ++ after) noise 0
    rw [etx, Nat.zero_add] at moved
    rw [moved]
    simp
    omega

theorem decodeFrame_frame_behind_noise {noise p : List Byte} (noStx : Config.stx ∉ noise) (noEtx : Config.etx ∉ p)
    (nonempty : p ≠ []) (after : List Byte) : decodeFrame (noise ++ frameOf p ++ after) = .ok p := by
  have cut := decodeFrame_cut p after (bcc p) noEtx
  rw [if_neg (not_not_intro rfl), if_neg nonempty] at cut
  rw [List.append_assoc, decodeFrame_noise_append noStx, frameOf_eq]
  simpa using cut

/-- Settles O28: before the last read the frame lacks its BCC, and after it DecodeFrame gives the payload. -/
theorem readResponseReceivesAFrame : Obligations.ReadResponseReceivesAFrame := by
  intro s k i noise p after ts rest last addr hi isOpened _ nonempty noEtx noStx turns ready bytes short inTime
  have complete := scan_frame_behind_noise noStx noEtx after
  have decoded := decodeFrame_frame_behind_noise noStx noEtx (List.ne_nil_of_length_pos nonempty) after
  change (s.receives k (ts ++ [last])).1 = noise ++ frameOf p ++ after at bytes
  obtain ⟨c, appended⟩ := s.receives_snoc k ts last
  have incomplete : scan (s.receives k ts).1 = none := by
    have before := scan_take_eq_none (n := (s.receives k ts).1.length) complete (by omega)
    rwa [← bytes, appended, List.take_left'] at before
    rfl
  have room : (s.receives k ts).1.length < Config.accCap := by
    have most := s.length_receives_le k (ts ++ [last])
    rw [bytes, List.length_append, List.length_append, length_frameOf] at most
    omega
  have r := s.readFrom_received k rest (ts ++ [last])
  have ends : readEnd s.cap s.timeoutMs (s.readFrom k rest (ts ++ [last])) =
      some (.ok (p.take (min s.cap Config.doutCap))) :=
    readEnd_of_received (by rw [r.bytes, bytes]; exact received_of_ok complete decoded)
  have run := readResponse_of_last isOpened turns ready s.timeoutMs_lt incomplete room inTime ends (.waits s)
  obtain ⟨calls, log, length, got⟩ := r.log
  have resultLength := length_take_doutCap p s.cap
  obtain ⟨completed, result, outside, -⟩ :=
    (s.readFrom k rest (ts ++ [last])).done_writeDout_delivers resultLength (min_doutCap_lt _ _)
  refine ⟨_, calls, by rw [exec_read_of addr hi, run, ← resultLength]; rfl, completed, result,
    fun a h => (outside a h).trans (by rw [r.within.mem]), log, by rw [length, List.length_append]; rfl, got, ?_,
    State.readFrom_turns (by rw [turns, List.append_assoc]; rfl), r.now, ?_, ?_,
    ((LeavesAlone.of_within r.within r.host).writeDout _).done _, r.txbuf, r.txLen⟩
  all_goals rw [State.session_done, State.session_writeDout]
  · exact r.unread
  · exact (Session.state_of_link_eq r.link).trans isOpened
  · exact r.acfg

end Sys2Proof.Machine
end

section
/-! The timeouts of READRSP and RREAD (R122 lines 5 and 6, R124): at the first test, after a read, on a silent Transport,
and where a pending read is not answered. -/

namespace Sys2Proof.Machine

/-! ## At the first test, and after a read -/

/-- Nothing is read when the clock is past the timeout at the first test. -/
theorem exec_read_of_late {s : State} {k : SessId} {i : Instr} (addr : Addresses i s k) (hi : i = .readrsp ∨ i = .rread)
    (isOpened : (s.session k).state = .opened) (late : s.timeoutMs < s.lead) :
    exec i s = .next (s.beginRead.raise .timeout) := by
  rw [exec_read_of addr hi, readResponse_of_late isOpened late]
  rfl

theorem State.readTime_append (s : State) (ts us : List Turn) :
    s.readTime (ts ++ us) = s.readTime ts + s.readTime us := by
  simp [State.readTime]

theorem State.readTime_snoc_le (s : State) (ts : List Turn) (last : Turn) :
    s.readTime (ts ++ [last]) ≤ s.readTime ts + s.params.chunkTimeoutMs := by
  rw [State.readTime_append, State.readTime_cons]
  exact Nat.add_le_add_left (Nat.min_le_right _ _) _

/-- The last read began in time and has ended after it. -/
theorem readEnd_of_late_last {s : State} {k : SessId} {ts rest : List Turn} {last : Turn}
    (small : s.timeoutMs + s.params.chunkTimeoutMs < 2 ^ Config.timerW)
    (incomplete : scan (s.receives k (ts ++ [last])).1 = none)
    (room : (s.receives k (ts ++ [last])).1.length < Config.accCap) (inTime : s.lead + s.readTime ts ≤ s.timeoutMs)
    (late : s.timeoutMs < s.lead + s.readTime (ts ++ [last])) :
    readEnd s.cap s.timeoutMs (s.readFrom k rest (ts ++ [last])) = some (.error .timeout) := by
  have r := s.readFrom_received k rest (ts ++ [last])
  have lastRead := s.readTime_snoc_le ts last
  refine readEnd_of_late ((congrArg scan r.bytes).trans incomplete) (r.length_bytes.trans_lt room) ?_
  rw [r.elapsed (by omega)]
  exact late

theorem scan_receives_of_snoc {s : State} {k : SessId} {ts : List Turn} {last : Turn}
    (incomplete : scan (s.receives k (ts ++ [last])).1 = none)
    (room : (s.receives k (ts ++ [last])).1.length < Config.accCap) :
    scan (s.receives k ts).1 = none ∧ (s.receives k ts).1.length < Config.accCap := by
  obtain ⟨c, appended⟩ := s.receives_snoc k ts last
  rw [appended] at incomplete room
  rw [List.length_append] at room
  exact ⟨scan_eq_none_of_append incomplete, by omega⟩

/-! ## A silent Transport -/

section
variable {ts : List Turn}

theorem streamAfter_silent {chunk : Nat} (got : List Byte) (silent : ∀ t ∈ ts, t.arrive = []) :
    streamAfter chunk ts (got, []) = (got, []) := by
  induction ts with
  | nil => rfl
  | cons t ts ih =>
    have none : t.arrive = [] := silent t List.mem_cons_self
    simp only [streamAfter, keepBy, none, List.append_nil, List.take_nil, List.drop_nil]
    exact ih fun t' h => silent t' (List.mem_cons_of_mem t h)

theorem State.receives_silent {s : State} {k : SessId} (noneUnread : (s.session k).transport.unread = [])
    (silent : ∀ t ∈ ts, t.arrive = []) : s.receives k ts = ([], []) := by
  rw [State.receives, noneUnread]
  exact streamAfter_silent [] silent

theorem State.readTime_of_full {s : State} (full : ∀ t ∈ ts, s.params.chunkTimeoutMs ≤ t.lasts) :
    s.readTime ts = ts.length * s.params.chunkTimeoutMs := by
  induction ts with
  | nil => simp [State.readTime]
  | cons t ts ih =>
    rw [State.readTime_cons, Turn.time, Nat.min_eq_right (full t List.mem_cons_self),
      ih fun t' h => full t' (List.mem_cons_of_mem t h), List.length_cons, Nat.succ_mul, Nat.add_comm]

/-- A read that finds no byte and lasts its whole timeout. -/
theorem State.readOnce_silent {k : SessId} {s : State} {t : Turn} (rest : List Turn) (fresh : s.world.waited = 0)
    (noneUnread : (s.session k).transport.unread = []) (silent : t.arrive = [])
    (full : s.params.chunkTimeoutMs ≤ t.lasts) :
    (s.readOnce k t rest).world.log =
        (k, .read s.chunkMax s.params.chunkTimeoutMs [] s.params.chunkTimeoutMs) :: s.world.log ∧
      (s.readOnce k t rest).chunkMax = s.chunkMax ∧ ((s.readOnce k t rest).session k).transport.unread = [] := by
  have noneComing : ((s.session k).transport.world t).unread = [] := by
    simp only [Transport.world, noneUnread, silent, keepBy, List.append_nil]
  have noChunk : s.chunk k t = [] := by rw [State.chunk, readBytesOf, noneComing, List.take_nil]
  refine ⟨?_, ?_, ?_⟩
  · rw [State.readOnce_log, noChunk, State.readLasts_of_fresh fresh, fresh, Turn.time, Nat.min_eq_right full, Nat.zero_add]
  · rw [State.chunkMax, State.chunkMax, State.readOnce_params, State.readOnce_accLen, noChunk, List.length_nil, Nat.add_zero]
  · rw [State.readOnce_session, noneComing, List.drop_nil]

theorem State.log_readMany_silent {k : SessId} {more : List Turn} {s : State} (fresh : s.world.waited = 0)
    (noneUnread : (s.session k).transport.unread = [])
    (silent : ∀ t ∈ ts, t.arrive = [] ∧ s.params.chunkTimeoutMs ≤ t.lasts) :
    (s.readMany k more ts).world.log =
      List.replicate ts.length (k, .read s.chunkMax s.params.chunkTimeoutMs [] s.params.chunkTimeoutMs) ++ s.world.log := by
  induction ts generalizing s with
  | nil => rfl
  | cons t ts ih =>
    obtain ⟨arrive, full⟩ := silent t List.mem_cons_self
    obtain ⟨log, chunkMax, unread⟩ := State.readOnce_silent (ts ++ more) fresh noneUnread arrive full
    have later := ih (s.readOnce_waited k t (ts ++ more)) unread fun t' h =>
      (s.readOnce_params k t (ts ++ more)).symm ▸ silent t' (List.mem_cons_of_mem t h)
    rw [State.readMany, later, log, chunkMax, State.readOnce_params, List.length_cons, List.replicate_succ',
      List.append_assoc]
    rfl

end

/-- READRSP and RREAD on a Transport that gives nothing: the last of the reads that lasts into the timeout ends them. -/
theorem exec_read_silent {s : State} {k : SessId} {i : Instr} {ts more : List Turn} (addr : Addresses i s k)
    (hi : i = .readrsp ∨ i = .rread) (isOpened : (s.session k).state = .opened)
    (noneUnread : (s.session k).transport.unread = [])
    (small : s.timeoutMs + s.params.chunkTimeoutMs < 2 ^ Config.timerW) (begun : s.lead ≤ s.timeoutMs)
    (turns : s.world.turns = ts ++ more)
    (count : ts.length = (s.timeoutMs - s.lead) / s.params.chunkTimeoutMs + 1)
    (silent : ∀ t ∈ ts, t.ready = true ∧ t.arrive = [] ∧ s.params.chunkTimeoutMs ≤ t.lasts) :
    exec i s = .next ((s.readFrom k more ts).raise .timeout) ∧ s.timeoutMs < s.lead + s.readTime ts ∧
      s.lead + s.readTime ts ≤ s.timeoutMs + s.params.chunkTimeoutMs := by
  obtain rfl | ⟨before, last, rfl⟩ := ts.eq_nil_or_concat'
  · cases count
  have full : ∀ t ∈ before ++ [last], s.params.chunkTimeoutMs ≤ t.lasts := fun t h => (silent t h).2.2
  have time := State.readTime_of_full full
  have timeBefore := State.readTime_of_full fun t h => full t (List.mem_append_left [last] h)
  rw [List.length_append, List.length_singleton, Nat.add_right_cancel_iff] at count
  rw [List.length_append, List.length_singleton, Nat.succ_mul, ← timeBefore] at time
  rw [count] at timeBefore
  have most := Nat.div_mul_le_self (s.timeoutMs - s.lead) s.params.chunkTimeoutMs
  have least := Nat.lt_div_mul_add (a := s.timeoutMs - s.lead) (one_le_chunkTimeoutMs s.params)
  have nothing := State.receives_silent noneUnread fun t h => (silent t h).2.1
  have incomplete : scan (s.receives k (before ++ [last])).1 = none := congrArg (fun x => scan x.1) nothing
  have room : (s.receives k (before ++ [last])).1.length < Config.accCap := by rw [nothing]; decide
  obtain ⟨incomplete', room'⟩ := scan_receives_of_snoc incomplete room
  refine ⟨?_, by omega, by omega⟩
  exact exec_read_of_failing_last addr hi isOpened (by rw [turns, List.append_assoc]; rfl) (fun t h => (silent t h).1)
    incomplete' room' (by omega) (readEnd_of_late_last small incomplete room (by omega) (by omega))

/-! ## A pending read that is not answered -/

/-- The turn in which a pending read returns nothing: it moves nothing at the Transport and takes no time. -/
theorem State.readOnce_unanswered (k : SessId) (rest : List Turn) (s : State) :
    (s.readOnce k {} rest).world.log =
        (k, .read s.chunkMax s.params.chunkTimeoutMs [] s.world.waited) :: s.world.log ∧
      (s.readOnce k {} rest).world.now = s.world.now ∧ (s.readOnce k {} rest).accBytes = s.accBytes ∧
      (s.readOnce k {} rest).scratch.accLen = s.scratch.accLen ∧
      ∀ j, (s.readOnce k {} rest).session j = s.session j := by
  have noChunk : s.chunk k {} = [] := by simp [State.chunk, readBytesOf]
  have noTime : s.readLasts {} = 0 := Nat.zero_min _
  refine ⟨?_, ?_, ?_, ?_, fun j => ?_⟩
  · rw [State.readOnce_log, noChunk, noTime, Nat.add_zero]
  · rw [State.readOnce_now, noTime]
    exact BitVec.add_zero _
  · rw [State.readOnce_accBytes, noChunk, List.append_nil]
  · rw [State.readOnce_accLen, noChunk, List.length_nil, Nat.add_zero]
  · by_cases e : j = k
    · rw [e, State.readOnce_session, noChunk]
      simp [Transport.world]
    · exact (Within.readOnce k {} rest s).others j e

/-- A command in progress whose pending read has lasted its whole timeout unanswered. -/
theorem resume_of_expired {s : State} {k : SessId} {i : Instr} (cmd : s.cmd = i.opcode) (addr : Addresses i s k)
    (hi : i = .readrsp ∨ i = .rread) (blocked : Blocked s.world.turns)
    (expired : s.world.waited = s.params.chunkTimeoutMs) :
    resume s = .next (endRead (readEnd s.cap s.timeoutMs (s.readOnce k {} s.world.turns.tail))
      (s.readOnce k {} s.world.turns.tail) (.waits (s.readOnce k {} s.world.turns.tail).suspend)).finishPayload := by
  have decoded : decodeOpcode s.cmd = .command i := cmd ▸ decodeOpcode_opcode i
  rw [resume_read_of decoded addr hi, resumeRead, readLoop_blocked _ _ _ _ blocked,
    readPends_expired _ _ _ _ expired.ge]

/-- It returns Timeout if the time has run out, and otherwise goes on with the next read pending. -/
theorem resume_of_expired_cases {s : State} {k : SessId} {i : Instr} (cmd : s.cmd = i.opcode) (addr : Addresses i s k)
    (hi : i = .readrsp ∨ i = .rread) (blocked : Blocked s.world.turns)
    (expired : s.world.waited = s.params.chunkTimeoutMs) (incomplete : scan s.accBytes = none)
    (room : s.scratch.accLen < Config.accCap) :
    (s.timeoutMs < elapsed s.scratch.t0 s.world.now ∧
      resume s = .next ((s.readOnce k {} s.world.turns.tail).raise .timeout)) ∨
    (elapsed s.scratch.t0 s.world.now ≤ s.timeoutMs ∧
      resume s = .next (s.readOnce k {} s.world.turns.tail).suspend) := by
  obtain ⟨-, now, bytes, accLen, -⟩ := State.readOnce_unanswered k s.world.turns.tail s
  rw [resume_of_expired cmd addr hi blocked expired]
  rcases Nat.lt_or_ge s.timeoutMs (elapsed s.scratch.t0 s.world.now) with late | inTime
  · rw [readEnd_of_late (bytes ▸ incomplete) (accLen ▸ room) (by rwa [State.readOnce_t0, now])]
    exact .inl ⟨late, rfl⟩
  · rw [readEnd_eq_none (bytes ▸ incomplete) (accLen ▸ room) (by rwa [State.readOnce_t0, now])]
    exact .inr ⟨inTime, rfl⟩

/-- Settles O29, clause by clause. -/
theorem silentTransportTimesOut : Obligations.SilentTransportTimesOut := by
  refine ⟨fun s k i addr hi isOpened late => ?_,
    fun s k i ts rest last addr hi isOpened small turns ready incomplete room inTime late => ?_,
    fun s k i ts more addr hi isOpened noneUnread small begun turns count silent => ?_,
    fun s k i busy cmd addr hi blocked expired incomplete room => ?_⟩
  · exact ⟨_, exec_read_of_late addr hi isOpened late, Completed.raise _ _, rfl, rfl, rfl,
      fun j => (State.session_raise _ _ j).trans (s.session_beginRead j),
      (LeavesAlone.of_within (Within.beginRead k s) rfl).raise _⟩
  · obtain ⟨incomplete', room'⟩ := scan_receives_of_snoc incomplete room
    obtain ⟨u, calls, ran, completed, mem, log, length, got, unread, turns', rest⟩ :=
      exec_read_fails_after_last addr hi isOpened turns ready incomplete' room' inTime
        (readEnd_of_late_last small incomplete room inTime late)
    exact ⟨u, calls, ran, completed, mem, turns', log, length, got, unread, rest⟩
  · obtain ⟨ran, late, soon⟩ := exec_read_silent addr hi isOpened noneUnread small begun turns count silent
    have r := s.readFrom_received k more ts
    have time : elapsed s.world.now (s.readFrom k more ts).world.now = s.lead + s.readTime ts :=
      r.t0 ▸ r.elapsed (by omega)
    have log := State.log_readMany_silent (more := more) (s := s.beginRead) rfl
      ((congrArg (·.transport.unread) (s.session_beginRead k)).trans noneUnread) fun t h => (silent t h).2
    refine ⟨_, ran, Completed.raise _ _, r.within.mem, State.readFrom_turns turns, ?_, time ▸ late, time ▸ soon, ?_,
      (LeavesAlone.of_within r.within r.host).raise _⟩
    · rw [Calls, List.map_replicate, List.reverse_replicate, ← count]
      exact log
    · rw [State.session_raise]
      exact (Session.state_of_link_eq r.link).trans isOpened
  · obtain ⟨log, now, bytes, -, sessions⟩ := State.readOnce_unanswered k s.world.turns.tail s
    rw [expired] at log
    have within := Within.readOnce k {} s.world.turns.tail s
    obtain ⟨late, ran⟩ | ⟨inTime, ran⟩ := resume_of_expired_cases cmd addr hi blocked expired incomplete room
    · exact ⟨_, ran, log, now, State.readOnce_waited _ _ _ _, bytes,
        fun j => (State.session_raise _ _ j).trans (sessions j), fun _ => ⟨Completed.raise _ _, within.mem⟩,
        fun inTime => absurd late (Nat.not_lt.mpr inTime)⟩
    · exact ⟨_, ran, log, now, State.readOnce_waited _ _ _ _, bytes,
        fun j => (State.session_suspend _ j).trans (sessions j), fun late => absurd late (Nat.not_lt.mpr inTime),
        fun _ => resume_stillRunning ran rfl⟩

end Sys2Proof.Machine
end

section
/-! The time a READRSP or RREAD keeps to (R124 c, d), from its issue, each time it is gone on with, and under every act of the
host. -/

namespace Sys2Proof.Machine

/-! ## The loop -/

/-- What the loop of ReadResponse, begun in time in `s`, keeps to: it ends and waits within one read of the timeout, and it
ends with `Timeout` past the timeout only. -/
structure KeepsTime (s : State) (r : Run (List Byte)) : Prop where
  t0 : r.after.scratch.t0 = s.scratch.t0
  bound : elapsed s.scratch.t0 r.after.world.now ≤ s.timeoutMs + s.params.chunkTimeoutMs
  waits : ∀ v, r = .waits v → v.InTime
  late : ∀ v, r = .fail .timeout v → s.timeoutMs < elapsed s.scratch.t0 v.world.now

theorem Within.timeoutMs {k : SessId} {s v : State} (w : Within k s v) : v.timeoutMs = s.timeoutMs := by
  rw [State.timeoutMs, w.ops, State.timeoutMs]

/-- A read that began in time ends within its timeout (R114), before the clock can wrap. -/
theorem State.InTime.readOnce {s : State} (inTime : s.InTime)
    (small : s.timeoutMs + s.params.chunkTimeoutMs < 2 ^ Config.timerW) (k : SessId) (t : Turn) (rest : List Turn) :
    elapsed s.scratch.t0 (s.readOnce k t rest).world.now ≤ s.timeoutMs + s.params.chunkTimeoutMs := by
  obtain ⟨waited, begun⟩ := inTime
  have lasts : s.readLasts t ≤ s.params.chunkTimeoutMs - s.world.waited := Nat.min_le_right _ _
  rw [State.readOnce_now, elapsed_add_of_lt (by omega)]
  omega

/-- The next read begins at once, in time if the test after the last one says so. -/
theorem State.InTime.next {s : State} {k : SessId} {t : Turn} {rest : List Turn}
    (onTime : elapsed s.scratch.t0 (s.readOnce k t rest).world.now ≤ s.timeoutMs) : (s.readOnce k t rest).InTime where
  waited := (s.readOnce_waited k t rest).symm ▸ Nat.zero_le _
  begun := by
    rw [State.readOnce_t0, State.readOnce_waited, (Within.readOnce k t rest s).timeoutMs]
    exact onTime

theorem State.InTime.elapsed_le {s : State} (inTime : s.InTime) :
    elapsed s.scratch.t0 s.world.now ≤ s.timeoutMs + s.params.chunkTimeoutMs :=
  inTime.begun.trans (Nat.add_le_add_left inTime.waited _)

theorem readLoop_keepsTime {k : SessId} {cap : Nat} (turns : List Turn) {s : State}
    (small : s.timeoutMs + s.params.chunkTimeoutMs < 2 ^ Config.timerW) (inTime : s.InTime) :
    KeepsTime s (readLoop k cap s.timeoutMs turns s) := by
  refine readLoop_induction (k := k) (cap := cap) (timeout := s.timeoutMs)
    (P := fun v r => v.timeoutMs = s.timeoutMs → v.params = s.params → v.InTime → KeepsTime v r)
    (fun v rest same params inTime => ?_) (fun v t rest p ends same params inTime => ?_)
    (fun v t rest f ends same params inTime => ?_) (fun v t rest r ends goOn same params inTime => ?_) turns s rfl rfl inTime
  all_goals have small' : v.timeoutMs + v.params.chunkTimeoutMs < 2 ^ Config.timerW := by rw [same, params]; exact small
  · have waits : (v.setTurns rest).suspend.InTime := ⟨inTime.waited, inTime.begun⟩
    exact ⟨rfl, inTime.elapsed_le, fun u e => by cases e; exact waits, fun _ e => by cases e⟩
  · exact ⟨State.readOnce_t0 k t rest v, inTime.readOnce small' k t rest, fun _ e => (by cases e),
      fun _ e => by cases e⟩
  · refine ⟨State.readOnce_t0 k t rest v, inTime.readOnce small' k t rest, fun _ e => (by cases e), fun u e => ?_⟩
    cases e
    obtain ⟨r, received, e⟩ | ⟨-, -, e⟩ | ⟨-, -, late, -⟩ | ⟨-, -, -, e⟩ :=
      readEnd_cases cap s.timeoutMs (v.readOnce k t rest)
    · cases e.symm.trans ends
      obtain e | e := received_error_cases received <;> cases e
    · cases e.symm.trans ends
    · rwa [State.readOnce_t0, ← same] at late
    · cases e.symm.trans ends
  · obtain ⟨r, -, e⟩ | ⟨-, -, e⟩ | ⟨-, -, -, e⟩ | ⟨-, -, onTime, -⟩ :=
      readEnd_cases cap s.timeoutMs (v.readOnce k t rest)
    · cases e.symm.trans ends
    · cases e.symm.trans ends
    · cases e.symm.trans ends
    · rw [State.readOnce_t0, ← same] at onTime
      have within := Within.readOnce k t rest v
      obtain ⟨t0, bound, waits, late⟩ := goOn (within.timeoutMs.trans same) (within.params.trans params)
        (State.InTime.next onTime)
      rw [State.readOnce_t0, within.timeoutMs, within.params] at bound
      rw [State.readOnce_t0] at t0
      rw [State.readOnce_t0, within.timeoutMs] at late
      exact ⟨t0, bound, waits, late⟩

/-! ## The command -/

theorem Run.world_finishPayload (r : Run (List Byte)) : r.finishPayload.world = r.after.world := by
  cases r <;> rfl

theorem Run.scratch_finishPayload (r : Run (List Byte)) : r.finishPayload.scratch = r.after.scratch := by
  cases r <;> rfl

theorem Run.waits_of_finishPayload_busy {r : Run (List Byte)} (busy : r.finishPayload.busy = true) :
    r = .waits r.finishPayload := by
  cases r with
  | ok | fail => cases busy
  | waits => rfl

theorem Run.fail_of_finishPayload {k : SessId} {s : State} {r : Run (List Byte)} {f : Failure} (keeps : r.Keeps k s)
    (ended : r.finishPayload.busy = false) (failed : r.finishPayload.fail = f) (isFailure : f ≠ .none) :
    ∃ v, r = .fail f v ∧ r.finishPayload = v.raise f := by
  cases r with
  | ok => exact absurd failed.symm isFailure
  | fail g v =>
    obtain rfl : g = f := failed
    exact ⟨v, rfl, rfl⟩
  | waits => cases keeps.2.1.symm.trans ended

/-- What a command says of its time that ends as the run `r` of ReadResponse does. -/
theorem KeepsTime.finishPayload {k : SessId} {s b : State} {r : Run (List Byte)} (h : KeepsTime s r) (keeps : r.Keeps k b) :
    elapsed s.scratch.t0 r.finishPayload.world.now ≤ s.timeoutMs + s.params.chunkTimeoutMs ∧
    (r.finishPayload.busy = true → r.finishPayload.InTime ∧ r.finishPayload.scratch.t0 = s.scratch.t0) ∧
    (r.finishPayload.busy = false → r.finishPayload.fail = .timeout →
      s.timeoutMs < elapsed s.scratch.t0 r.finishPayload.world.now) := by
  refine ⟨r.world_finishPayload ▸ h.bound, fun busy => ⟨h.waits _ (Run.waits_of_finishPayload_busy busy), ?_⟩,
    fun ended late => ?_⟩
  · rw [r.scratch_finishPayload, h.t0]
  · obtain ⟨v, e, e'⟩ := Run.fail_of_finishPayload keeps ended late nofun
    rw [e']
    exact h.late v e

theorem State.InTime.beginRead {s : State} (begun : s.lead ≤ s.timeoutMs) : s.beginRead.InTime where
  waited := Nat.zero_le _
  begun := (elapsed_beginRead s).trans_le begun

theorem readResponse_keepsTime {k : SessId} {cap : Nat} {s : State} (isOpened : (s.session k).state = .opened)
    (small : s.timeoutMs + s.params.chunkTimeoutMs < 2 ^ Config.timerW) :
    KeepsTime s.beginRead (readResponse k cap s.timeoutMs s) := by
  rcases Nat.lt_or_ge s.timeoutMs s.lead with late | begun
  · rw [readResponse_of_late isOpened late]
    refine ⟨rfl, ?_, fun _ e => (by cases e), fun v e => ?_⟩
    · have chunk := one_le_chunkTimeoutMs s.params
      have lead := s.lead_le
      change elapsed s.beginRead.scratch.t0 s.beginRead.world.now ≤ s.timeoutMs + s.params.chunkTimeoutMs
      rw [elapsed_beginRead]
      omega
    · cases e
      exact late.trans_eq (elapsed_beginRead s).symm
  · rw [readResponse_of_opened isOpened begun]
    exact readLoop_keepsTime (s := s.beginRead) s.world.turns small (State.InTime.beginRead begun)

theorem resume_read_keepsTime {s u : State} (cmd : s.cmd = Instr.readrsp.opcode ∨ s.cmd = Instr.rread.opcode)
    (small : s.timeoutMs + s.params.chunkTimeoutMs < 2 ^ Config.timerW) (inTime : s.InTime) (h : resume s = .next u) :
    elapsed s.scratch.t0 u.world.now ≤ s.timeoutMs + s.params.chunkTimeoutMs ∧
    (u.busy = true → u.InTime ∧ u.scratch.t0 = s.scratch.t0) ∧
    (u.busy = false → u.fail = .timeout → s.timeoutMs < elapsed s.scratch.t0 u.world.now) := by
  obtain ⟨i, decoded, notRead, -⟩ | ⟨i, k, -, -, -, rfl⟩ | ⟨-, f, refusal, rfl⟩ := resume_cases h
  · rw [decodeOpcode_eq_command_iff] at decoded
    have read : i = .readrsp ∨ i = .rread := by
      rw [decoded] at cmd
      simp only [← decodeOpcode_eq_command_iff, decodeOpcode_opcode, Decoded.command.injEq] at cmd
      exact cmd
    tauto
  · exact (readLoop_keepsTime s.world.turns small inTime).finishPayload (resumeRead_keeps k _ _ s)
  · refine ⟨inTime.elapsed_le, nofun, fun _ late => ?_⟩
    obtain rfl | rfl := refusal <;> cases late

/-! ## The acts of the host -/

/-- A pending read counts the time that passes, and no more of it than it has left (R114). -/
theorem State.InTime.hostElapse {s : State} (reading : s.reading = true)
    (small : s.timeoutMs + s.params.chunkTimeoutMs < 2 ^ Config.timerW) (inTime : s.InTime) (ms : Nat) :
    (hostElapse ms s).InTime ∧ (hostElapse ms s).scratch.t0 = s.scratch.t0 := by
  obtain ⟨now, waited⟩ := hostElapse_of_reading ms reading
  obtain ⟨n, m, q, e⟩ := hostElapse_frame ms s
  rw [e] at now waited ⊢
  obtain ⟨notOver, begun⟩ := inTime
  have passes : min ms (s.params.chunkTimeoutMs - s.world.waited) ≤ s.params.chunkTimeoutMs - s.world.waited :=
    Nat.min_le_right _ _
  change n = _ at now
  change m = _ at waited
  refine ⟨⟨?_, ?_⟩, rfl⟩
  · change m ≤ s.params.chunkTimeoutMs
    omega
  · change elapsed s.scratch.t0 n ≤ s.timeoutMs + m
    rw [now, elapsed_add_of_lt (by omega)]
    omega

/-- Settles O30: the loop, from its beginning and from where it is gone on with, and the acts. -/
theorem readResponseKeepsItsTime : Obligations.ReadResponseKeepsItsTime := by
  refine ⟨fun s u k i addr hi isOpened small ran => ?_, fun s u _ cmd small inTime ran => ?_,
    fun s u a busy cmd small inTime ran still => ?_⟩
  · cases (exec_read_of addr hi).symm.trans ran
    exact (readResponse_keepsTime isOpened small).finishPayload (readResponse_keeps k _ _ s)
  · exact resume_read_keepsTime cmd small inTime ran
  · cases hostAct_acts ran with
    | looks => exact ⟨⟨inTime.waited, inTime.begun⟩, rfl⟩
    | writes idle | issues idle => cases idle.symm.trans busy
    | resets => cases still
    | elapses ms => exact inTime.hostElapse (State.reading_of_cmd busy cmd) small ms

end Sys2Proof.Machine
end

section
/-! The calls of a READRSP or RREAD (R124 a, b, R125, R133): the bytes they return are those in ACC, and there are at most so
many of them. -/

namespace Sys2Proof.Machine

/-! ## The calls of the loop -/

/-- The most reads a ReadResponse can still make in `s`: one for each byte ACC has room for, and one for each timeout of a
read that still begins in time. -/
def State.readsLeft (s : State) (timeout : Nat) : Nat :=
  Config.accCap - s.scratch.accLen + (timeout - elapsed s.scratch.t0 s.world.now) / s.params.chunkTimeoutMs + 1

/-- What the calls of the loop of ReadResponse from `s` are like: their bytes go to ACC, which they do not overfill. -/
structure LoopCalls (s : State) (r : Run (List Byte)) (calls : List (SessId × Call)) : Prop where
  log : r.after.world.log = calls ++ s.world.log
  bytes : r.after.accBytes = s.accBytes ++ gotBytes calls
  fits : s.scratch.accLen ≤ Config.accCap → r.after.scratch.accLen ≤ Config.accCap

theorem LoopCalls.readOnce {s : State} {k : SessId} {t : Turn} {rest : List Turn} {r : Run (List Byte)}
    {calls : List (SessId × Call)} (h : LoopCalls (s.readOnce k t rest) r calls) :
    LoopCalls s r
      (calls ++ [(k, .read s.chunkMax s.params.chunkTimeoutMs (s.chunk k t) (s.world.waited + s.readLasts t))]) where
  log := by rw [h.log, State.readOnce_log, List.append_assoc, List.singleton_append]
  bytes := by
    rw [h.bytes, State.readOnce_accBytes, gotBytes_append, List.append_assoc]
    simp [gotBytes]
  fits room := by
    refine h.fits ?_
    have most := s.length_chunk_le k t
    rw [State.readOnce_accLen]
    unfold State.chunkMax at most
    omega

theorem LoopCalls.refl {s : State} {r : Run (List Byte)} (world : r.after.world.log = s.world.log)
    (scratch : r.after.scratch = s.scratch) : LoopCalls s r [] where
  log := world
  bytes := by simp [gotBytes, State.accBytes, scratch]
  fits room := by rw [scratch]; exact room

theorem readLoop_calls (k : SessId) (cap timeout : Nat) (turns : List Turn) (s : State) :
    ∃ calls, LoopCalls s (readLoop k cap timeout turns s) calls := by
  refine readLoop_induction (P := fun s r => ∃ calls, LoopCalls s r calls) (fun s rest => ⟨[], .refl rfl rfl⟩)
    (fun s t rest p _ => ?_) (fun s t rest f _ => ?_) (fun s t rest r _ goOn => ?_) turns s
  · exact ⟨_, LoopCalls.readOnce (r := .ok p (s.readOnce k t rest)) (.refl rfl rfl)⟩
  · exact ⟨_, LoopCalls.readOnce (r := .fail f (s.readOnce k t rest)) (.refl rfl rfl)⟩
  · obtain ⟨calls, h⟩ := goOn
    exact ⟨_, h.readOnce⟩

theorem LoopCalls.unique {s : State} {r : Run (List Byte)} {c d : List (SessId × Call)} (hc : LoopCalls s r c)
    (hd : r.after.world.log = d ++ s.world.log) : c = d :=
  List.append_cancel_right (hc.log.symm.trans hd)

/-! ## How many there are -/

section
variable {s : State} {k : SessId} {t : Turn} {rest : List Turn} {timeout : Nat}

/-- A read that is not the last takes a byte or, if an empty read lasts its timeout, that much of the time. -/
theorem State.readsLeft_readOnce (fresh : s.world.waited = 0) (small : timeout + s.params.chunkTimeoutMs < 2 ^ Config.timerW)
    (onTime : elapsed s.scratch.t0 s.world.now ≤ timeout) (room : s.scratch.accLen < Config.accCap)
    (later : elapsed s.scratch.t0 (s.readOnce k t rest).world.now ≤ timeout)
    (lasts : s.chunk k t = [] → s.world.waited + s.readLasts t = s.params.chunkTimeoutMs) :
    (s.readOnce k t rest).readsLeft timeout + 1 ≤ s.readsLeft timeout := by
  have time : s.readLasts t ≤ s.params.chunkTimeoutMs := (Nat.min_le_right _ _).trans (Nat.sub_le _ _)
  have chunk := one_le_chunkTimeoutMs s.params
  unfold State.readsLeft
  rw [State.readOnce_t0, State.readOnce_params, State.readOnce_accLen]
  rw [State.readOnce_now, elapsed_add_of_lt (by omega)] at later ⊢
  have mono : (timeout - (elapsed s.scratch.t0 s.world.now + s.readLasts t)) / s.params.chunkTimeoutMs ≤
      (timeout - elapsed s.scratch.t0 s.world.now) / s.params.chunkTimeoutMs := Nat.div_le_div_right (by omega)
  rcases Nat.eq_zero_or_pos (s.chunk k t).length with empty | taken
  · have whole := lasts (List.eq_nil_of_length_eq_zero empty)
    rw [fresh, Nat.zero_add] at whole
    have step : (timeout - elapsed s.scratch.t0 s.world.now) / s.params.chunkTimeoutMs =
        (timeout - (elapsed s.scratch.t0 s.world.now + s.readLasts t)) / s.params.chunkTimeoutMs + 1 := by
      rw [whole, ← Nat.sub_sub, Nat.div_eq_sub_div chunk (by omega)]
    omega
  · omega

end

theorem readLoop_calls_le {k : SessId} {cap timeout : Nat} (turns : List Turn) {s : State} (fresh : s.world.waited = 0)
    (small : timeout + s.params.chunkTimeoutMs < 2 ^ Config.timerW)
    (onTime : elapsed s.scratch.t0 s.world.now ≤ timeout) (room : s.scratch.accLen < Config.accCap) :
    ∃ calls, LoopCalls s (readLoop k cap timeout turns s) calls ∧ ((∀ c ∈ calls, c.2.lastsIfEmpty) →
      calls.length ≤ s.readsLeft timeout ∧
      ∀ v, readLoop k cap timeout turns s = .waits v → calls.length < s.readsLeft timeout) := by
  refine readLoop_induction (k := k) (cap := cap) (timeout := timeout) (P := fun s r =>
      s.world.waited = 0 → timeout + s.params.chunkTimeoutMs < 2 ^ Config.timerW →
      elapsed s.scratch.t0 s.world.now ≤ timeout → s.scratch.accLen < Config.accCap →
      ∃ calls, LoopCalls s r calls ∧ ((∀ c ∈ calls, c.2.lastsIfEmpty) →
        calls.length ≤ s.readsLeft timeout ∧ ∀ v, r = .waits v → calls.length < s.readsLeft timeout))
    (fun s rest _ _ _ _ => ⟨[], .refl rfl rfl, fun _ => ⟨Nat.zero_le _, fun _ _ => Nat.succ_pos _⟩⟩)
    (fun s t rest p _ _ _ _ _ => ?_) (fun s t rest f _ _ _ _ _ => ?_)
    (fun s t rest r ends goOn fresh small onTime room => ?_) turns s fresh small onTime room
  · exact ⟨_, LoopCalls.readOnce (r := .ok p (s.readOnce k t rest)) (.refl rfl rfl),
      fun _ => ⟨Nat.succ_pos _, fun _ e => by cases e⟩⟩
  · exact ⟨_, LoopCalls.readOnce (r := .fail f (s.readOnce k t rest)) (.refl rfl rfl),
      fun _ => ⟨Nat.succ_pos _, fun _ e => by cases e⟩⟩
  · obtain ⟨_, -, e⟩ | ⟨-, -, e⟩ | ⟨-, -, -, e⟩ | ⟨-, notFull, later, -⟩ :=
      readEnd_cases cap timeout (s.readOnce k t rest)
    · cases e.symm.trans ends
    · cases e.symm.trans ends
    · cases e.symm.trans ends
    · have once : LoopCalls s (.waits (s.readOnce k t rest)) _ := LoopCalls.readOnce (.refl rfl rfl)
      have fits := once.fits room.le
      obtain ⟨calls, loop, count⟩ := goOn (s.readOnce_waited k t rest) (by rwa [State.readOnce_params]) later
        (Nat.lt_of_le_of_ne fits notFull)
      refine ⟨_, loop.readOnce, fun lasts => ?_⟩
      obtain ⟨most, waits⟩ := count fun c h => lasts c (List.mem_append_left _ h)
      have last := lasts _ (List.mem_append_right calls (List.mem_singleton.mpr rfl))
      rw [State.readOnce_t0] at later
      have fewer := State.readsLeft_readOnce fresh small onTime room later last
      rw [List.length_append, List.length_singleton]
      exact ⟨by omega, fun v e => (Nat.add_lt_add_right (waits v e) 1).trans_le fewer⟩

/-- With every turn ready, the loop waits only when each of them has answered a read. -/
theorem readLoop_waits_calls {k : SessId} {cap timeout : Nat} {turns : List Turn} {s v : State}
    (fresh : s.world.waited = 0)
    (ready : ∀ t ∈ turns, t.ready = true) (waits : readLoop k cap timeout turns s = .waits v) :
    ∃ calls, v.world.log = calls ++ s.world.log ∧ calls.length = turns.length := by
  induction turns generalizing s with
  | nil =>
    rw [readLoop_blocked _ _ _ _ (.inl rfl), readPends_waits _ _ _ _ (fresh ▸ one_le_chunkTimeoutMs _)] at waits
    cases waits
    exact ⟨[], rfl, rfl⟩
  | cons t ts ih =>
    rw [readLoop_ready _ _ _ _ _ (ready t List.mem_cons_self)] at waits
    cases ends : readEnd cap timeout (s.readOnce k t ts) with
    | some e => rw [ends] at waits; cases e <;> cases waits
    | none =>
      rw [ends] at waits
      obtain ⟨calls, log, length⟩ :=
        ih (s.readOnce_waited k t ts) (fun t' h => ready t' (List.mem_cons_of_mem t h)) waits
      rw [State.readOnce_log] at log
      exact ⟨calls ++ [_], by rw [log, List.append_assoc]; rfl, by simp [length]⟩

/-! ## The command -/

theorem State.readsLeft_beginRead_le (s : State) (timeout : Nat) :
    s.beginRead.readsLeft timeout ≤ Config.accCap + timeout / s.params.chunkTimeoutMs + 1 := by
  have less : (timeout - elapsed s.beginRead.scratch.t0 s.beginRead.world.now) / s.params.chunkTimeoutMs ≤
      timeout / s.params.chunkTimeoutMs := Nat.div_le_div_right (Nat.sub_le _ _)
  exact Nat.add_le_add_right (Nat.add_le_add_left less _) 1

/-- Settles O31: the loop begins with an empty ACC, and the reads it can still make bound those it makes. -/
theorem readResponseTerminates : Obligations.ReadResponseTerminates := by
  intro s u k i calls addr hi isOpened small ran log lasts
  cases (exec_read_of addr hi).symm.trans ran
  rw [Run.world_finishPayload] at log
  rcases Nat.lt_or_ge s.timeoutMs s.lead with late | begun
  · rw [readResponse_of_late isOpened late] at log ⊢
    obtain rfl : [] = calls := List.append_cancel_right (bs := s.world.log) log
    exact ⟨Nat.zero_le _, Nat.zero_le _, fun _ _ => rfl⟩
  · rw [readResponse_of_opened isOpened begun] at log ⊢
    obtain ⟨calls', loop, count⟩ := readLoop_calls_le (k := k) (cap := s.cap) (timeout := s.timeoutMs) s.world.turns
      (s := s.beginRead) rfl small ((elapsed_beginRead s).trans_le begun) (by decide : 0 < Config.accCap)
    obtain rfl := loop.unique log
    obtain ⟨most, waits⟩ := count lasts
    have bound := s.readsLeft_beginRead_le s.timeoutMs
    refine ⟨?_, most.trans bound, fun ready enough => eq_false_of_ne_true fun busy => ?_⟩
    · have fits := loop.fits (Nat.zero_le _)
      rw [← State.length_accBytes, loop.bytes, State.accBytes_beginRead, List.nil_append] at fits
      exact fits
    · have waiting := Run.waits_of_finishPayload_busy busy
      have few := waits _ waiting
      obtain ⟨all, log', length⟩ := readLoop_waits_calls rfl ready waiting
      rw [waiting] at loop
      obtain rfl := loop.unique log'
      omega

end Sys2Proof.Machine
end

section
/-! The payload of a READRSP or RREAD that succeeds is that of the bytes its reads returned (R133). -/

namespace Sys2Proof.Machine

/-- A loop that ends with a payload has found it in the bytes of ACC. -/
theorem readLoop_ok {k : SessId} {cap timeout : Nat} {turns : List Turn} {s v : State} {p : List Byte}
    (h : readLoop k cap timeout turns s = .ok p v) : received v.accBytes cap = some (.ok p) := by
  refine readLoop_induction (k := k) (cap := cap) (timeout := timeout)
    (P := fun _ r => ∀ p v, r = .ok p v → received v.accBytes cap = some (.ok p))
    (fun _ _ _ _ e => by cases e) (fun s t rest p ends q v e => ?_) (fun _ _ _ _ _ _ _ e => by cases e)
    (fun _ _ _ _ _ goOn => goOn) turns s p v h
  cases e
  obtain ⟨r, found, e⟩ | ⟨-, -, e⟩ | ⟨-, -, -, e⟩ | ⟨-, -, -, e⟩ :=
    readEnd_cases cap timeout (s.readOnce k t rest)
  · exact found.trans (e.symm.trans ends)
  all_goals cases e.symm.trans ends

theorem readResponse_ok {k : SessId} {cap timeout : Nat} {s v : State} {p : List Byte}
    (h : readResponse k cap timeout s = .ok p v) :
    ∃ calls, v.world.log = calls ++ s.world.log ∧ received (gotBytes calls) cap = some (.ok p) := by
  by_cases isOpened : (s.session k).state = .opened
  · rcases Nat.lt_or_ge timeout s.lead with late | begun
    · cases (readResponse_of_late isOpened late).symm.trans h
    · rw [readResponse_of_opened isOpened begun] at h
      obtain ⟨calls, loop⟩ := readLoop_calls k cap timeout s.world.turns s.beginRead
      rw [h] at loop
      refine ⟨calls, loop.log, ?_⟩
      rw [← List.nil_append (gotBytes calls), ← s.accBytes_beginRead, ← loop.bytes]
      exact readLoop_ok h
  · cases (readResponse_of_not_opened isOpened cap timeout).symm.trans h

/-- Settles O32: what a failure leaves is that of every command; a success has found its payload in the bytes read. -/
theorem noPartialResponse : Obligations.NoPartialResponse := by
  intro s u k i addr hi ran ended
  refine ⟨fun succeeded => ?_, fun failed => ?_⟩
  · have keeps := readResponse_keeps k s.cap s.timeoutMs s
    have fails := readResponse_failsIn k s.cap s.timeoutMs s
    cases (exec_read_of addr hi).symm.trans ran
    cases e : readResponse k s.cap s.timeoutMs s with
    | ok p v =>
      obtain ⟨calls, log, found⟩ := readResponse_ok e
      obtain ⟨m, j, r, complete, decoded, rfl⟩ := received_ok found
      have length := length_take_doutCap r s.cap
      obtain ⟨completed, result, -, -⟩ := v.done_writeDout_delivers length (min_doutCap_lt _ _)
      have resLen := completed.resLen
      rw [Run.finishPayload_ok, length]
      exact ⟨calls, m, j, r, log, complete, decoded, resLen, by rw [resLen]; exact result⟩
    | fail f v =>
      rw [e] at fails succeeded
      obtain rfl : f = .none := succeeded
      change Failure.none ∈ _ at fails
      simp at fails
    | waits v =>
      rw [e] at keeps ended
      cases keeps.2.1.symm.trans ended
  · obtain ⟨mem, resLen, -⟩ := failureWritesNoResult i s u ran ended failed
    exact ⟨resLen, mem⟩

end Sys2Proof.Machine
end

section
/-! A command at a Transport call that has not returned (R36, R48, U18). -/

namespace Sys2Proof.Machine

/-! ## The functions at a call that is not answered -/

/-- The state in which a function waits at a call that the next turn does not answer. -/
def State.pend (s : State) : State := (s.setTurns s.world.turns.tail).suspend

@[simp] theorem State.session_pend (s : State) (k : SessId) : s.pend.session k = s.session k := by cases k <;> rfl

@[simp] theorem State.pend_log (s : State) : s.pend.world.log = s.world.log := rfl

section
variable {k : SessId} {s : State} (blocked : Blocked s.world.turns)
include blocked

theorem callOpen_blocked (cfg : Tuple) : callOpen k cfg s = .waits s.pend := by
  rw [callOpen, await_unanswered k blocked]
  rfl

theorem callClose_blocked : callClose k s = .waits s.pend := by
  rw [callClose, await_unanswered k blocked]
  rfl

theorem callWrite_blocked (bytes : List Byte) : callWrite k bytes s = .waits s.pend := by
  rw [callWrite, await_unanswered k blocked]
  rfl

theorem callFlush_blocked : callFlush k s = .waits s.pend := by
  rw [callFlush, await_unanswered k blocked]
  rfl

theorem readLoop_pends (fresh : s.world.waited = 0) (cap timeout : Nat) :
    readLoop k cap timeout s.world.turns s = .waits s.pend := by
  rw [readLoop_blocked _ _ _ _ blocked, readPends_waits _ _ _ _ (fresh ▸ one_le_chunkTimeoutMs _)]
  rfl

theorem connectTuple_blocked {cfg : Tuple} (valid : cfg.valid = true) :
    connectTuple k cfg s = .waits (s.latch k cfg).pend := by
  rw [connectTuple, if_pos valid]
  dsimp only
  rw [callOpen_blocked (by simpa using blocked), Run.bind_waits]

section
variable (isOpened : (s.session k).state = .opened)
include isOpened

theorem connect_blocked (cfg : Tuple) : connect k cfg s = .waits s.pend := by
  rw [connect, if_pos isOpened, callClose_blocked blocked, Run.bind_waits]

theorem disconnect_blocked : disconnect k s = .waits s.pend := by
  rw [disconnect, if_pos isOpened, callClose_blocked blocked, Run.bind_waits]

theorem flushSession_blocked : flushSession k s = .waits s.pend := by
  rw [flushSession, if_neg (not_not_intro isOpened), callFlush_blocked blocked]

theorem sendCommand_blocked {n : Nat} (fits : n + 3 ≤ Config.maxFrame) :
    sendCommand k n s = .waits (s.loadTx (frameOf (s.dinBytes n))).pend := by
  rw [sendCommand, if_neg (not_not_intro isOpened), if_neg (Nat.not_lt.mpr fits)]
  dsimp only
  rw [callWrite_blocked (by simpa using blocked), Run.bind_waits]

theorem readResponse_blocked {timeout : Nat} (begun : s.lead ≤ timeout) (cap : Nat) :
    readResponse k cap timeout s = .waits s.beginRead.pend := by
  rw [readResponse_of_opened isOpened begun]
  exact readLoop_pends (s := s.beginRead) blocked rfl cap timeout

end

end

/-! ## The commands -/

/-- A command that acts on one Session is one of the seven kinds. -/
theorem Addresses.kind {i : Instr} {s : State} {k : SessId} (addr : Addresses i s k) :
    (i = .connect ∨ i = .ropen) ∨ (i = .sendcmd ∨ i = .rwrite) ∨ (i = .readrsp ∨ i = .rread) ∨
      (i = .disconnect ∨ i = .rclose) ∨ (i = .flush ∨ i = .rflush) ∨ i = .rdeinit := by
  cases i with
  | encode | decode | rcreate => exact addr.elim
  | connect | sendcmd | readrsp | disconnect | flush | ropen | rclose | rwrite | rread | rflush | rdeinit => simp

theorem exec_blocked_on_opened {s : State} {k : SessId} {i : Instr} (addr : Addresses i s k)
    (isOpened : (s.session k).state = .opened) (blocked : Blocked s.world.turns)
    (fits : (i = .sendcmd ∨ i = .rwrite) → s.len + 3 ≤ Config.maxFrame)
    (begun : (i = .readrsp ∨ i = .rread) → s.lead ≤ s.timeoutMs) :
    ∃ v : State, exec i s = .next v.pend ∧ (∀ j, v.session j = s.session j) ∧ v.world.log = s.world.log := by
  obtain hi | hi | hi | hi | hi | rfl := addr.kind
  · exact ⟨s, by rw [exec_connect_of addr hi, connect_blocked blocked isOpened]; rfl, fun _ => rfl, rfl⟩
  · exact ⟨_, by rw [exec_send_of addr hi, sendCommand_blocked blocked isOpened (fits hi)]; rfl,
      s.session_loadTx _, rfl⟩
  · exact ⟨_, by rw [exec_read_of addr hi, readResponse_blocked blocked isOpened (begun hi)]; rfl,
      s.session_beginRead, rfl⟩
  · exact ⟨s, by rw [exec_disconnect_of addr hi, disconnect_blocked blocked isOpened]; rfl, fun _ => rfl, rfl⟩
  · exact ⟨s, by rw [exec_flush_of addr hi, flushSession_blocked blocked isOpened]; rfl, fun _ => rfl, rfl⟩
  · obtain ⟨-, -, rfl⟩ := id addr
    exact ⟨s, by rw [exec_rdeinit_of addr, disconnect_blocked blocked isOpened]; rfl, fun _ => rfl, rfl⟩

theorem exec_blocked_at_open {s : State} {k : SessId} {i : Instr} (notOpened : (s.session k).state ≠ .opened)
    (valid : s.tuple.valid = true) (acts : Addresses i s k ∧ (i = .connect ∨ i = .ropen) ∨
      i = .rcreate ∧ s.params.hasRegistry = true ∧ s.freeSlot.map .slot = some k) (blocked : Blocked s.world.turns) :
    exec i s = .next (s.latch k s.tuple).pend := by
  have waits : connect k s.tuple s = .waits (s.latch k s.tuple).pend :=
    (connect_of_not_opened _ notOpened).trans (connectTuple_blocked blocked valid)
  obtain ⟨addr, hi⟩ | ⟨rfl, table, free⟩ := acts
  · rw [exec_connect_of addr hi, waits]
    rfl
  · obtain ⟨h, isFree, rfl⟩ := Option.map_eq_some_iff.mp free
    rw [exec_rcreate_of table isFree, waits]
    rfl

theorem exec_blocked_after_close {s : State} {k : SessId} {i : Instr} {t : Turn} {rest : List Turn} (addr : Addresses i s k)
    (hi : i = .connect ∨ i = .ropen) (isOpened : (s.session k).state = .opened) (valid : s.tuple.valid = true)
    (turns : s.world.turns = t :: rest) (ready : t.ready = true) (blocked : Blocked rest) :
    exec i s = .next ((s.closedIn k t rest).latch k s.tuple).pend := by
  rw [exec_connect_of addr hi, connect_of_opened _ isOpened turns ready,
    connectTuple_blocked (by simpa using blocked) valid]
  rfl

theorem State.session_closedIn_ne {k j : SessId} (e : j ≠ k) (t : Turn) (rest : List Turn) (s : State) :
    (s.closedIn k t rest).session j = s.session j := by
  rw [State.closedIn, State.session_setSess_ne _ _ e, State.session_endCall_ne _ _ _ e, State.session_elapse,
    State.session_beginTurn_ne _ _ _ e]

theorem exec_blocked_after_reads {s : State} {k : SessId} {i : Instr} {ts more : List Turn} (addr : Addresses i s k)
    (hi : i = .readrsp ∨ i = .rread) (isOpened : (s.session k).state = .opened) (turns : s.world.turns = ts ++ more)
    (ready : ∀ t ∈ ts, t.ready = true) (blocked : Blocked more) (incomplete : scan (s.receives k ts).1 = none)
    (room : (s.receives k ts).1.length < Config.accCap) (inTime : s.lead + s.readTime ts ≤ s.timeoutMs) :
    exec i s = .next (s.readFrom k more ts).pend := by
  have still := State.readFrom_turns (k := k) turns
  rw [exec_read_of addr hi, readResponse_after_reads isOpened turns ready s.timeoutMs_lt incomplete room inTime]
  have waits := readLoop_pends (k := k) (by rwa [still]) (s.readFrom_received k more ts).waited s.cap s.timeoutMs
  rw [still] at waits
  rw [waits]
  rfl

/-- Settles O9: the first clause from the ends of a command, the others from the call at which it waits. -/
theorem waitingCommandStaysInProgress : Obligations.WaitingCommandStaysInProgress := by
  refine ⟨fun s u i ran busy => ?_, fun s k i addr isOpened blocked fits begun => ?_,
    fun s k i notOpened valid acts blocked => ?_, fun s k i t rest addr hi isOpened valid turns ready blocked => ?_,
    fun s k i ts more addr hi isOpened turns ready blocked incomplete room inTime => ?_⟩
  · obtain ran | ⟨-, ran⟩ := ran
    · exact (exec_ends ran).stillRunning busy
    · exact resume_stillRunning ran busy
  · obtain ⟨v, ran, sessions, log⟩ := exec_blocked_on_opened addr isOpened blocked fits begun
    exact ⟨_, ran, rfl, fun j => (v.session_pend j).trans (sessions j), log⟩
  · refine ⟨_, exec_blocked_at_open notOpened valid acts blocked, rfl, by simp, fun j other => ?_, by simp⟩
    rw [State.session_pend, State.session_latch_ne _ _ other]
  · refine ⟨_, exec_blocked_after_close addr hi isOpened valid turns ready blocked, rfl, by simp, by simp, by simp,
      fun j other => ?_, by simp [Calls]⟩
    rw [State.session_pend, State.session_latch_ne _ _ other, State.session_closedIn_ne other]
  · have r := s.readFrom_received k more ts
    obtain ⟨calls, log, length, got⟩ := r.log
    refine ⟨_, calls, exec_blocked_after_reads addr hi isOpened turns ready blocked incomplete room inTime, rfl, r.bytes,
      r.t0, log, length, got, ?_, ?_, fun j other => ?_⟩
    all_goals rw [State.session_pend]
    · exact r.unread
    · exact (Session.state_of_link_eq r.link).trans isOpened
    · exact r.within.others j other

end Sys2Proof.Machine
end

section
/-! A command that waits and goes on (R47, R48, log 1): the wait leaves a trace in `BUSY` and the host's turn alone, and the
function gone on with does what the function at its issue would have done. -/

namespace Sys2Proof.Machine

/-! ## The functions do not see the wait -/

/-- A run from the suspended state: what it ends in is suspended too. -/
def Run.suspended {α : Type} : Run α → Run α
  | .ok a s => .ok a s.suspend
  | .fail f s => .fail f s.suspend
  | .waits s => .waits s

theorem Run.suspended_bind {α β : Type} (r : Run α) {f : α → State → Run β}
    (hf : ∀ a s, f a s.suspend = (f a s).suspended) : r.suspended.bind f = (r.bind f).suspended := by
  cases r with
  | ok a s => exact hf a s
  | fail | waits => rfl

section
variable (k : SessId) (s : State)

theorem State.putSession_suspend (v : Session) : s.suspend.putSession k v = (s.putSession k v).suspend := by
  cases k <;> rfl

theorem State.setSess_suspend (v : SessState) : s.suspend.setSess k v = (s.setSess k v).suspend := by
  cases k <;> rfl

theorem State.latch_suspend (cfg : Tuple) : s.suspend.latch k cfg = (s.latch k cfg).suspend := by
  cases k <;> rfl

theorem State.beginTurn_suspend (t : Turn) (rest : List Turn) :
    s.suspend.beginTurn k t rest = (s.beginTurn k t rest).suspend := by
  cases k <;> rfl

theorem State.endCall_suspend (ms : Nat) (c : Call) (x : Transport) :
    (s.suspend.elapse ms).endCall k c x = ((s.elapse ms).endCall k c x).suspend := by
  cases k <;> rfl

theorem State.readOnce_suspend (t : Turn) (rest : List Turn) :
    s.suspend.readOnce k t rest = (s.readOnce k t rest).suspend := by
  cases k <;> rfl

theorem await_suspend : await k s.suspend = (await k s).suspended := by
  obtain ⟨t, rest, turns, ready, e⟩ | ⟨blocked, e⟩ := await_cases k s
  · rw [e, await_ready (s := s.suspend) turns ready, State.beginTurn_suspend]
    rfl
  · rw [e, await_unanswered (s := s.suspend) k blocked]
    rfl

theorem await_bind_suspend {α : Type} {f : Turn → State → Run α}
    (hf : ∀ t u, f t u.suspend = (f t u).suspended) :
    (await k s.suspend).bind f = ((await k s).bind f).suspended := by
  rw [await_suspend, Run.suspended_bind _ hf]

theorem callOpen_suspend (cfg : Tuple) : callOpen k cfg s.suspend = (callOpen k cfg s).suspended :=
  await_bind_suspend k s fun t u => by
    rw [State.endCall_suspend, State.session_suspend]
    rfl

theorem callClose_suspend : callClose k s.suspend = (callClose k s).suspended :=
  await_bind_suspend k s fun t u => by
    rw [State.endCall_suspend, State.session_suspend]
    rfl

theorem callWrite_suspend (bytes : List Byte) : callWrite k bytes s.suspend = (callWrite k bytes s).suspended :=
  await_bind_suspend k s fun t u => by
    dsimp only
    rw [State.endCall_suspend, State.session_suspend]
    rfl

theorem callFlush_suspend : callFlush k s.suspend = (callFlush k s).suspended :=
  await_bind_suspend k s fun t u => by
    rw [State.endCall_suspend, State.session_suspend]
    rfl

theorem connectTuple_suspend (cfg : Tuple) : connectTuple k cfg s.suspend = (connectTuple k cfg s).suspended := by
  unfold connectTuple
  split
  · dsimp only
    rw [State.latch_suspend, State.session_suspend, callOpen_suspend, Run.suspended_bind]
    intro a u
    cases a <;> exact congrArg _ (State.setSess_suspend k u _)
  · rw [State.setSess_suspend]
    rfl

theorem connect_suspend (cfg : Tuple) : connect k cfg s.suspend = (connect k cfg s).suspended := by
  unfold connect
  rw [State.session_suspend]
  split
  · rw [callClose_suspend, Run.suspended_bind]
    intro _ u
    rw [State.setSess_suspend, connectTuple_suspend]
  · exact connectTuple_suspend k s cfg

theorem sendCommand_suspend (n : Nat) : sendCommand k n s.suspend = (sendCommand k n s).suspended := by
  unfold sendCommand
  rw [State.session_suspend]
  split
  · rfl
  · split
    · rfl
    · change (callWrite k _ (s.loadTx (frameOf (s.dinBytes n))).suspend).bind _ = _
      rw [callWrite_suspend, Run.suspended_bind]
      · rfl
      · intro w u
        rw [State.suspend_scratch]
        split <;> rfl

theorem disconnect_suspend : disconnect k s.suspend = (disconnect k s).suspended := by
  unfold disconnect
  rw [State.session_suspend]
  split
  · rw [callClose_suspend, Run.suspended_bind]
    intro _ u
    rw [State.setSess_suspend]
    rfl
  · rfl

theorem flushSession_suspend : flushSession k s.suspend = (flushSession k s).suspended := by
  unfold flushSession
  rw [State.session_suspend]
  split
  · rfl
  · exact callFlush_suspend k s

theorem endRead_suspend (e : Option (Except Failure (List Byte))) (goOn : Run (List Byte)) :
    endRead e s.suspend goOn.suspended = (endRead e s goOn).suspended := by
  unfold endRead
  split <;> rfl

theorem readPends_suspend (cap timeout : Nat) (rest : List Turn) :
    readPends k cap timeout rest s.suspend = (readPends k cap timeout rest s).suspended := by
  rcases Nat.lt_or_ge s.world.waited s.params.chunkTimeoutMs with pends | expired
  · rw [readPends_waits (s := s) _ _ _ _ pends, readPends_waits (s := s.suspend) _ _ _ _ pends]
    rfl
  · rw [readPends_expired (s := s) _ _ _ _ expired, readPends_expired (s := s.suspend) _ _ _ _ expired,
      State.readOnce_suspend, ← endRead_suspend]
    rfl

theorem readLoop_suspend (cap timeout : Nat) (turns : List Turn) :
    readLoop k cap timeout turns s.suspend = (readLoop k cap timeout turns s).suspended := by
  induction turns generalizing s with
  | nil => exact readPends_suspend k s cap timeout []
  | cons t rest ih =>
    cases ready : t.ready with
    | true =>
      rw [readLoop_ready _ _ _ _ _ ready, readLoop_ready _ _ _ _ _ ready, State.readOnce_suspend, ih, ← endRead_suspend]
      rfl
    | false =>
      have blocked : Blocked (t :: rest) := .inr ⟨t, rest, rfl, ready⟩
      rw [readLoop_blocked _ _ _ _ blocked, readLoop_blocked _ _ _ _ blocked, readPends_suspend]

end

/-! ## The ends of the commands -/

/-- The end of a command by a run: only one that waits leaves `BUSY` 1, and a run from the suspended state ends as the run from
the state itself, but for the host's side. -/
structure Ending {α : Type} (e : Run α → State) : Prop where
  waits : ∀ r, (e r).busy = true → r = .waits (e r)
  suspended : ∀ r, e r = { e r.suspended with host := (e r).host }

theorem Ending.complete {α : Type} {f : α → State → State} (ends : ∀ a s, (f a s).busy = false)
    (blind : ∀ a s, f a s = { f a s.suspend with host := (f a s).host }) : Ending (fun r : Run α => r.complete f) where
  waits r busy := by
    cases r with
    | ok a s => cases (ends a s).symm.trans busy
    | fail => cases busy
    | waits => rfl
  suspended r := by
    cases r with
    | ok a s => exact blind a s
    | fail | waits => rfl

theorem Ending.finish : Ending Run.finish := .complete (fun _ _ => rfl) (fun _ _ => rfl)

theorem Ending.finishPayload : Ending Run.finishPayload := .complete (fun _ _ => rfl) (fun _ _ => rfl)

theorem Ending.vacate (h : Nat) : Ending (fun r : Run Unit => r.complete fun _ s => (s.vacate h).done 0) :=
  .complete (fun _ _ => rfl) (fun _ _ => rfl)

theorem State.giveHandle_suspend (s : State) (h : Nat) : s.suspend.giveHandle h = (s.giveHandle h).suspend := by
  unfold State.giveHandle
  split <;> rfl

theorem State.occupy_suspend (s : State) (h : Nat) : s.suspend.occupy h = (s.occupy h).suspend := by
  unfold State.occupy
  dsimp only
  rw [← State.giveHandle_suspend, apply_ite State.suspend]
  rfl

theorem Ending.finishCreate (h : Nat) : Ending (finishCreate h) where
  waits r busy := by
    cases r with
    | ok | fail => cases busy
    | waits => rfl
  suspended r := by
    cases r with
    | ok _ s =>
      rw [Run.suspended, Machine.finishCreate, Machine.finishCreate, State.occupy_suspend]
      rfl
    | fail | waits => rfl

/-! ## What is done twice -/

theorem Memory.read_writeBytes_congr {m m' : Memory} {base a : Nat} {bs : List Byte}
    (h : a < base ∨ base + bs.length ≤ a → m.read a = m'.read a) :
    (m.writeBytes base bs).read a = (m'.writeBytes base bs).read a := by
  induction bs generalizing m m' base with
  | nil => exact h (Nat.lt_or_ge a base)
  | cons b bs ih =>
    refine ih fun outside => ?_
    by_cases e : a = base
    · rw [e, Memory.read_write_self, Memory.read_write_self]
    · rw [Memory.read_write_ne _ _ e, Memory.read_write_ne _ _ e]
      exact h (by rw [List.length_cons]; omega)

theorem Memory.writeBytes_writeBytes {m : Memory} (canonical : m.wf = true) (base : Nat) (bs : List Byte) :
    (m.writeBytes base bs).writeBytes base bs = m.writeBytes base bs :=
  Memory.eq_of_wf (Memory.wf_writeBytes (Memory.wf_writeBytes canonical base bs) base bs)
    (Memory.wf_writeBytes canonical base bs)
    fun _ => Memory.read_writeBytes_congr fun outside => Memory.read_writeBytes_of_outside m base bs outside

theorem State.loadTx_loadTx {s : State} (canonical : s.scratch.txbuf.wf = true) (f : List Byte) :
    (s.loadTx f).loadTx f = s.loadTx f := by
  simp only [State.loadTx, Memory.writeBytes_writeBytes canonical]

theorem State.putSession_putSession (s : State) (k : SessId) (v w : Session) :
    (s.putSession k v).putSession k w = s.putSession k w := by
  cases k with
  | direct => rfl
  | slot h => simp [State.putSession, putSlot_putSlot]

theorem State.latch_latch (s : State) (k : SessId) (cfg : Tuple) : (s.latch k cfg).latch k cfg = s.latch k cfg := by
  rw [State.latch, State.session_latch_self, State.latch, State.putSession_putSession]

/-- SendCommand from where it waits loads the same frame again (R120 step 3). -/
theorem sendCommand_loadTx {k : SessId} {n : Nat} {s : State} (isOpened : (s.session k).state = .opened)
    (fits : n + 3 ≤ Config.maxFrame) (canonical : s.scratch.txbuf.wf = true) :
    sendCommand k n (s.loadTx (frameOf (s.dinBytes n))) = sendCommand k n s := by
  have again : (s.loadTx (frameOf (s.dinBytes n))).loadTx (frameOf ((s.loadTx (frameOf (s.dinBytes n))).dinBytes n)) =
      s.loadTx (frameOf (s.dinBytes n)) := State.loadTx_loadTx canonical _
  rw [sendCommand, sendCommand, State.session_loadTx, if_neg (not_not_intro isOpened), if_neg (not_not_intro isOpened),
    if_neg (Nat.not_lt.mpr fits), if_neg (Nat.not_lt.mpr fits), again]

/-- Connect from where it waits for the open latches the same tuple again (R118 step 3). -/
theorem connect_latch (k : SessId) {cfg : Tuple} (s : State) (valid : cfg.valid = true) :
    connect k cfg (s.latch k cfg) = connectTuple k cfg s := by
  rw [connect_of_not_opened _ (by simp), connectTuple, connectTuple, State.latch_latch, if_pos valid, if_pos valid]

/-! ## The functions go on where they waited -/

/-- A function `f` that waits in `u` with the turns `ts` has, when `more` turns follow, come to a state `x`, and `g` goes on
from there as `f` would have gone on with all the turns. -/
def Resumes {α : Type} (f g : State → Run α) (s : State) (ts more : List Turn) : Prop :=
  ∀ u, f (s.setTurns ts) = .waits u → ∃ x, u.setTurns more = x.suspend ∧ g x = f (s.setTurns (ts ++ more))

theorem goesOn {α : Type} {f g : State → Run α} {e : Run α → State} {s : State} {ts more : List Turn}
    (turns : s.world.turns = ts ++ more) (ending : Ending e) (blind : ∀ s, g s.suspend = (g s).suspended)
    (resumes : Resumes f g s ts more) (waiting : (e (f (s.setTurns ts))).busy = true) :
    e (f s) = { e (g ((e (f (s.setTurns ts))).setTurns more)) with host := (e (f s)).host } := by
  obtain ⟨x, here, same⟩ := resumes _ (ending.waits _ waiting)
  rw [State.setTurns_of_turns turns] at same
  rw [here, blind, same]
  exact ending.suspended _

section
variable {k : SessId} {s : State} {ts : List Turn} (more : List Turn) (ready : ∀ t ∈ ts, t.ready = true)
include ready

theorem disconnect_resumes : Resumes (disconnect k) (disconnect k) s ts more := by
  intro u waits
  by_cases isOpened : (s.session k).state = .opened
  · cases ts with
    | nil =>
      cases (disconnect_blocked (s := s.setTurns []) (.inl rfl) (by simpa using isOpened)).symm.trans waits
      exact ⟨s.setTurns more, rfl, rfl⟩
    | cons t rest =>
      cases (disconnect_of_opened (s := s.setTurns (t :: rest)) (by simpa using isOpened) rfl
        (ready t List.mem_cons_self)).symm.trans waits
  · cases (disconnect_of_not_opened (s := s.setTurns ts) (by simpa using isOpened)).symm.trans waits

theorem flushSession_resumes : Resumes (flushSession k) (flushSession k) s ts more := by
  intro u waits
  by_cases isOpened : (s.session k).state = .opened
  · cases ts with
    | nil =>
      cases (flushSession_blocked (s := s.setTurns []) (.inl rfl) (by simpa using isOpened)).symm.trans waits
      exact ⟨s.setTurns more, rfl, rfl⟩
    | cons t rest =>
      cases (flushSession_of_ready (s := s.setTurns (t :: rest)) (by simpa using isOpened) rfl
        (ready t List.mem_cons_self)).symm.trans waits
  · cases (flushSession_of_not_opened (s := s.setTurns ts) (by simpa using isOpened)).symm.trans waits

theorem sendCommand_resumes {n : Nat} (canonical : s.scratch.txbuf.wf = true) :
    Resumes (sendCommand k n) (sendCommand k n) s ts more := by
  intro u waits
  by_cases isOpened : (s.session k).state = .opened
  · by_cases fits : n + 3 ≤ Config.maxFrame
    · cases ts with
      | nil =>
        cases (sendCommand_blocked (s := s.setTurns []) (.inl rfl) (by simpa using isOpened) fits).symm.trans waits
        exact ⟨_, rfl, sendCommand_loadTx (s := s.setTurns more) (by simpa using isOpened) fits canonical⟩
      | cons t rest =>
        have ended := sendCommand_finish_of_ready (s := s.setTurns (t :: rest)) (by simpa using isOpened) fits rfl
          (ready t List.mem_cons_self)
        have keeps := sendCommand_keeps k n (s.setTurns (t :: rest))
        rw [waits] at ended keeps
        cases keeps.2.1.symm.trans (congrArg State.busy ended)
    · have large := sendCommand_of_too_large (s := s.setTurns ts) (by simpa using isOpened) (Nat.lt_of_not_le fits)
      cases large.symm.trans waits
  · cases (sendCommand_of_not_opened (s := s.setTurns ts) (by simpa using isOpened) n).symm.trans waits

theorem connectTuple_resumes (cfg : Tuple) : Resumes (connectTuple k cfg) (connect k cfg) s ts more := by
  intro u waits
  cases valid : cfg.valid with
  | false => cases (connectTuple_of_invalid k (s.setTurns ts) valid).symm.trans waits
  | true =>
    cases ts with
    | nil =>
      cases (connectTuple_blocked (s := s.setTurns []) (.inl rfl) valid).symm.trans waits
      exact ⟨(s.setTurns more).latch k cfg, by cases k <;> rfl, connect_latch k _ valid⟩
    | cons t rest =>
      have ended := connectTuple_finish_of_ready k (s := s.setTurns (t :: rest)) valid rfl (ready t List.mem_cons_self)
      have keeps := connectTuple_keeps k cfg (s.setTurns (t :: rest))
      rw [waits] at ended keeps
      cases keeps.2.1.symm.trans (congrArg State.busy ended)

theorem connect_resumes (cfg : Tuple) : Resumes (connect k cfg) (connect k cfg) s ts more := by
  intro u waits
  by_cases isOpened : (s.session k).state = .opened
  · cases ts with
    | nil =>
      cases (connect_blocked (s := s.setTurns []) (.inl rfl) (by simpa using isOpened) cfg).symm.trans waits
      exact ⟨s.setTurns more, rfl, rfl⟩
    | cons t rest =>
      have closes (r : List Turn) :
          connect k cfg (s.setTurns (t :: r)) = connectTuple k cfg ((s.closedIn k t []).setTurns r) := by
        rw [connect_of_opened cfg (by simpa using isOpened) rfl (ready t List.mem_cons_self)]
        cases k <;> rfl
      rw [closes] at waits
      obtain ⟨x, here, same⟩ := connectTuple_resumes more (fun t' h => ready t' (List.mem_cons_of_mem t h)) cfg u waits
      exact ⟨x, here, same.trans (closes _).symm⟩
  · have skips (r : List Turn) : connect k cfg (s.setTurns r) = connectTuple k cfg (s.setTurns r) :=
      connect_of_not_opened cfg (by simpa using isOpened)
    rw [skips] at waits
    obtain ⟨x, here, same⟩ := connectTuple_resumes more ready cfg u waits
    exact ⟨x, here, same.trans (skips _).symm⟩

theorem readLoop_resumes (cap timeout : Nat) (fresh : s.world.waited = 0) :
    Resumes (resumeRead k cap timeout) (resumeRead k cap timeout) s ts more := by
  intro u waits
  induction ts generalizing s with
  | nil =>
    cases (readLoop_pends (s := s.setTurns []) (.inl rfl) fresh cap timeout).symm.trans waits
    exact ⟨s.setTurns more, rfl, rfl⟩
  | cons t rest ih =>
    have isReady := ready t List.mem_cons_self
    have once (r : List Turn) : (s.setTurns (t :: r)).readOnce k t r = (s.readOnce k t []).setTurns r := by
      cases k <;> rfl
    have loop (r : List Turn) : readLoop k cap timeout (t :: r) (s.setTurns (t :: r)) =
        endRead (readEnd cap timeout (s.readOnce k t [])) ((s.readOnce k t []).setTurns r)
          (readLoop k cap timeout r ((s.readOnce k t []).setTurns r)) := by
      rw [readLoop_ready _ _ _ _ _ isReady, once]
      rfl
    change readLoop k cap timeout (t :: rest) (s.setTurns (t :: rest)) = _ at waits
    rw [loop] at waits
    cases ends : readEnd cap timeout (s.readOnce k t []) with
    | some e => rw [ends] at waits; cases e <;> cases waits
    | none =>
      rw [ends] at waits
      obtain ⟨x, here, same⟩ := ih (fun t' h => ready t' (List.mem_cons_of_mem t h)) (s.readOnce_waited k t []) waits
      refine ⟨x, here, same.trans ?_⟩
      change _ = readLoop k cap timeout (t :: (rest ++ more)) (s.setTurns (t :: (rest ++ more)))
      rw [loop, ends]
      rfl

theorem readResponse_resumes (cap timeout : Nat) :
    Resumes (readResponse k cap timeout) (resumeRead k cap timeout) s ts more := by
  intro u waits
  by_cases isOpened : (s.session k).state = .opened
  · rcases Nat.lt_or_ge timeout s.lead with late | begun
    · cases (readResponse_of_late (s := s.setTurns ts) (by simpa using isOpened) late).symm.trans waits
    · have begins (r : List Turn) : readResponse k cap timeout (s.setTurns r) =
          readLoop k cap timeout r (s.beginRead.setTurns r) :=
        readResponse_of_opened (s := s.setTurns r) (by simpa using isOpened) begun
      rw [begins] at waits
      obtain ⟨x, here, same⟩ := readLoop_resumes (s := s.beginRead) more ready cap timeout rfl u waits
      exact ⟨x, here, same.trans (begins _).symm⟩
  · cases (readResponse_of_not_opened (s := s.setTurns ts) (by simpa using isOpened) cap timeout).symm.trans waits

end

/-! ## The command -/

section
variable {s u : State} (still : StillRunning s u)
include still

theorem StillRunning.addresses {i : Instr} {k : SessId} (addr : Addresses i s k) : Addresses i u k := by
  cases i with
  | encode | decode | rcreate => exact addr
  | connect | sendcmd | readrsp | disconnect | flush => exact addr
  | ropen | rclose | rwrite | rread | rflush | rdeinit =>
    obtain ⟨table, valid, slot⟩ := addr
    refine ⟨still.params ▸ table, ?_, still.ops ▸ slot⟩
    rwa [State.validHandle_congr still.regSize still.occ, still.ops]

theorem StillRunning.tuple : u.tuple = s.tuple := by
  simp only [State.tuple, still.ops, still.mem]

theorem StillRunning.len : u.len = s.len := congrArg (fun o => o.argLen.toNat) still.ops

theorem StillRunning.cap : u.cap = s.cap := congrArg (fun o => o.argCap.toNat) still.ops

theorem StillRunning.timeoutMs : u.timeoutMs = s.timeoutMs := congrArg (fun o => o.argTimeout.toNat) still.ops

end

/-- The turns to come are no part of what a command in progress keeps. -/
theorem StillRunning.of_turns {s u : State} {ts : List Turn} (h : StillRunning (s.setTurns ts) u) (more : List Turn) :
    StillRunning s (u.setTurns more) :=
  ⟨h.busy, h.fail, h.err, h.resLen, h.resHandle, h.mem, h.regSize, h.occ, h.params, h.cmd, h.ops, h.host⟩

/-- Settles O10: the function behind the command goes on where it waited, and no function sees the wait. -/
theorem waitingCommandGoesOn : Obligations.WaitingCommandGoesOn := by
  intro s u v i ts more canonical cmd turns ready ran busy whole
  change exec i (s.setTurns ts) = _ at ran
  have here := ((exec_ends ran).stillRunning busy).of_turns more
  have decoded : decodeOpcode (u.setTurns more).cmd = .command i := by
    rw [here.cmd, cmd]
    exact decodeOpcode_opcode i
  cases exec_does ran with
  | refuses | delivers | full => cases busy
  | @connects k addr hi =>
    have addr : Addresses i s k := addr
    cases (exec_connect_of addr hi).symm.trans whole
    have resumed := exec_connect_of (here.addresses addr) hi
    rw [here.tuple] at resumed
    refine ⟨_, (resume_of_command decoded (by rcases hi with rfl | rfl <;> decide)).trans resumed, ?_⟩
    exact goesOn turns .finish (fun s => connect_suspend k s _) (connect_resumes more ready _) busy
  | @sends k addr hi =>
    have addr : Addresses i s k := addr
    cases (exec_send_of addr hi).symm.trans whole
    have resumed := exec_send_of (here.addresses addr) hi
    rw [here.len] at resumed
    refine ⟨_, (resume_of_command decoded (by rcases hi with rfl | rfl <;> decide)).trans resumed, ?_⟩
    exact goesOn turns .finish (fun s => sendCommand_suspend k s _) (sendCommand_resumes more ready canonical) busy
  | @reads k addr hi =>
    have addr : Addresses i s k := addr
    cases (exec_read_of addr hi).symm.trans whole
    have resumed := resume_read_of decoded (here.addresses addr) hi
    rw [here.cap, here.timeoutMs] at resumed
    refine ⟨_, resumed, ?_⟩
    exact goesOn turns .finishPayload (fun s => readLoop_suspend k s _ _ _) (readResponse_resumes more ready _ _) busy
  | @disconnects k addr hi =>
    have addr : Addresses i s k := addr
    cases (exec_disconnect_of addr hi).symm.trans whole
    refine ⟨_, (resume_of_command decoded (by rcases hi with rfl | rfl <;> decide)).trans
      (exec_disconnect_of (here.addresses addr) hi), ?_⟩
    exact goesOn turns .finish (disconnect_suspend k) (disconnect_resumes more ready) busy
  | @flushes k addr hi =>
    have addr : Addresses i s k := addr
    cases (exec_flush_of addr hi).symm.trans whole
    refine ⟨_, (resume_of_command decoded (by rcases hi with rfl | rfl <;> decide)).trans
      (exec_flush_of (here.addresses addr) hi), ?_⟩
    exact goesOn turns .finish (flushSession_suspend k) (flushSession_resumes more ready) busy
  | @creates h hi table free =>
    subst hi
    have table : s.params.hasRegistry = true := table
    have free : s.freeSlot = some h := free
    cases (exec_rcreate_of table free).symm.trans whole
    have resumed := exec_rcreate_of (here.params ▸ table)
      ((State.freeSlot_congr here.regSize here.params here.occ).trans free)
    rw [here.tuple] at resumed
    refine ⟨_, (resume_of_command decoded (by decide)).trans resumed, ?_⟩
    exact goesOn turns (.finishCreate h) (fun s => connect_suspend _ s _) (connect_resumes more ready _) busy
  | @deinits h hi addr =>
    subst hi
    have addr : Addresses .rdeinit s (.slot h) := addr
    cases (exec_rdeinit_of addr).symm.trans whole
    refine ⟨_, (resume_of_command decoded (by decide)).trans (exec_rdeinit_of (here.addresses addr)), ?_⟩
    exact goesOn turns (.vacate h) (disconnect_suspend _) (disconnect_resumes more ready) busy

end Sys2Proof.Machine
end
